-- ==== Sys2Proof/Word.lean ====
section
/-! DEFINITION. The byte, the command word and the byte string of NDFC (00_scope.md rule R9). -/

namespace Sys2Proof

/-- A byte is 8 bits (R9). -/
abbrev Byte := BitVec 8

/-- One word of the command port, 32 bits (R100). -/
abbrev Word := BitVec 32

/-- A byte string: entry 0 is the first byte on the wire (R9). -/
abbrev Bytes := List Byte

end Sys2Proof
end

