-- ==== Sys2Proof/Syntax.lean ====
section
/-! DEFINITION. The sixteen operations of the command port (30_encoding.md R105), the command formats (R102), and
the port itself: the words and data bytes firmware has presented and NDFC has not yet taken. -/

namespace Sys2Proof

/-- The six command formats of R102. -/
inductive Format where
  | N | A | L | W | LW | CW
  deriving DecidableEq, Repr

/-- The sixteen rows of the opcode map of R105, in its order. -/
inductive Opcode where
  | encFrame | encMeta | encAck | decFrame | decAck | verify
  | rxFrame | rxRead | rxReset
  | txLoad | txNext | txAck | txTimeout | txAbort
  | rdReg | reset
  deriving DecidableEq, Repr

/-- One operation with its operands, as assembled from a command (R103): `W` operands have 32 bits, `A` operands 24
bits, a byte-string operand is `DIN` with `LEN` its length. -/
inductive Instr where
  /-- `ENC_FRAME seq, payload` (R141). -/
  | encFrame (seq : Word) (payload : Bytes)
  /-- `ENC_META total` (R142). -/
  | encMeta (total : Word)
  /-- `ENC_ACK seq, ck` (R143). -/
  | encAck (seq : Word) (ck : Bytes)
  /-- `DEC_FRAME raw` (R144). -/
  | decFrame (raw : Bytes)
  /-- `DEC_ACK raw` (R145). -/
  | decAck (raw : Bytes)
  /-- `VERIFY raw` (R146). -/
  | verify (raw : Bytes)
  /-- `RX_FRAME raw` (R163). -/
  | rxFrame (raw : Bytes)
  /-- `RX_READ offset, n` (R172): `W = offset`, `A = n`. -/
  | rxRead (offset : Word) (n : BitVec 24)
  /-- `RX_RESET` (R175). -/
  | rxReset
  /-- `TX_LOAD payload, packet_size` (R205): `DIN = payload`, `W = packet_size`. -/
  | txLoad (payload : Bytes) (packetSize : Word)
  /-- `TX_NEXT` (R210). -/
  | txNext
  /-- `TX_ACK raw` (R212). -/
  | txAck (raw : Bytes)
  /-- `TX_TIMEOUT` (R220). -/
  | txTimeout
  /-- `TX_ABORT` (R225). -/
  | txAbort
  /-- `RD_REG n` (R230): `A = n`. -/
  | rdReg (n : BitVec 24)
  /-- `RESET` (R232). -/
  | reset
  deriving DecidableEq, Repr

/-- The command port (R65, R100): command words and `DIN` bytes presented and not yet taken, oldest first. The words
have no byte order (R100); `DIN` keeps the order presented (R103). -/
structure Port where
  words : List Word
  din : Bytes
  deriving DecidableEq, Repr

end Sys2Proof
end

