-- ==== Sys2Proof/Config.lean ====
section
/-! DEFINITION. The implementation parameters of 00_scope.md rule R6 as one record of plain data, the derived
parameters, the default values, and the three free functions the spec leaves open. The record is fixed before reset;
`State.cfg` carries it and no operation writes it (DESIGN CHOICE, log entry 1). -/

namespace Sys2Proof

/-- Which checksum function `CK` the block was built with (R130). `reference` is `CK_REF` (R131). `other k` is the
k-th function of a family of which nothing is known: what holds for every `k` holds for every `CK` the rule allows. -/
inductive CkFunction where
  | reference
  | other (k : Nat)
  deriving DecidableEq, Repr

/-- The parameters of rule R6 that are not derived from others. `rxCap = none` is the unbounded RBUF of R6 and R61. -/
structure Config where
  /-- `SEQ_BYTES`, 1 to 4. -/
  seqBytes : Nat
  /-- `CK_BYTES`, at least 1. -/
  ckBytes : Nat
  /-- `MAX_PAYLOAD_SIZE`, at least `SEQ_BYTES`. -/
  maxPayload : Nat
  /-- `WINDOW_SIZE` in frames, at least 1. -/
  windowSize : Nat
  /-- `TX_CAP` in bytes, at most `2^24 - 1`. -/
  txCap : Nat
  /-- `RX_CAP` in bytes, `none` when unbounded. -/
  rxCap : Option Nat
  /-- `TERM_MARKER`, 1 to `HDR_BYTES - 1` bytes. -/
  termMarker : Bytes
  /-- `CK`. -/
  ckFunction : CkFunction
  deriving DecidableEq, Repr

/-- `SEQ_W = 8 * SEQ_BYTES` (R6). -/
def Config.seqW (c : Config) : Nat := 8 * c.seqBytes

/-- `CK_W = 8 * CK_BYTES` (R6). -/
def Config.ckW (c : Config) : Nat := 8 * c.ckBytes

/-- `HDR_BYTES = SEQ_BYTES + CK_BYTES` (R6). -/
def Config.hdrBytes (c : Config) : Nat := c.seqBytes + c.ckBytes

/-- `MAX_RAW = HDR_BYTES + MAX_PAYLOAD_SIZE` (R6). -/
def Config.maxRaw (c : Config) : Nat := c.hdrBytes + c.maxPayload

/-- `MAX_FRAMES = 2^SEQ_W - 1` (R6). -/
def Config.maxFrames (c : Config) : Nat := 2 ^ c.seqW - 1

/-- Width of the `RDATA` response field, `max(128, CK_W)` bits (R104). -/
def Config.rdataW (c : Config) : Nat := max 128 c.ckW

/-- The values and defaults of the table of R6: what every test vector of 95_test_vectors.md uses. -/
def Config.defaults : Config where
  seqBytes := 4
  ckBytes := 16
  maxPayload := 2048
  windowSize := 4
  txCap := 65536
  rxCap := some 65536
  termMarker := [0x54#8, 0x45#8, 0x52#8, 0x4D#8]
  ckFunction := .reference

/-- FREE VALUE (DESIGN CHOICE, log entry 11): the checksum of `p` under the `k`-th unknown function with an `n`-byte result. R130
asks only that `CK` be total, deterministic and `CK_BYTES` bytes wide. -/
opaque Config.freeChecksum (k n : Nat) (p : Bytes) : BitVec (8 * n)

/-- FREE VALUE (DESIGN CHOICE, log entry 12): what `RD_REG n` shows of a value `v` that does not fit the bits the map of R43 gives
register `n`. The spec states no result there. -/
opaque Config.freeRegister (n v : Nat) : Nat

/-- FREE VALUE (DESIGN CHOICE, log entry 24): what `TX.packet_size` holds after a `TX_LOAD` of `len` bytes whose `W` passes the
24 bits of range R35 gives the register. The spec states no result there. -/
opaque Config.freePacketSize (len w : Nat) : Nat

end Sys2Proof
end

