-- ==== Sys2Proof/WellFormed.lean ====
section
/-! DEFINITION. What the command port can present (R101, R103), and which parameter records rule R6 allows. -/

namespace Sys2Proof

/-- The longest byte-string operand is `2^24 - 1` bytes, because `LEN` is the 24-bit field `A` (R101, R103). -/
abbrev lenFits (din : Bytes) : Prop := din.length < 2 ^ 24

/-- The byte-string operand, empty for a format without one. -/
def Instr.din : Instr → Bytes
  | .encFrame _ payload => payload
  | .encMeta _ => []
  | .encAck _ ck => ck
  | .decFrame raw => raw
  | .decAck raw => raw
  | .verify raw => raw
  | .rxFrame raw => raw
  | .rxRead _ _ => []
  | .rxReset => []
  | .txLoad payload _ => payload
  | .txNext => []
  | .txAck raw => raw
  | .txTimeout => []
  | .txAbort => []
  | .rdReg _ => []
  | .reset => []

/-- A well-formed operation: its byte-string operand, if it has one, fits `LEN`. Every other operand has its field's
width by its type. -/
abbrev Instr.wf (i : Instr) : Prop := lenFits i.din

/-- `CK_REF` requires `CK_BYTES = 16` (R131). -/
abbrev Config.ckFunctionWf (c : Config) : Prop := c.ckFunction = .reference → c.ckBytes = 16

/-- The constraints of the table of R6. -/
abbrev Config.wf (c : Config) : Prop :=
  1 ≤ c.seqBytes ∧ c.seqBytes ≤ 4 ∧ 1 ≤ c.ckBytes ∧ c.seqBytes ≤ c.maxPayload ∧ 1 ≤ c.windowSize ∧
    c.txCap ≤ 2 ^ 24 - 1 ∧ 1 ≤ c.termMarker.length ∧ c.termMarker.length < c.hdrBytes ∧ c.ckFunctionWf

end Sys2Proof
end

