-- ==== Sys2Proof/Decode.lean ====
section
/-! DEFINITION. The opcode map (30_encoding.md R105) as a table of rows, the decoder from the command port, and the
encoder. Decoding is total: every port content gives an operation, an illegal command, a command still being
presented, or nothing. -/

namespace Sys2Proof

/-- One row of the opcode map: a command selects it when `word0 &&& mask = pattern` (R105). -/
structure Row where
  op : Opcode
  pattern : Word
  mask : Word
  deriving DecidableEq, Repr

/-- Masks of R105: formats `N` and `W` fix the whole word because `A` must be 0, the others only the opcode. -/
def maskAll : Word := 0xFFFFFFFF#32
def maskOp : Word := 0xFF000000#32

/-- The opcode map of R105, row by row. -/
def opcodeTable : List Row := [
  ⟨.encFrame, 0x01000000#32, maskOp⟩,
  ⟨.encMeta, 0x02000000#32, maskAll⟩,
  ⟨.encAck, 0x03000000#32, maskOp⟩,
  ⟨.decFrame, 0x04000000#32, maskOp⟩,
  ⟨.decAck, 0x05000000#32, maskOp⟩,
  ⟨.verify, 0x06000000#32, maskOp⟩,
  ⟨.rxFrame, 0x10000000#32, maskOp⟩,
  ⟨.rxRead, 0x11000000#32, maskOp⟩,
  ⟨.rxReset, 0x12000000#32, maskAll⟩,
  ⟨.txLoad, 0x20000000#32, maskOp⟩,
  ⟨.txNext, 0x21000000#32, maskAll⟩,
  ⟨.txAck, 0x22000000#32, maskOp⟩,
  ⟨.txTimeout, 0x23000000#32, maskAll⟩,
  ⟨.txAbort, 0x24000000#32, maskAll⟩,
  ⟨.rdReg, 0x30000000#32, maskOp⟩,
  ⟨.reset, 0x3F000000#32, maskAll⟩]

/-- Does the word select the row (R105). -/
def Row.selects (r : Row) (w : Word) : Bool := w &&& r.mask == r.pattern

/-- The row a `word0` selects, if any (R105, R106). -/
def selectOp (w : Word) : Option Opcode := (opcodeTable.find? (·.selects w)).map Row.op

/-- The format column of R105. -/
def Opcode.format : Opcode → Format
  | .encFrame => .LW
  | .encMeta => .W
  | .encAck => .LW
  | .decFrame => .L
  | .decAck => .L
  | .verify => .L
  | .rxFrame => .L
  | .rxRead => .CW
  | .rxReset => .N
  | .txLoad => .LW
  | .txNext => .N
  | .txAck => .L
  | .txTimeout => .N
  | .txAbort => .N
  | .rdReg => .A
  | .reset => .N

/-- The op column of R105. -/
def Opcode.code : Opcode → Byte
  | .encFrame => 0x01#8
  | .encMeta => 0x02#8
  | .encAck => 0x03#8
  | .decFrame => 0x04#8
  | .decAck => 0x05#8
  | .verify => 0x06#8
  | .rxFrame => 0x10#8
  | .rxRead => 0x11#8
  | .rxReset => 0x12#8
  | .txLoad => 0x20#8
  | .txNext => 0x21#8
  | .txAck => 0x22#8
  | .txTimeout => 0x23#8
  | .txAbort => 0x24#8
  | .rdReg => 0x30#8
  | .reset => 0x3F#8

/-- Two words for formats `W`, `LW`, `CW`, one for the others (R107). -/
def Format.hasWord1 : Format → Bool
  | .W => true
  | .LW => true
  | .CW => true
  | .N => false
  | .A => false
  | .L => false

/-- `LEN` data bytes for `L` and `LW`, none for the others (R102, R107). -/
def Format.dinLen (f : Format) (a : BitVec 24) : Nat :=
  match f with
  | .L => a.toNat
  | .LW => a.toNat
  | .N => 0
  | .A => 0
  | .W => 0
  | .CW => 0

/-- Field `A = word0[23:0]` (R101). -/
def fieldA (w : Word) : BitVec 24 := w.extractLsb' 0 24

/-- Operand assembly (R103): the operation from its row and the fields `A`, `W` and `DIN`; a field its format does not
have is not used. -/
def assemble (op : Opcode) (a : BitVec 24) (w : Word) (din : Bytes) : Instr :=
  match op with
  | .encFrame => .encFrame w din
  | .encMeta => .encMeta w
  | .encAck => .encAck w din
  | .decFrame => .decFrame din
  | .decAck => .decAck din
  | .verify => .verify din
  | .rxFrame => .rxFrame din
  | .rxRead => .rxRead w a
  | .rxReset => .rxReset
  | .txLoad => .txLoad din w
  | .txNext => .txNext
  | .txAck => .txAck din
  | .txTimeout => .txTimeout
  | .txAbort => .txAbort
  | .rdReg => .rdReg a
  | .reset => .reset

/-- What the decoder makes of the port. -/
inductive Decoded where
  /-- Nothing is presented. -/
  | idle
  /-- A first word that selects a row is presented, but not yet all the words and bytes its format takes. -/
  | incomplete
  /-- `word0` selects no row (R106); one word is taken. -/
  | illegal (word0 : Word) (rest : Port)
  /-- A whole command; `rest` is what it does not take. -/
  | instr (i : Instr) (rest : Port)
  deriving DecidableEq, Repr

/-- `word1` if the format has one; 0, which nothing uses, if it has none. -/
def takeWord1 (f : Format) (ws : List Word) : Option (Word × List Word) :=
  if f.hasWord1 then
    match ws with
    | [] => none
    | w :: rest => some (w, rest)
  else some (0, ws)

/-- `DIN` of exactly `n` bytes, if that many are presented (R65, R103). -/
def takeDin (n : Nat) (din : Bytes) : Option (Bytes × Bytes) :=
  if n ≤ din.length then some (din.take n, din.drop n) else none

/-- The operands of a command whose `word0` selected `op`: as many words and bytes as the format takes (R107). -/
def decodeOperands (op : Opcode) (a : BitVec 24) (ws : List Word) (din : Bytes) : Decoded :=
  match takeWord1 op.format ws with
  | none => .incomplete
  | some (w, ws') =>
    match takeDin (op.format.dinLen a) din with
    | none => .incomplete
    | some (d, din') => .instr (assemble op a w d) ⟨ws', din'⟩

/-- The decoder (R100, R105 to R107): the first word fixes the row and with it everything the command takes. -/
def decode (p : Port) : Decoded :=
  match p.words with
  | [] => .idle
  | w0 :: ws =>
    match selectOp w0 with
    | none => .illegal w0 ⟨ws, p.din⟩
    | some op => decodeOperands op (fieldA w0) ws p.din

/-! ## The encoder -/

/-- The row of an operation. -/
def Instr.op : Instr → Opcode
  | .encFrame _ _ => .encFrame
  | .encMeta _ => .encMeta
  | .encAck _ _ => .encAck
  | .decFrame _ => .decFrame
  | .decAck _ => .decAck
  | .verify _ => .verify
  | .rxFrame _ => .rxFrame
  | .rxRead _ _ => .rxRead
  | .rxReset => .rxReset
  | .txLoad _ _ => .txLoad
  | .txNext => .txNext
  | .txAck _ => .txAck
  | .txTimeout => .txTimeout
  | .txAbort => .txAbort
  | .rdReg _ => .rdReg
  | .reset => .reset

/-- Field `A` of the command (R102): `LEN` for `L` and `LW`, the number for `A` and `CW`, 0 for `N` and `W`. -/
def Instr.fieldA : Instr → BitVec 24
  | .encFrame _ payload => BitVec.ofNat 24 payload.length
  | .encMeta _ => 0
  | .encAck _ ck => BitVec.ofNat 24 ck.length
  | .decFrame raw => BitVec.ofNat 24 raw.length
  | .decAck raw => BitVec.ofNat 24 raw.length
  | .verify raw => BitVec.ofNat 24 raw.length
  | .rxFrame raw => BitVec.ofNat 24 raw.length
  | .rxRead _ n => n
  | .rxReset => 0
  | .txLoad payload _ => BitVec.ofNat 24 payload.length
  | .txNext => 0
  | .txAck raw => BitVec.ofNat 24 raw.length
  | .txTimeout => 0
  | .txAbort => 0
  | .rdReg n => n
  | .reset => 0

/-- Field `W`, in the formats that have a `word1` (R101, R102). -/
def Instr.word1 : Instr → List Word
  | .encFrame seq _ => [seq]
  | .encMeta total => [total]
  | .encAck seq _ => [seq]
  | .decFrame _ => []
  | .decAck _ => []
  | .verify _ => []
  | .rxFrame _ => []
  | .rxRead offset _ => [offset]
  | .rxReset => []
  | .txLoad _ packetSize => [packetSize]
  | .txNext => []
  | .txAck _ => []
  | .txTimeout => []
  | .txAbort => []
  | .rdReg _ => []
  | .reset => []

/-- `word0 = op[31:24] | A[23:0]` (R101). -/
def Instr.word0 (i : Instr) : Word := i.op.code ++ i.fieldA

/-- The words and bytes of a well-formed operation (R100 to R103). -/
def encode (i : Instr) : Port := ⟨i.word0 :: i.word1, i.din⟩

/-- One command stream after another (R73): the second's words and bytes follow the first's. -/
def Port.append (p q : Port) : Port := ⟨p.words ++ q.words, p.din ++ q.din⟩

/-! ## The numbering of opcode_table.json -/

/-- `n` bytes of the number `v` from bit `lo` up, the lowest byte first. -/
def bytesFromBits (v lo : Nat) : Nat → Bytes
  | 0 => []
  | n + 1 => BitVec.ofNat 8 (v >>> lo) :: bytesFromBits v (lo + 8) n

/-- The command whose bits are `w`, as the host numbers them: `word0` is bits 31..0, `word1`, where the format has one,
bits 63..32, and the `LEN` data bytes follow the words, the first one lowest; a bit at or above `nbits` is 0 (DESIGN CHOICE, log
entry 19). -/
def portOfBits (nbits w : Nat) : Port :=
  let v := w % 2 ^ nbits
  let word0 : Word := BitVec.ofNat 32 v
  match selectOp word0 with
  | none => ⟨[word0], []⟩
  | some op =>
    if op.format.hasWord1 then
      ⟨[word0, BitVec.ofNat 32 (v >>> 32)], bytesFromBits v 64 (op.format.dinLen (fieldA word0))⟩
    else ⟨[word0], bytesFromBits v 32 (op.format.dinLen (fieldA word0))⟩

/-- The operation the decoder reads from the command whose bits are `w`, numbered as spec/opcode_table.json numbers
them; none where it refuses. -/
def decodeTableWord (nbits w : Nat) : Option Instr :=
  match decode (portOfBits nbits w) with
  | .instr i _ => some i
  | .idle => none
  | .incomplete => none
  | .illegal _ _ => none

end Sys2Proof
end

