-- ==== Sys2Proof/Machine/State.lean ====
section
/-! DEFINITION. The state of NDFC (10_state.md), its response record (R104), the reasons a step can stop, and reset
(R44, R290). Everything is plain data. -/

namespace Sys2Proof.Machine

/-- States of the RX unit (R22). The fourth 2-bit value is never written. -/
inductive RxState where
  | awaitInit | receiving | complete
  deriving DecidableEq, Repr

/-- States of the TX unit (R30). The fourth 2-bit value is never written. -/
inductive TxState where
  | idle | active | done
  deriving DecidableEq, Repr

/-- The status codes of R251, in its order. `invalidProbability` and `transportFailure` are reserved names that no
operation returns (R257). -/
inductive Status where
  | ok | malformedFrame | checksumMismatch | sequenceMismatch | timeout | invalidProbability | transportFailure
  | done | alreadyComplete | retransmit | termSeen
  | illegalOp | badParam | badState
  | oversizeFrame | badMetadata | overflow | notComplete | staleAck | invalidAck | windowFull | allSent
  | spuriousTimeout
  deriving DecidableEq, Repr

/-- The `TIMER` field: what firmware must do with the retransmission timer (R111, R262). -/
inductive TimerCmd where
  | none | start | restart | stop
  deriving DecidableEq, Repr

/-- The response of one operation (R104): every field but the status is 0, empty or `NONE` unless the rule sets it.
`rdata` is unsigned; that it fits `max(128, CK_W)` bits is a property of the rules (DESIGN CHOICE, log entry 6). -/
structure Response where
  status : Status
  rdata : Nat := 0
  dout : Bytes := []
  wire : List Bytes := []
  timer : TimerCmd := .none
  deriving DecidableEq, Repr

/-- A byte memory: its written bytes as (address, byte) pairs, addresses strictly rising. An address that is not listed
has no value, and reading it faults (DESIGN CHOICE, log entry 8). -/
abbrev Memory := List Host.Cell

/-- The RX unit: the registers of R22 to R28 and its reassembly buffer RBUF (R61). -/
structure RxUnit where
  /-- `RX.rx_state` (R22). -/
  rxState : RxState
  /-- `RX.expected_seq`, `SEQ_W` bits (R23). -/
  expectedSeq : Nat
  /-- `RX.rx_total`, `SEQ_W` bits (R24). -/
  rxTotal : Nat
  /-- `RX.last_ack_valid`, 1 bit (R25). -/
  lastAckValid : Bool
  /-- `RX.last_ack_seq`, `SEQ_W` bits (R26). -/
  lastAckSeq : Nat
  /-- `RX.last_ack_ck`, the `CK_BYTES` bytes it was on the wire (R26). -/
  lastAckCk : Bytes
  /-- `RX.rx_len`, wide enough for `RX_CAP` (R27). -/
  rxLen : Nat
  /-- `RX.overflow`, 1 bit, sticky (R28). -/
  overflow : Bool
  /-- RBUF (R61). -/
  rbuf : Memory
  deriving DecidableEq, Repr

/-- The TX unit: the registers of R30 to R38 and its source buffer TBUF (R60). -/
structure TxUnit where
  /-- `TX.tx_state` (R30). -/
  txState : TxState
  /-- `TX.tx_total`, `SEQ_W` bits (R31). -/
  txTotal : Nat
  /-- `TX.window_base`, `SEQ_W` bits (R32). -/
  windowBase : Nat
  /-- `TX.next_seq`, `SEQ_W` bits (R33). -/
  nextSeq : Nat
  /-- `TX.send_ptr`, `SEQ_W` bits (R37). -/
  sendPtr : Nat
  /-- `TX.tx_len`, 24 bits of range (R34). -/
  txLen : Nat
  /-- `TX.packet_size`, 24 bits of range (R35; log entry 24). -/
  packetSize : Nat
  /-- `TX.timer_armed`, 1 bit (R36). -/
  timerArmed : Bool
  /-- `TX.term_seen`, 1 bit (R38). -/
  termSeen : Bool
  /-- TBUF (R60). -/
  tbuf : Memory
  deriving DecidableEq, Repr

/-- The machine. `cfg` is the parameter record, never written (DESIGN CHOICE, log entry 1); `port`, `resetIn` and `response` are the
model's view of the block's three connections to firmware (DESIGN CHOICE, log entries 2, 4, 5). -/
structure State where
  /-- The parameters of R6. -/
  cfg : Config
  /-- The RX unit. -/
  rx : RxUnit
  /-- The TX unit. -/
  tx : TxUnit
  /-- What firmware has presented on the command port and NDFC has not taken (R65, R100). -/
  port : Port
  /-- The reset input (R290). -/
  resetIn : Bool
  /-- The response of the last operation performed (R104), none when there was none since reset. -/
  response : Option Response
  deriving DecidableEq, Repr

/-- The two byte memories (R60, R61). -/
inductive Space where
  | tbuf | rbuf
  deriving DecidableEq, Repr

/-- Why a step stops with a fault. No fault is reachable from reset (93_implementation_defined.md, part 2): both
constructors are safe, the model stops where the spec gives no value. -/
inductive Fault where
  /-- Raised by `memRead` and `memWrite` on an access that reaches past the capacity of the memory, where no address
  exists (R60, R61). Safe. -/
  | outsideMemory (space : Space) (addr : Nat)
  /-- Raised by `memRead` on a byte whose content the spec leaves unspecified because nothing has written it (R62,
  R63). Safe. -/
  | unwritten (space : Space) (addr : Nat)
  deriving DecidableEq, Repr

/-- Why a step refuses. -/
inductive Refusal where
  /-- Raised by an arm of `exec` whose instruction has no meaning in the model; no arm does so. Safe. -/
  | notModelled (mnemonic : String)
  deriving DecidableEq, Repr

/-- The RX unit after reset (R44): every register 0, the last acknowledgment's checksum `CK_BYTES` zero bytes, RBUF
unspecified. -/
def RxUnit.reset (c : Config) : RxUnit where
  rxState := .awaitInit
  expectedSeq := 0
  rxTotal := 0
  lastAckValid := false
  lastAckSeq := 0
  lastAckCk := List.replicate c.ckBytes 0#8
  rxLen := 0
  overflow := false
  rbuf := []

/-- The TX unit after reset (R44): every register 0, TBUF unspecified. -/
def TxUnit.reset : TxUnit where
  txState := .idle
  txTotal := 0
  windowBase := 0
  nextSeq := 0
  sendPtr := 0
  txLen := 0
  packetSize := 0
  timerArmed := false
  termSeen := false
  tbuf := []

/-- A block built with the parameters `c`, right after reset: idle, nothing presented, no response (R290, R291). -/
def State.resetWith (c : Config) : State where
  cfg := c
  rx := RxUnit.reset c
  tx := TxUnit.reset
  port := ⟨[], []⟩
  resetIn := false
  response := none

/-- The block with the values and defaults of R6, right after reset. -/
def State.reset : State := State.resetWith Config.defaults

end Sys2Proof.Machine
end

