-- ==== Sys2Proof/Machine/Flags.lean ====
section
/-! DEFINITION. Codes and flags: the numbers of the unit states (R22, R30), of the status codes (R251) and of the
`TIMER` field (R111), the two flag registers (R43) and the three level outputs (R260). -/

namespace Sys2Proof.Machine

/-- `AWAIT_INIT = 0`, `RECEIVING = 1`, `COMPLETE = 2` (R22). -/
def RxState.code : RxState → BitVec 2
  | .awaitInit => 0#2
  | .receiving => 1#2
  | .complete => 2#2

/-- `IDLE = 0`, `ACTIVE = 1`, `DONE = 2` (R30). -/
def TxState.code : TxState → BitVec 2
  | .idle => 0#2
  | .active => 1#2
  | .done => 2#2

/-- The code column of R251. -/
def Status.code : Status → BitVec 8
  | .ok => 0x00#8
  | .malformedFrame => 0x01#8
  | .checksumMismatch => 0x02#8
  | .sequenceMismatch => 0x03#8
  | .timeout => 0x04#8
  | .invalidProbability => 0x05#8
  | .transportFailure => 0x06#8
  | .done => 0x08#8
  | .alreadyComplete => 0x09#8
  | .retransmit => 0x0A#8
  | .termSeen => 0x0B#8
  | .illegalOp => 0x10#8
  | .badParam => 0x11#8
  | .badState => 0x12#8
  | .oversizeFrame => 0x13#8
  | .badMetadata => 0x14#8
  | .overflow => 0x15#8
  | .notComplete => 0x16#8
  | .staleAck => 0x17#8
  | .invalidAck => 0x18#8
  | .windowFull => 0x19#8
  | .allSent => 0x1A#8
  | .spuriousTimeout => 0x1B#8

/-- `NONE = 0`, `START = 1`, `RESTART = 2`, `STOP = 3` (R111). -/
def TimerCmd.code : TimerCmd → BitVec 2
  | .none => 0#2
  | .start => 1#2
  | .restart => 2#2
  | .stop => 3#2

/-- `RX_FLAGS` (R43): bit 0 `last_ack_valid`, bit 1 `overflow`. -/
def RxUnit.flags (r : RxUnit) : Nat := r.lastAckValid.toNat + 2 * r.overflow.toNat

/-- `TX_FLAGS` (R43): bit 0 `timer_armed`, bit 1 `term_seen`. -/
def TxUnit.flags (t : TxUnit) : Nat := t.timerArmed.toNat + 2 * t.termSeen.toNat

/-- Level output `rx_complete` (R260). -/
def State.rxCompleteOut (s : State) : Bool := s.rx.rxState == .complete

/-- Level output `tx_done` (R260). -/
def State.txDoneOut (s : State) : Bool := s.tx.txState == .done

/-- Level output `tx_timer_armed` (R260). -/
def State.txTimerArmedOut (s : State) : Bool := s.tx.timerArmed

end Sys2Proof.Machine
end

