-- ==== Sys2Proof/Machine/Operands.lean ====
section
/-! DEFINITION. The notation of 00_scope.md rules R9 and R10 that the rules compute with: big-endian integers, slices,
`ceil_div`, the range checks on operands, and what `packet_size` holds of its operand. -/

namespace Sys2Proof.Machine

/-- `be_n(v)`: the `n` low bytes of `v`, most significant first (R9, R68). -/
def be : Nat → Nat → Bytes
  | 0, _ => []
  | n + 1, v => BitVec.ofNat 8 (v / 256 ^ n) :: be n v

/-- `ube(b)`: the unsigned integer whose big-endian bytes are `b` (R9). -/
def ube (b : Bytes) : Nat := b.foldl (fun v x => v * 256 + x.toNat) 0

/-- `b[i ..< j]` (R9). -/
def slice (b : Bytes) (i j : Nat) : Bytes := (b.drop i).take (j - i)

/-- `ceil_div(a, b)` for `b >= 1`: the least `q` with `q * b >= a` (R10). -/
def ceilDiv (a b : Nat) : Nat := (a + (b - 1)) / b

/-- A sequence-number operand fits `SEQ_W` bits (R103). -/
def seqFits (c : Config) (w : Nat) : Bool := w < 2 ^ c.seqW

/-- `n` bytes from address 0 fit a memory of capacity `cap`; an unbounded memory holds any number (R6, R61). -/
def fitsCap (cap : Option Nat) (n : Nat) : Bool :=
  match cap with
  | none => true
  | some c => n ≤ c

/-- What `TX.packet_size` holds after a `TX_LOAD` of `len` bytes with `W = w`: `w` itself where it fits the 24 bits of
range of R35. A greater `w`, which R6 and R205 let pass when `MAX_PAYLOAD_SIZE` is that large, leaves a free value of 24
bits that is at least 1 (R35) and at least `len`, so that one chunk holds the buffer as with `w` (R39 (c)): DESIGN CHOICE,
log entry 24. `LEN` has 24 bits (R101), so no command has a greater `len`. -/
def heldPacketSize (len w : Nat) : Nat :=
  if w < 2 ^ 24 ∨ 2 ^ 24 ≤ len then w else max (max 1 len) (Config.freePacketSize len w % 2 ^ 24)

end Sys2Proof.Machine
end

