-- ==== Sys2Proof/Machine/Checksum.lean ====
section
/-! DEFINITION. The checksum `CK` (40_codec.md R130) and its reference instance `CK_REF` (R131). -/

namespace Sys2Proof.Machine

/-- One step of `CK_REF` (R131), on unsigned 128-bit integers. -/
def ckRefStep (h : Nat) (b : Byte) : Nat := (h * 257 + b.toNat + 1) % 2 ^ 128

/-- The 128-bit value `CK_REF` computes over a payload (R131). -/
def ckRefHash (p : Bytes) : Nat := p.foldl ckRefStep 0

/-- `CK` of a block (R130): `CK_REF` as a `CK_BYTES`-byte big-endian string (16 bytes, R131), or the block's own
unknown function. -/
def ck (c : Config) (p : Bytes) : Bytes :=
  match c.ckFunction with
  | .reference => be c.ckBytes (ckRefHash p)
  | .other k => be c.ckBytes (Config.freeChecksum k c.ckBytes p).toNat

end Sys2Proof.Machine
end

