-- ==== Sys2Proof/Machine/Wire.lean ====
section
/-! DEFINITION. The datagrams on the wire (30_encoding.md R90 to R95) and the pure functions of the CODEC unit
(40_codec.md R132 to R139, R147, R148). -/

namespace Sys2Proof.Machine

/-- `mk_frame(seq, payload)` (R132). -/
def mkFrame (c : Config) (seq : Nat) (payload : Bytes) : Bytes := be c.seqBytes seq ++ ck c payload ++ payload

/-- `mk_meta(total)` (R133). -/
def mkMeta (c : Config) (total : Nat) : Bytes := mkFrame c 0 (be c.seqBytes total)

/-- `mk_ack(seq, ck)` (R134). -/
def mkAck (c : Config) (seq : Nat) (ckField : Bytes) : Bytes := be c.seqBytes seq ++ ckField

/-- What `decode` makes of a datagram on the frame side (R95, R135, R136). -/
inductive Parsed where
  | short
  | oversize
  | frame (seq : Nat) (ckField payload : Bytes)
  deriving DecidableEq, Repr

/-- `decode(raw)` (R135): by length only; the checksum is not verified. -/
def parseFrame (c : Config) (raw : Bytes) : Parsed :=
  if raw.length < c.hdrBytes then .short
  else if c.maxRaw < raw.length then .oversize
  else .frame (ube (slice raw 0 c.seqBytes)) (slice raw c.seqBytes c.hdrBytes) (slice raw c.hdrBytes raw.length)

/-- What `dec_ack` makes of a datagram on the acknowledgment side (R95, R138). -/
inductive ParsedAck where
  | term
  | invalid
  | ack (seq : Nat) (ckField : Bytes)
  deriving DecidableEq, Repr

/-- `dec_ack(raw)` (R138). -/
def parseAck (c : Config) (raw : Bytes) : ParsedAck :=
  if raw = c.termMarker then .term
  else if raw.length = c.hdrBytes then .ack (ube (slice raw 0 c.seqBytes)) (slice raw c.seqBytes c.hdrBytes)
  else .invalid

/-- `verify(f)` (R147): all `CK_BYTES` bytes equal. -/
def verifies (c : Config) (ckField payload : Bytes) : Bool := ck c payload == ckField

/-- Chunk `k` (from 1) of a buffer cut in pieces of `ps` bytes: `b[(k-1)*ps ..< min(k*ps, len(b))]` (R139). -/
def chunk (b : Bytes) (ps k : Nat) : Bytes := slice b ((k - 1) * ps) (min (k * ps) b.length)

/-- The total frame count of a transfer of `len` bytes, the metadata frame included (R31, R139). -/
def totalFrames (len ps : Nat) : Nat := 1 + ceilDiv len ps

/-- Frame `k` of `encode(b, ps)` (R139). -/
def encodeFrame (c : Config) (b : Bytes) (ps k : Nat) : Bytes :=
  if k = 0 then mkMeta c (totalFrames b.length ps) else mkFrame c k (chunk b ps k)

/-- `encode(b, ps)` (R139): the metadata frame, then the data frames in order. -/
def encodeBuffer (c : Config) (b : Bytes) (ps : Nat) : List Bytes :=
  (List.range (totalFrames b.length ps)).map (encodeFrame c b ps)

/-- `decode_stream(frames)` (R148): the payloads of the frames whose sequence number is not 0, concatenated in list
order; none if a datagram of the list is not a frame. -/
def decodeStream (c : Config) : List Bytes → Option Bytes
  | [] => some []
  | raw :: rest =>
    match parseFrame c raw, decodeStream c rest with
    | .frame seq _ payload, some b => some (if seq = 0 then b else payload ++ b)
    | .frame _ _ _, none => none
    | .short, _ => none
    | .oversize, _ => none

end Sys2Proof.Machine
end

