-- ==== Sys2Proof/Machine/Ops.lean ====
section
/-! DEFINITION. The operations every meaning is written over: the two memories (20_memory.md), completing an operation
with a response (R104; raising a condition is nothing more, R258, R263), resending the last acknowledgment (R162),
the sender's view of its buffer (R140), the derived quantities of R40 and R41, hardware reset (R290) and the illegal
command (R106). -/

namespace Sys2Proof.Machine

/-! ## Memories -/

/-- The byte at an address, if something has written it. -/
def Memory.read? : Memory → Nat → Option Byte
  | [], _ => none
  | cell :: rest, a => if cell.1 = a then some cell.2 else Memory.read? rest a

/-- A byte string laid out from address `a` up (R9, R69). -/
def Memory.cellsFrom : Nat → Bytes → Memory
  | _, [] => []
  | a, b :: bs => (a, b) :: Memory.cellsFrom (a + 1) bs

/-- The memory after the byte string is written from address `a` up: what was below, the new bytes, what was above. -/
def Memory.write (m : Memory) (a : Nat) (bs : Bytes) : Memory :=
  m.filter (fun cell => cell.1 < a) ++ Memory.cellsFrom a bs ++ m.filter (fun cell => a + bs.length ≤ cell.1)

/-- The canonical form: addresses strictly rising. An unlisted address has no value, so no entry can equal it. -/
abbrev Memory.wf (m : Memory) : Prop := m.Pairwise (fun x y => x.1 < y.1)

/-- The `n` bytes from address `a` up, or the first address among them that nothing has written. -/
def Memory.readBytes (m : Memory) : Nat → Nat → Except Nat Bytes
  | _, 0 => .ok []
  | a, n + 1 =>
    match m.read? a with
    | none => .error a
    | some b =>
      match Memory.readBytes m (a + 1) n with
      | .error x => .error x
      | .ok bs => .ok (b :: bs)

/-- The capacity of a memory: its addresses are 0 to one less (R60, R61). -/
def Space.cap (c : Config) : Space → Option Nat
  | .tbuf => some c.txCap
  | .rbuf => c.rxCap

/-- The content of a memory. -/
def State.mem (s : State) : Space → Memory
  | .tbuf => s.tx.tbuf
  | .rbuf => s.rx.rbuf

/-- `MemRead(space, addr, n)` (R11). Reading no byte is no access. -/
def memRead (s : State) (space : Space) (addr n : Nat) : Except Fault Bytes :=
  if n = 0 then .ok []
  else if fitsCap (space.cap s.cfg) (addr + n) then
    match (s.mem space).readBytes addr n with
    | .error x => .error (.unwritten space x)
    | .ok bs => .ok bs
  else .error (.outsideMemory space addr)

/-- The content of `space` after `MemWrite(space, addr, len(v), v)` on content `m` (R11). Writing no byte is no
access. -/
def memWrite (c : Config) (space : Space) (m : Memory) (addr : Nat) (v : Bytes) : Except Fault Memory :=
  if v.length = 0 then .ok m
  else if fitsCap (space.cap c) (addr + v.length) then .ok (m.write addr v)
  else .error (.outsideMemory space addr)

/-! ## Completing an operation -/

/-- The state with the response of the operation just performed (R104). -/
def State.respond (s : State) (r : Response) : State := { s with response := some r }

/-- The state with another RX unit. -/
def State.withRx (s : State) (u : RxUnit) : State := { s with rx := u }

/-- The state with another TX unit. -/
def State.withTx (s : State) (u : TxUnit) : State := { s with tx := u }

/-- The state after the port's words and bytes up to `p` are taken (R65). -/
def State.withPort (s : State) (p : Port) : State := { s with port := p }

/-- The operation completes: the state and the response become visible together (R70). -/
def complete (s : State) (r : Response) : Host.Outcome State Fault Refusal := .next (s.respond r)

/-- A command whose `word0` selects no operation (R106): `ILLEGAL_OP`, `RDATA = word0`, nothing else. -/
def illegalCommand (s : State) (word0 : Word) : Host.Outcome State Fault Refusal :=
  complete s { status := .illegalOp, rdata := word0.toNat }

/-- Hardware reset (R290, R292): every register at its reset value, both memories unspecified, what was presented on
the port abandoned, no response, the reset input taken (DESIGN CHOICE, log entry 5). The parameters are no state (R45). -/
def hardwareReset (s : State) : State := State.resetWith s.cfg

/-! ## RX unit -/

/-- `resend_last_ack()` (R162): the datagrams it emits. -/
def resendLastAck (s : State) : List Bytes :=
  if s.rx.lastAckValid then [mkAck s.cfg s.rx.lastAckSeq s.rx.lastAckCk] else []

/-- A received datagram is not accepted: the last acknowledgment again, and nothing else changes (R161). -/
def rejectFrame (s : State) (st : Status) (rdata : Nat) : Host.Outcome State Fault Refusal :=
  complete s { status := st, rdata := rdata, wire := resendLastAck s }

/-- Lines 24 to 31 of R163 for an accepted frame, the unit being `u` after lines 13 to 23: acknowledge, remember the
acknowledgment, advance, and complete the session when the count is reached (R168, R170). -/
def acceptFrame (s : State) (u : RxUnit) (seq : Nat) (ckField : Bytes) : Host.Outcome State Fault Refusal :=
  let ack := mkAck s.cfg u.expectedSeq ckField
  let u' : RxUnit :=
    { u with lastAckSeq := u.expectedSeq, lastAckCk := ckField, lastAckValid := true, expectedSeq := u.expectedSeq + 1 }
  if u'.expectedSeq = u'.rxTotal then
    complete (s.withRx { u' with rxState := .complete })
      { status := .done, rdata := seq, wire := [ack, s.cfg.termMarker] }
  else complete (s.withRx u') { status := .ok, rdata := seq, wire := [ack] }

/-! ## TX unit -/

/-- `payload_of(k)` (R140). -/
def payloadOf (s : State) (k : Nat) : Except Fault Bytes :=
  if k = 0 then .ok (be s.cfg.seqBytes s.tx.txTotal)
  else
    memRead s .tbuf ((k - 1) * s.tx.packetSize)
      (min (k * s.tx.packetSize) s.tx.txLen - (k - 1) * s.tx.packetSize)

/-- `frame_of(k)` (R140). -/
def frameOf (s : State) (k : Nat) : Except Fault Bytes :=
  match payloadOf s k with
  | .error f => .error f
  | .ok payload => .ok (mkFrame s.cfg k payload)

/-- `expected_ck(k)` (R140). -/
def expectedCk (s : State) (k : Nat) : Except Fault Bytes :=
  match payloadOf s k with
  | .error f => .error f
  | .ok payload => .ok (ck s.cfg payload)

/-- `send_limit` (R41), in unbounded integers. -/
def sendLimit (s : State) : Nat := min (s.tx.windowBase + s.cfg.windowSize) s.tx.txTotal

/-- `outstanding` (R41). -/
def outstanding (u : TxUnit) : Bool := u.windowBase < u.nextSeq

/-- `in_flight` (R41), as the test whether frame `k` belongs to it. -/
def inFlight (u : TxUnit) (k : Nat) : Bool := u.windowBase ≤ k && k < u.nextSeq

/-- The document's state of one frame (R40). -/
inductive FrameState where
  | idle | awaitingAck | done
  deriving DecidableEq, Repr

/-- `frame_state(k)` (R40). -/
def frameState (u : TxUnit) (k : Nat) : FrameState :=
  if k < u.windowBase then .done else if k < u.nextSeq then .awaitingAck else .idle

/-- Lines 11 to 13 of R210: frame `k` goes on the wire, the unit being `u` after lines 3 to 6, and the timer is started
if it was not armed. -/
def sendFrame (s : State) (u : TxUnit) (k : Nat) (st : Status) : Host.Outcome State Fault Refusal :=
  match frameOf s k with
  | .error f => .fault f
  | .ok d =>
    complete (s.withTx { u with timerArmed := true })
      { status := st, rdata := k, wire := [d], timer := if s.tx.timerArmed then .none else .start }

/-- Lines 9 to 15 of R212 for a valid acknowledgment of `seq`: the window advances past it, and the timer is restarted
if a frame is still outstanding and stopped if none is (R215). -/
def advanceWindow (s : State) (seq : Nat) : Host.Outcome State Fault Refusal :=
  let u : TxUnit := { s.tx with windowBase := seq + 1, sendPtr := max s.tx.sendPtr (seq + 1) }
  if u.windowBase = u.txTotal then
    complete (s.withTx { u with txState := .done, timerArmed := false })
      { status := .done, rdata := seq, timer := .stop }
  else if outstanding u then complete (s.withTx u) { status := .ok, rdata := seq, timer := .restart }
  else complete (s.withTx { u with timerArmed := false }) { status := .ok, rdata := seq, timer := .stop }

/-- The `TIMER` field of `TX_ABORT` and `RESET` (R225, R232): the timer is stopped if it was armed. -/
def stopIfArmed (u : TxUnit) : TimerCmd := if u.timerArmed then .stop else .none

end Sys2Proof.Machine
end

