-- ==== Sys2Proof/Machine/Codec.lean ====
section
/-! DEFINITION. The six codec operations (40_codec.md R141 to R146). They read and write no register and no memory, and
may be issued in any state (R150). -/

namespace Sys2Proof.Machine

/-- `ENC_FRAME seq, payload` (R141). -/
def execEncFrame (seq : Word) (payload : Bytes) (s : State) : Host.Outcome State Fault Refusal :=
  if !seqFits s.cfg seq.toNat || s.cfg.maxPayload < payload.length then complete s { status := .badParam }
  else complete s { status := .ok, wire := [mkFrame s.cfg seq.toNat payload] }

/-- `ENC_META total` (R142). -/
def execEncMeta (total : Word) (s : State) : Host.Outcome State Fault Refusal :=
  if total.toNat = 0 || s.cfg.maxFrames < total.toNat then complete s { status := .badParam }
  else complete s { status := .ok, wire := [mkMeta s.cfg total.toNat] }

/-- `ENC_ACK seq, ck` (R143). -/
def execEncAck (seq : Word) (ckField : Bytes) (s : State) : Host.Outcome State Fault Refusal :=
  if !seqFits s.cfg seq.toNat || ckField.length ≠ s.cfg.ckBytes then complete s { status := .badParam }
  else complete s { status := .ok, wire := [mkAck s.cfg seq.toNat ckField] }

/-- `DEC_FRAME raw` (R144): `DOUT` is the checksum field, then the payload; the checksum is not verified. -/
def execDecFrame (raw : Bytes) (s : State) : Host.Outcome State Fault Refusal :=
  match parseFrame s.cfg raw with
  | .short => complete s { status := .malformedFrame, rdata := raw.length }
  | .oversize => complete s { status := .oversizeFrame, rdata := raw.length }
  | .frame seq ckField payload => complete s { status := .ok, rdata := seq, dout := ckField ++ payload }

/-- `DEC_ACK raw` (R145): `TX.term_seen` is not touched. -/
def execDecAck (raw : Bytes) (s : State) : Host.Outcome State Fault Refusal :=
  match parseAck s.cfg raw with
  | .term => complete s { status := .termSeen }
  | .invalid => complete s { status := .invalidAck, rdata := raw.length }
  | .ack seq ckField => complete s { status := .ok, rdata := seq, dout := ckField }

/-- `VERIFY raw` (R146). That a malformed datagram's `RDATA` is its length is from R251 and vector VC30 (DEDUCED, log entry
13). -/
def execVerify (raw : Bytes) (s : State) : Host.Outcome State Fault Refusal :=
  match parseFrame s.cfg raw with
  | .short => complete s { status := .malformedFrame, rdata := raw.length }
  | .oversize => complete s { status := .oversizeFrame, rdata := raw.length }
  | .frame seq ckField payload =>
    if verifies s.cfg ckField payload then complete s { status := .ok, rdata := seq }
    else complete s { status := .checksumMismatch, rdata := seq }

end Sys2Proof.Machine
end

