-- ==== Sys2Proof/Machine/Receiver.lean ====
section
/-! DEFINITION. The RX unit's operations (41_receiver.md R163, R172, R175). -/

namespace Sys2Proof.Machine

/-- Lines 13 to 17 of R163: the metadata frame (R166), or a frame that only looks like one (R174). -/
def acceptMetadata (s : State) (seq : Nat) (ckField payload : Bytes) : Host.Outcome State Fault Refusal :=
  if payload.length ≠ s.cfg.seqBytes || ube payload = 0 then rejectFrame s .badMetadata seq
  else acceptFrame s { s.rx with rxTotal := ube payload, rxState := .receiving } seq ckField

/-- Lines 18 to 23 of R163: a data frame is appended to RBUF (R167), or refused for want of room (R169). An
`overflow` set earlier in the session is not looked at: it only reports (R258, R264; log entry 18). -/
def acceptData (s : State) (seq : Nat) (ckField payload : Bytes) : Host.Outcome State Fault Refusal :=
  if !fitsCap s.cfg.rxCap (s.rx.rxLen + payload.length) then
    rejectFrame (s.withRx { s.rx with overflow := true }) .overflow seq
  else
    match memWrite s.cfg .rbuf s.rx.rbuf s.rx.rxLen payload with
    | .error f => .fault f
    | .ok m => acceptFrame s { s.rx with rbuf := m, rxLen := s.rx.rxLen + payload.length } seq ckField

/-- `RX_FRAME raw` (R163), its checks in the order R161 fixes. -/
def execRxFrame (raw : Bytes) (s : State) : Host.Outcome State Fault Refusal :=
  if s.rx.rxState = .complete then rejectFrame s .alreadyComplete s.rx.expectedSeq
  else
    match parseFrame s.cfg raw with
    | .short => rejectFrame s .malformedFrame raw.length
    | .oversize => rejectFrame s .oversizeFrame raw.length
    | .frame seq ckField payload =>
      if seq ≠ s.rx.expectedSeq then rejectFrame s .sequenceMismatch seq
      else if !verifies s.cfg ckField payload then rejectFrame s .checksumMismatch seq
      else if s.rx.rxState = .awaitInit then acceptMetadata s seq ckField payload
      else acceptData s seq ckField payload

/-- `RX_READ offset, n` (R172), the sum in unbounded integers. -/
def execRxRead (offset : Word) (n : BitVec 24) (s : State) : Host.Outcome State Fault Refusal :=
  if s.rx.rxState ≠ .complete then complete s { status := .notComplete, rdata := s.rx.rxLen }
  else if s.rx.rxLen < offset.toNat + n.toNat then complete s { status := .badParam, rdata := s.rx.rxLen }
  else
    match memRead s .rbuf offset.toNat n.toNat with
    | .error f => .fault f
    | .ok bs => complete s { status := .ok, rdata := s.rx.rxLen, dout := bs }

/-- `RX_RESET` (R175): every RX register at its reset value; RBUF becomes unspecified (R63, log entry 9). -/
def execRxReset (s : State) : Host.Outcome State Fault Refusal :=
  complete (s.withRx (RxUnit.reset s.cfg)) { status := .ok }

end Sys2Proof.Machine
end

