-- ==== Sys2Proof/Machine/Sender.lean ====
section
/-! DEFINITION. The TX unit's operations (42_sender.md R205, R210, R212, R220, R225). -/

namespace Sys2Proof.Machine

/-- The TX unit of a session just loaded, TBUF being `m` (R205). -/
def loadedUnit (m : Memory) (len ps : Nat) : TxUnit where
  txState := .active
  txTotal := totalFrames len ps
  windowBase := 0
  nextSeq := 0
  sendPtr := 0
  txLen := len
  packetSize := ps
  timerArmed := false
  termSeen := false
  tbuf := m

/-- `TX_LOAD payload, packet_size` (R205). Above the new buffer TBUF becomes unspecified (R62, log entry 9). A `W` past
the 24 bits of range of `packet_size` (R35) is held as `heldPacketSize` says (DESIGN CHOICE, log entry 24). -/
def execTxLoad (payload : Bytes) (packetSize : Word) (s : State) : Host.Outcome State Fault Refusal :=
  if s.tx.txState = .active then complete s { status := .badState }
  else if packetSize.toNat = 0 || s.cfg.maxPayload < packetSize.toNat || s.cfg.txCap < payload.length then
    complete s { status := .badParam }
  else if s.cfg.maxFrames < totalFrames payload.length packetSize.toNat then complete s { status := .badParam }
  else
    match memWrite s.cfg .tbuf [] 0 payload with
    | .error f => .fault f
    | .ok m =>
      complete (s.withTx (loadedUnit m payload.length (heldPacketSize payload.length packetSize.toNat)))
        { status := .ok, rdata := totalFrames payload.length packetSize.toNat }

/-- `TX_NEXT` (R210): the next retransmission if a rewind is in progress, else the next new frame if the window
allows. -/
def execTxNext (s : State) : Host.Outcome State Fault Refusal :=
  if s.tx.txState ≠ .active then complete s { status := .badState }
  else if s.tx.sendPtr < s.tx.nextSeq then
    sendFrame s { s.tx with sendPtr := s.tx.sendPtr + 1 } s.tx.sendPtr .retransmit
  else if s.tx.nextSeq < sendLimit s then
    sendFrame s { s.tx with nextSeq := s.tx.nextSeq + 1, sendPtr := s.tx.nextSeq + 1 } s.tx.nextSeq .ok
  else if s.tx.nextSeq < s.tx.txTotal then complete s { status := .windowFull, rdata := s.tx.windowBase }
  else complete s { status := .allSent, rdata := s.tx.windowBase }

/-- `TX_ACK raw` (R212): stale is tested before unsent, unsent before the checksum (R214, R216, R261). -/
def execTxAck (raw : Bytes) (s : State) : Host.Outcome State Fault Refusal :=
  if s.tx.txState = .idle then complete s { status := .badState }
  else
    match parseAck s.cfg raw with
    | .term => complete (s.withTx { s.tx with termSeen := true }) { status := .termSeen }
    | .invalid => complete s { status := .invalidAck, rdata := raw.length }
    | .ack seq ckField =>
      if seq < s.tx.windowBase then complete s { status := .staleAck, rdata := seq }
      else if s.tx.nextSeq ≤ seq then complete s { status := .invalidAck, rdata := seq }
      else
        match expectedCk s seq with
        | .error f => .fault f
        | .ok expected =>
          if ckField ≠ expected then complete s { status := .invalidAck, rdata := seq } else advanceWindow s seq

/-- `TX_TIMEOUT` (R220, R221): the send cursor goes back to the window base. -/
def execTxTimeout (s : State) : Host.Outcome State Fault Refusal :=
  if s.tx.txState ≠ .active || s.tx.windowBase = s.tx.nextSeq then complete s { status := .spuriousTimeout }
  else
    complete (s.withTx { s.tx with sendPtr := s.tx.windowBase })
      { status := .timeout, rdata := s.tx.windowBase, timer := .restart }

/-- `TX_ABORT` (R225): every TX register at its reset value; TBUF becomes unspecified (R62, log entry 9). -/
def execTxAbort (s : State) : Host.Outcome State Fault Refusal :=
  complete (s.withTx TxUnit.reset) { status := .ok, timer := stopIfArmed s.tx }

end Sys2Proof.Machine
end

