-- ==== Sys2Proof/Machine/Registers.lean ====
section
/-! DEFINITION. The register map read by `RD_REG` (10_state.md R43): twenty-one read-only registers. -/

namespace Sys2Proof.Machine

/-- The registers of R43, in its order. -/
inductive Register where
  | rxState | rxExpectedSeq | rxTotal | rxLen | rxFlags | rxLastAckSeq | rxLastAckCk
  | txState | txTotal | txWindowBase | txNextSeq | txSendPtr | txLen | txPacketSize | txFlags
  | cfgSeqBytes | cfgCkBytes | cfgMaxPayload | cfgWindowSize | cfgTxCap | cfgRxCap
  deriving DecidableEq, Repr

/-- Every register of the map. -/
def Register.all : List Register :=
  [.rxState, .rxExpectedSeq, .rxTotal, .rxLen, .rxFlags, .rxLastAckSeq, .rxLastAckCk,
   .txState, .txTotal, .txWindowBase, .txNextSeq, .txSendPtr, .txLen, .txPacketSize, .txFlags,
   .cfgSeqBytes, .cfgCkBytes, .cfgMaxPayload, .cfgWindowSize, .cfgTxCap, .cfgRxCap]

/-- The column `n` of R43. -/
def Register.number : Register → Nat
  | .rxState => 0x00
  | .rxExpectedSeq => 0x01
  | .rxTotal => 0x02
  | .rxLen => 0x03
  | .rxFlags => 0x04
  | .rxLastAckSeq => 0x05
  | .rxLastAckCk => 0x06
  | .txState => 0x10
  | .txTotal => 0x11
  | .txWindowBase => 0x12
  | .txNextSeq => 0x13
  | .txSendPtr => 0x14
  | .txLen => 0x15
  | .txPacketSize => 0x16
  | .txFlags => 0x17
  | .cfgSeqBytes => 0x20
  | .cfgCkBytes => 0x21
  | .cfgMaxPayload => 0x22
  | .cfgWindowSize => 0x23
  | .cfgTxCap => 0x24
  | .cfgRxCap => 0x25

/-- The column "bits used" of R43, as a width. -/
def Register.width (c : Config) : Register → Nat
  | .rxState => 2
  | .rxExpectedSeq => c.seqW
  | .rxTotal => c.seqW
  | .rxLen => 32
  | .rxFlags => 2
  | .rxLastAckSeq => c.seqW
  | .rxLastAckCk => c.ckW
  | .txState => 2
  | .txTotal => c.seqW
  | .txWindowBase => c.seqW
  | .txNextSeq => c.seqW
  | .txSendPtr => c.seqW
  | .txLen => 32
  | .txPacketSize => 32
  | .txFlags => 2
  | .cfgSeqBytes => 8
  | .cfgCkBytes => 8
  | .cfgMaxPayload => 32
  | .cfgWindowSize => 32
  | .cfgTxCap => 32
  | .cfgRxCap => 32

/-- `RX_CAP`, or `0xFFFFFFFF` when it exceeds 32 bits or is unbounded (R43). -/
def rxCapShown (cap : Option Nat) : Nat :=
  match cap with
  | none => 0xFFFFFFFF
  | some n => if n < 2 ^ 32 then n else 0xFFFFFFFF

/-- The column "content" of R43. -/
def Register.content (s : State) : Register → Nat
  | .rxState => s.rx.rxState.code.toNat
  | .rxExpectedSeq => s.rx.expectedSeq
  | .rxTotal => s.rx.rxTotal
  | .rxLen => s.rx.rxLen
  | .rxFlags => s.rx.flags
  | .rxLastAckSeq => s.rx.lastAckSeq
  | .rxLastAckCk => ube s.rx.lastAckCk
  | .txState => s.tx.txState.code.toNat
  | .txTotal => s.tx.txTotal
  | .txWindowBase => s.tx.windowBase
  | .txNextSeq => s.tx.nextSeq
  | .txSendPtr => s.tx.sendPtr
  | .txLen => s.tx.txLen
  | .txPacketSize => s.tx.packetSize
  | .txFlags => s.tx.flags
  | .cfgSeqBytes => s.cfg.seqBytes
  | .cfgCkBytes => s.cfg.ckBytes
  | .cfgMaxPayload => s.cfg.maxPayload
  | .cfgWindowSize => s.cfg.windowSize
  | .cfgTxCap => s.cfg.txCap
  | .cfgRxCap => rxCapShown s.cfg.rxCap

/-- The register a number names, if any (R43). -/
def registerOf (n : Nat) : Option Register := Register.all.find? (·.number == n)

/-- What a register reads as (R43): its content, zero-extended. A content that does not fit the bits the map gives the
register, for which the spec states no result, reads as a free value of that width (DESIGN CHOICE, log entry 12). -/
def Register.value (s : State) (r : Register) : Nat :=
  if r.content s < 2 ^ r.width s.cfg then r.content s
  else Config.freeRegister r.number (r.content s) % 2 ^ r.width s.cfg

end Sys2Proof.Machine
end

