-- ==== Sys2Proof/Machine/System.lean ====
section
/-! DEFINITION. The system operations (42_sender.md R230, R232). -/

namespace Sys2Proof.Machine

/-- `RD_REG n` (R230). -/
def execRdReg (n : BitVec 24) (s : State) : Host.Outcome State Fault Refusal :=
  match registerOf n.toNat with
  | none => complete s { status := .badParam, rdata := n.toNat }
  | some r => complete s { status := .ok, rdata := r.value s }

/-- `RESET` (R232): both units at reset, the timer stopped if it was armed. -/
def execReset (s : State) : Host.Outcome State Fault Refusal :=
  complete ((s.withRx (RxUnit.reset s.cfg)).withTx TxUnit.reset) { status := .ok, timer := stopIfArmed s.tx }

end Sys2Proof.Machine
end

