-- ==== Sys2Proof/Machine/Dispatch.lean ====
section
/-! DEFINITION. One arm per operation of the opcode map (30_encoding.md R105). -/

namespace Sys2Proof.Machine

def exec (i : Instr) (s : State) : Host.Outcome State Fault Refusal :=
  match i with
  | .encFrame seq payload => Sys2Proof.Machine.execEncFrame seq payload s
  | .encMeta total => Sys2Proof.Machine.execEncMeta total s
  | .encAck seq ck => Sys2Proof.Machine.execEncAck seq ck s
  | .decFrame raw => Sys2Proof.Machine.execDecFrame raw s
  | .decAck raw => Sys2Proof.Machine.execDecAck raw s
  | .verify raw => Sys2Proof.Machine.execVerify raw s
  | .rxFrame raw => Sys2Proof.Machine.execRxFrame raw s
  | .rxRead offset n => Sys2Proof.Machine.execRxRead offset n s
  | .rxReset => Sys2Proof.Machine.execRxReset s
  | .txLoad payload packetSize => Sys2Proof.Machine.execTxLoad payload packetSize s
  | .txNext => Sys2Proof.Machine.execTxNext s
  | .txAck raw => Sys2Proof.Machine.execTxAck raw s
  | .txTimeout => Sys2Proof.Machine.execTxTimeout s
  | .txAbort => Sys2Proof.Machine.execTxAbort s
  | .rdReg n => Sys2Proof.Machine.execRdReg n s
  | .reset => Sys2Proof.Machine.execReset s

end Sys2Proof.Machine
end

