-- ==== Sys2Proof/Machine/Step.lean ====
section
/-! DEFINITION. One step: hardware reset if its input is asserted, else one command of the port (R12, R73), else
nothing. -/

namespace Sys2Proof.Machine

/-- One step of NDFC. With nothing or only part of a command presented the block is idle and keeps all state (R268,
R291, log entry 3). -/
def step (s : State) : Host.Outcome State Fault Refusal :=
  if s.resetIn then .next (hardwareReset s)
  else
    match decode s.port with
    | .idle => .next s
    | .incomplete => .next s
    | .illegal word0 rest => illegalCommand (s.withPort rest) word0
    | .instr i rest => exec i (s.withPort rest)

/-- The state with the command whose bits are `w` presented on the port, and nothing else presented: the next step takes
exactly it (DESIGN CHOICE, log entries 2, 19). -/
def State.withFetchWord (s : State) (nbits w : Nat) : State :=
  { s with port := portOfBits nbits w, resetIn := false }

end Sys2Proof.Machine
end

