-- ==== Sys2Proof/Machine/Pseudo.lean ====
section
/-! DEFINITION. The pseudo-operations of 30_encoding.md R115: sequences of operations, written over `exec`. They are no
commands. Where R115 repeats until a status appears, the number of repetitions that can be needed is the bound. Each
answers none if an operation stops or the bound is reached (DEDUCED, log entry 20). R115 does not say what a
pseudo-operation is when an operand of its expansion has no encoding (R103). A byte string of `2^24` bytes or more is
performed all the same, as `exec` has a meaning for it; the count of `RX_READ` cannot be formed then, and
`decodeStreamOps` answers none (both DESIGN CHOICE, log entry 20). -/

namespace Sys2Proof.Machine

/-- One operation with its response. The operation need not have an encoding (DESIGN CHOICE, log entry 20). -/
def perform (i : Instr) (s : State) : Option (Response × State) :=
  match exec i s with
  | .next t => t.response.map (fun r => (r, t))
  | .fault _ => none
  | .refused _ => none

/-- Operations one after another (R73), with their responses in order. -/
def performAll : List Instr → State → Option (List Response × State)
  | [], s => some ([], s)
  | i :: rest, s =>
    match perform i s with
    | none => none
    | some (r, t) => (performAll rest t).map (fun x => (r :: x.1, x.2))

/-- The statuses that end `SEND_ALL` (R115, R201). -/
def endsDrain (st : Status) : Bool := st == .windowFull || st == .allSent || st == .badState

/-- At most `n` times `TX_NEXT`, until one ends the drain; the datagrams in order. -/
def drain : Nat → State → Option (List Bytes × State)
  | 0, _ => none
  | n + 1, s =>
    match perform .txNext s with
    | none => none
    | some (r, t) =>
      if endsDrain r.status then some (r.wire, t) else (drain n t).map (fun x => (r.wire ++ x.1, x.2))

/-- `SEND_ALL` (R115). A drain sends at most `WINDOW_SIZE` frames before the `TX_NEXT` that ends it. -/
def sendAll (s : State) : Option (List Bytes × State) := drain (s.cfg.windowSize + 1) s

/-- The acknowledgment that matches a frame: its sequence number and checksum fields (R93). -/
def matchingAck (c : Config) (frame : Bytes) : Bytes := frame.take c.hdrBytes

/-- At most `n` times `TX_NEXT` and a `TX_ACK` of the matching acknowledgment, until the session is `DONE`; the frames
emitted in order. -/
def ackedLoop : Nat → State → Option (List Bytes × State)
  | 0, s => if s.tx.txState = .done then some ([], s) else none
  | n + 1, s =>
    if s.tx.txState = .done then some ([], s)
    else
      match perform .txNext s with
      | none => none
      | some (r, t) =>
        match performAll (r.wire.map (fun d => .txAck (matchingAck t.cfg d))) t with
        | none => none
        | some (_, u) => (ackedLoop n u).map (fun x => (r.wire ++ x.1, x.2))

/-- `ENCODE payload, packet_size` (R115): the frames emitted, in order. -/
def encodeOps (payload : Bytes) (packetSize : Word) (s : State) : Option (List Bytes × State) :=
  match perform (.txLoad payload packetSize) s with
  | none => none
  | some (_, t) => ackedLoop t.tx.txTotal t

/-- `DELIVER F` (R115): `RX_FRAME` at the receiver `r`, the acknowledgments it emits passed to `TX_ACK` at the sender
`s`. The termination marker is no acknowledgment (R95). A frame of `2^24` bytes or more, for which R115 is silent since
no `RX_FRAME` encodes it (R103), is delivered all the same, and so is its acknowledgment (DESIGN CHOICE, log entry 20).
-/
def deliver (frame : Bytes) (r s : State) : Option (State × State) :=
  match perform (.rxFrame frame) r with
  | none => none
  | some (resp, r') =>
    match performAll ((resp.wire.filter (fun d => d ≠ r.cfg.termMarker)).map .txAck) s with
    | none => none
    | some (_, s') => some (r', s')

/-- `decode_stream(frames)` as operations (R115): `RX_RESET`, `RX_FRAME` of each frame, `RX_READ 0, RX_LEN`; the bytes
read. A buffer of `2^24` bytes or more has no such `RX_READ`, since its count is the 24-bit field `A` (R172 reads it in
several operations), and R115 does not say what is read then: the model answers none. A frame
of `2^24` bytes or more has no `RX_FRAME` (R103; R6 bounds no `MAX_PAYLOAD_SIZE`), and R115 does not say what becomes of
it: the model performs `RX_FRAME` on it all the same (both DESIGN CHOICE, log entry 20). -/
def decodeStreamOps (frames : List Bytes) (s : State) : Option (Bytes × State) :=
  match performAll (.rxReset :: frames.map .rxFrame) s with
  | none => none
  | some (_, t) =>
    if t.rx.rxLen < 2 ^ 24 then
      (perform (.rxRead 0 (BitVec.ofNat 24 t.rx.rxLen)) t).map (fun x => (x.1.dout, x.2))
    else none

end Sys2Proof.Machine
end

