-- ==== Sys2Proof/Safety.lean ====
section
/-! DEFINITION. The invariants of 10_state.md (R29, R39, R36) and the legal ranges of the registers, in the terms
statements use. All are decidable on a concrete state. -/

namespace Sys2Proof.Machine

/-- A memory lists exactly the addresses 0 to `len - 1`, in order: the bytes the session has written (R62, R63). -/
abbrev Memory.holdsExactly (m : Memory) (len : Nat) : Prop := m.map Prod.fst = List.range len

/-- R29 (a). -/
abbrev RxUnit.awaitInv (u : RxUnit) : Prop :=
  u.rxState = .awaitInit → u.expectedSeq = 0 ∧ u.lastAckValid = false ∧ u.rxLen = 0

/-- R29 (b). -/
abbrev RxUnit.receivingInv (u : RxUnit) : Prop :=
  u.rxState = .receiving → 1 ≤ u.expectedSeq ∧ u.expectedSeq < u.rxTotal ∧ u.lastAckValid = true

/-- R29 (c). -/
abbrev RxUnit.completeInv (u : RxUnit) : Prop :=
  u.rxState = .complete → u.expectedSeq = u.rxTotal ∧ 1 ≤ u.rxTotal ∧ u.lastAckValid = true

/-- R29 (d). -/
abbrev RxUnit.lastAckInv (u : RxUnit) : Prop := u.lastAckValid = true → u.lastAckSeq = u.expectedSeq - 1

/-- R29 (e), the part that is about one state: the length is within the capacity and RBUF holds that many bytes. -/
abbrev RxUnit.bufferInv (c : Config) (u : RxUnit) : Prop :=
  fitsCap c.rxCap u.rxLen = true ∧ u.rbuf.holdsExactly u.rxLen

/-- The widths of R23 to R27: sequence registers fit `SEQ_W` bits, the checksum is `CK_BYTES` bytes, and `rx_len` is
below what so many frames of at most `2^24 - 1` bytes (R103) can carry. -/
abbrev RxUnit.widthInv (c : Config) (u : RxUnit) : Prop :=
  u.rxTotal ≤ c.maxFrames ∧ u.lastAckSeq ≤ c.maxFrames ∧ u.lastAckCk.length = c.ckBytes ∧
    u.rxLen ≤ u.expectedSeq * 2 ^ 24

/-- R28, R169: only a data frame sets `overflow`, and none does where RBUF is unbounded. -/
abbrev RxUnit.overflowInv (c : Config) (u : RxUnit) : Prop :=
  u.overflow = true → u.rxState ≠ .awaitInit ∧ c.rxCap ≠ none

/-- The RX invariants (R28, R29) with the register widths. -/
abbrev RxInv (c : Config) (u : RxUnit) : Prop :=
  u.awaitInv ∧ u.receivingInv ∧ u.completeInv ∧ u.lastAckInv ∧ u.overflowInv c ∧ u.bufferInv c ∧ u.widthInv c

/-- R39 (a). -/
abbrev TxUnit.orderInv (c : Config) (u : TxUnit) : Prop :=
  u.windowBase ≤ u.sendPtr ∧ u.sendPtr ≤ u.nextSeq ∧ u.nextSeq ≤ u.txTotal ∧ u.txTotal ≤ c.maxFrames

/-- R39 (b). -/
abbrev TxUnit.windowInv (c : Config) (u : TxUnit) : Prop := u.nextSeq - u.windowBase ≤ c.windowSize

/-- R39 (c). -/
abbrev TxUnit.totalInv (u : TxUnit) : Prop := u.txTotal = totalFrames u.txLen u.packetSize

/-- R39 (d). -/
abbrev TxUnit.doneInv (u : TxUnit) : Prop := u.txState = .done ↔ u.windowBase = u.txTotal

/-- R39 (e), R36. -/
abbrev TxUnit.armedInv (u : TxUnit) : Prop :=
  u.timerArmed = true ↔ u.txState = .active ∧ u.windowBase < u.nextSeq

/-- The loaded buffer (R34, R60, R62) and the range of `packet_size` (R35; log entry 24). -/
abbrev TxUnit.bufferInv (c : Config) (u : TxUnit) : Prop :=
  1 ≤ u.packetSize ∧ u.packetSize ≤ c.maxPayload ∧ u.packetSize < 2 ^ 24 ∧ u.txLen ≤ c.txCap ∧
    u.tbuf.holdsExactly u.txLen

/-- The TX invariants (R39) with the register ranges; in `IDLE` every register is as `TX_ABORT` or reset left it. -/
abbrev TxInv (c : Config) (u : TxUnit) : Prop :=
  (u.txState = .idle → u = TxUnit.reset) ∧
    (u.txState ≠ .idle →
      u.orderInv c ∧ u.windowInv c ∧ u.totalInv ∧ u.doneInv ∧ u.armedInv ∧ u.bufferInv c)

/-- The invariant of the machine: legal parameters and the two units' invariants. -/
abbrev Invariant (s : State) : Prop := s.cfg.wf ∧ RxInv s.cfg s.rx ∧ TxInv s.cfg s.tx

/-- Every RX register at its reset value (R44, R175). -/
abbrev RxUnit.atReset (c : Config) (u : RxUnit) : Prop :=
  u.rxState = .awaitInit ∧ u.expectedSeq = 0 ∧ u.rxTotal = 0 ∧ u.lastAckValid = false ∧ u.lastAckSeq = 0 ∧
    u.lastAckCk = List.replicate c.ckBytes 0#8 ∧ u.rxLen = 0 ∧ u.overflow = false

/-- Every TX register at its reset value (R44, R225). -/
abbrev TxUnit.atReset (u : TxUnit) : Prop :=
  u.txState = .idle ∧ u.txTotal = 0 ∧ u.windowBase = 0 ∧ u.nextSeq = 0 ∧ u.sendPtr = 0 ∧ u.txLen = 0 ∧
    u.packetSize = 0 ∧ u.timerArmed = false ∧ u.termSeen = false

/-- The datagram is as long as a frame can be (R90, R95). -/
abbrev frameLength (c : Config) (raw : Bytes) : Prop := c.hdrBytes ≤ raw.length ∧ raw.length ≤ c.maxRaw

/-- The sequence-number field of a datagram (R90). -/
abbrev seqField (c : Config) (raw : Bytes) : Nat := ube (raw.take c.seqBytes)

/-- The checksum field is the checksum of the payload (R90, R147). -/
abbrev checksumGood (c : Config) (raw : Bytes) : Prop :=
  ck c (raw.drop c.hdrBytes) = (raw.drop c.seqBytes).take c.ckBytes

/-- The last acknowledgment again, or nothing when there is none (R162). -/
abbrev lastAckAgain (s : State) : List Bytes :=
  if s.rx.lastAckValid then [be s.cfg.seqBytes s.rx.lastAckSeq ++ s.rx.lastAckCk] else []

/-- The datagram acknowledges the in-flight frame `a` with the checksum the sender expects (R212, lines 6 to 8). -/
abbrev validAck (s : State) (raw : Bytes) (a : Nat) : Prop :=
  raw.length = s.cfg.hdrBytes ∧ seqField s.cfg raw = a ∧ s.tx.windowBase ≤ a ∧ a < s.tx.nextSeq ∧
    expectedCk s a = .ok (raw.drop s.cfg.seqBytes)

/-- `n` is `ceil_div(len, ps)`: the least number of pieces of `ps` bytes that hold `len` bytes (R10). -/
abbrev leastPieces (len ps n : Nat) : Prop := len ≤ n * ps ∧ ∀ q, len ≤ q * ps → n ≤ q

/-- The operation accepted the frame it was given (R163). -/
abbrev accepted (r : Response) : Prop := r.status = .ok ∨ r.status = .done

/-- The sequence numbers of the accepted datagrams, in order. -/
def acceptedSeqs (c : Config) : List Bytes → List Response → List Nat
  | raw :: raws, r :: rs => if accepted r then seqField c raw :: acceptedSeqs c raws rs else acceptedSeqs c raws rs
  | [], _ => []
  | _ :: _, [] => []

/-- The payloads of the accepted datagrams but the metadata frame, joined in order (R178). -/
def acceptedPayloads (c : Config) : List Bytes → List Response → Bytes
  | raw :: raws, r :: rs =>
    if accepted r ∧ seqField c raw ≠ 0 then raw.drop c.hdrBytes ++ acceptedPayloads c raws rs
    else acceptedPayloads c raws rs
  | [], _ => []
  | _ :: _, [] => []

/-- The statuses whose row in R251 says that the operation wrote no register and no memory. -/
def Status.writesNothing (st : Status) : Bool :=
  st ∈ [.malformedFrame, .checksumMismatch, .sequenceMismatch, .alreadyComplete, .illegalOp, .badParam, .badState,
    .oversizeFrame, .badMetadata, .notComplete, .staleAck, .invalidAck, .windowFull, .allSent, .spuriousTimeout]

/-- The step goes on. -/
def Goes (s : State) : Prop := ∃ t, step s = .next t

/-- Both units are as they were: no register and no memory byte has changed. -/
abbrev sameUnits (s t : State) : Prop := t.rx = s.rx ∧ t.tx = s.tx

/-- The parameters, the port and the reset input are as they were. -/
abbrev sameConnections (s t : State) : Prop := t.cfg = s.cfg ∧ t.port = s.port ∧ t.resetIn = s.resetIn

/-- The byte at every address of a memory reads as before. -/
abbrev sameMemory (sp : Space) (s t : State) : Prop := ∀ a, (t.mem sp).read? a = (s.mem sp).read? a

end Sys2Proof.Machine

namespace Sys2Proof

/-- The codec operations (R105, column family). -/
def Instr.isCodec : Instr → Bool
  | .encFrame _ _ => true
  | .encMeta _ => true
  | .encAck _ _ => true
  | .decFrame _ => true
  | .decAck _ => true
  | .verify _ => true
  | .rxFrame _ => false
  | .rxRead _ _ => false
  | .rxReset => false
  | .txLoad _ _ => false
  | .txNext => false
  | .txAck _ => false
  | .txTimeout => false
  | .txAbort => false
  | .rdReg _ => false
  | .reset => false

/-- The receiver operations. -/
def Instr.isRx : Instr → Bool
  | .rxFrame _ => true
  | .rxRead _ _ => true
  | .rxReset => true
  | .encFrame _ _ => false
  | .encMeta _ => false
  | .encAck _ _ => false
  | .decFrame _ => false
  | .decAck _ => false
  | .verify _ => false
  | .txLoad _ _ => false
  | .txNext => false
  | .txAck _ => false
  | .txTimeout => false
  | .txAbort => false
  | .rdReg _ => false
  | .reset => false

/-- The sender operations. -/
def Instr.isTx : Instr → Bool
  | .txLoad _ _ => true
  | .txNext => true
  | .txAck _ => true
  | .txTimeout => true
  | .txAbort => true
  | .encFrame _ _ => false
  | .encMeta _ => false
  | .encAck _ _ => false
  | .decFrame _ => false
  | .decAck _ => false
  | .verify _ => false
  | .rxFrame _ => false
  | .rxRead _ _ => false
  | .rxReset => false
  | .rdReg _ => false
  | .reset => false

/-- The operations that begin or end a sending session (R205, R225, R232); every other one stays inside it. -/
def Instr.changesSession : Instr → Bool
  | .txLoad _ _ => true
  | .txAbort => true
  | .reset => true
  | .encFrame _ _ => false
  | .encMeta _ => false
  | .encAck _ _ => false
  | .decFrame _ => false
  | .decAck _ => false
  | .verify _ => false
  | .rxFrame _ => false
  | .rxRead _ _ => false
  | .rxReset => false
  | .txNext => false
  | .txAck _ => false
  | .txTimeout => false
  | .rdReg _ => false

/-- The operations that write a memory or leave one unspecified (R60 to R63). -/
def Instr.mayStore : Instr → Bool
  | .rxFrame _ => true
  | .rxReset => true
  | .txLoad _ _ => true
  | .txAbort => true
  | .reset => true
  | .encFrame _ _ => false
  | .encMeta _ => false
  | .encAck _ _ => false
  | .decFrame _ => false
  | .decAck _ => false
  | .verify _ => false
  | .rxRead _ _ => false
  | .txNext => false
  | .txAck _ => false
  | .txTimeout => false
  | .rdReg _ => false

end Sys2Proof
end

