-- ==== Sys2Proof/Certificates/Slice0/Obligations.lean ====
section
/-! DEFINITION. The statements for the provers. Each docstring names the rule or rules it formalises. -/

open Sys2Proof Sys2Proof.Machine

/-! ## Commands: the port, the decoder, the step -/

/-- R100 to R107: whatever follows on the port, the decoder reads an encoded operation back, with every operand at every
value its field admits, and takes exactly its words and bytes. -/
def Obligations.DecodeOfEncodeIsTheInstruction : Prop :=
  ∀ (i : Instr) (rest : Port), i.wf → decode ((encode i).append rest) = .instr i rest

/-- R100 to R107: a port content the decoder reads is the encoding of what it reads, then what it leaves: each command
has one meaning. -/
def Obligations.EncodeOfDecodeIsThePort : Prop :=
  ∀ (p rest : Port) (i : Instr), decode p = .instr i rest → i.wf ∧ (encode i).append rest = p

/-- R105: which words select which operation. -/
def Obligations.WordSelectsByOpcodeAndZeroA : Prop :=
  ∀ (x : Byte) (a : BitVec 24) (op : Opcode),
    selectOp (x ++ a) = some op ↔ x = op.code ∧ ((op.format = .N ∨ op.format = .W) → a = 0#24)

/-- The worked command encodings, with the frame and the acknowledgment of R98: what the spec infers from R101, R102,
R105 and R106 and marks as its own inference ("Worked command encodings (default parameters)"). -/
def Obligations.DecodeReadsTheWorkedEncodings : Prop :=
  let hello : Bytes := [0x48, 0x45, 0x4C, 0x4C, 0x4F, 0x57, 0x4F, 0x52, 0x4C, 0x44]
  let ack : Bytes := [0, 0, 0, 1, 0, 0, 0, 0, 0, 0, 0, 0, 0, 0, 0, 0, 0x4A, 0x22, 0xB5, 0x29]
  let frame : Bytes := ack ++ [0x48, 0x45, 0x4C, 0x4C]
  decode ⟨[0x2000000A, 0x00000004], hello⟩ = .instr (.txLoad hello 4) ⟨[], []⟩ ∧
  decode ⟨[0x21000000], []⟩ = .instr .txNext ⟨[], []⟩ ∧
  decode ⟨[0x10000018], frame⟩ = .instr (.rxFrame frame) ⟨[], []⟩ ∧
  decode ⟨[0x22000014], ack⟩ = .instr (.txAck ack) ⟨[], []⟩ ∧
  decode ⟨[0x1100000A, 0x00000000], []⟩ = .instr (.rxRead 0 10) ⟨[], []⟩ ∧
  decode ⟨[0x30000012], []⟩ = .instr (.rdReg 0x12) ⟨[], []⟩ ∧
  decode ⟨[0x21000001], []⟩ = .illegal 0x21000001 ⟨[], []⟩

/-- R106: an opcode that is not one of the sixteen, or one of format `N` or `W` with `A` not 0, completes with
`ILLEGAL_OP`, takes `word0` only, and changes no state. -/
def Obligations.IllegalCommandTakesOneWordAndChangesNothing : Prop :=
  ∀ (s : State) (x : Byte) (a : BitVec 24) (ws : List Word),
    s.resetIn = false → s.port.words = (x ++ a) :: ws →
    (x.toNat ∉ [0x01, 0x02, 0x03, 0x04, 0x05, 0x06, 0x10, 0x11, 0x12, 0x20, 0x21, 0x22, 0x23, 0x24, 0x30, 0x3F] ∨
      (x.toNat ∈ [0x02, 0x12, 0x21, 0x23, 0x24, 0x3F] ∧ a ≠ 0#24)) →
    step s = .next
      { s with
        port := ⟨ws, s.port.din⟩
        response := some
          { status := .illegalOp, rdata := (x ++ a : Word).toNat, dout := [], wire := [], timer := .none } }

/-- R12, R73: when the words and bytes of a well-formed operation stand first on the port, and the reset input is not
asserted, the step takes them and is `exec` of that operation. -/
def Obligations.StepRunsTheDecodedInstruction : Prop :=
  ∀ (s : State) (i : Instr) (rest : Port), i.wf → s.resetIn = false → s.port = (encode i).append rest →
    step s = exec i { s with port := rest }

/-- R268, R291, and the model's choice of log entry 3: while nothing, or only part of a command, is presented, the step
changes nothing. -/
def Obligations.StepWaitsForAWholeCommand : Prop :=
  ∀ (s : State) (i : Instr) (m n : Nat), i.wf → s.resetIn = false →
    (m < (encode i).words.length ∨ n < (encode i).din.length) →
    s.port = ⟨(encode i).words.take m, (encode i).din.take n⟩ → step s = .next s

/-- R44, R290: the reset input puts every register at its reset value and gives no response; the parameters stay (R45).
Nothing is said of the port and the input itself, which are the model's choice (log entry 5). -/
def Obligations.HardwareResetPutsEveryRegisterAtReset : Prop :=
  ∀ s : State, s.resetIn = true →
    ∃ t, step s = .next t ∧ t.rx.atReset s.cfg ∧ t.tx.atReset ∧ t.response = none ∧ t.cfg = s.cfg

/-! ## The codec -/

/-- The five laws the spec infers from R132 to R148 and marks as its own inference ("each is a property a model should
prove"), for every legal parameter record. The legal packet sizes of (e) are those whose frames fit the sequence space
(R139, R203). -/
def Obligations.CodecLaws : Prop :=
  ∀ c : Config, c.wf →
    (∀ (q : Nat) (p : Bytes), q < 2 ^ c.seqW → p.length ≤ c.maxPayload →
      parseFrame c (mkFrame c q p) = .frame q (ck c p) p) ∧
    (∀ (q : Nat) (p : Bytes), q < 2 ^ c.seqW → p.length ≤ c.maxPayload →
      ∃ q' k p', parseFrame c (mkFrame c q p) = .frame q' k p' ∧ verifies c k p' = true) ∧
    (∀ (q : Nat) (k : Bytes), q < 2 ^ c.seqW → k.length = c.ckBytes → parseAck c (mkAck c q k) = .ack q k) ∧
    parseAck c c.termMarker = .term ∧
    (∀ (raw : Bytes) (q : Nat) (k p : Bytes), parseFrame c raw = .frame q k p →
      (mkFrame c q p = raw ↔ verifies c k p = true)) ∧
    (∀ (b : Bytes) (ps : Nat), 1 ≤ ps → ps ≤ c.maxPayload → totalFrames b.length ps ≤ c.maxFrames →
      decodeStream c (encodeBuffer c b ps) = some b)

/-- What the spec infers from the definition of `CK_REF` and marks as its own inference: "changing any single byte of
`p` always changes the result". -/
def Obligations.ReferenceChecksumSeesEveryByteChange : Prop :=
  ∀ (c : Config) (p : Bytes) (i : Nat) (x y : Byte), c.ckFunction = .reference → c.ckBytes = 16 →
    p[i]? = some y → x ≠ y → ck c (p.set i x) ≠ ck c p

/-- R141: `ENC_FRAME`, both outcomes; the datagram by its fields (R90). -/
def Obligations.EncFrameEmitsTheFrame : Prop :=
  ∀ (s : State) (seq : Word) (p : Bytes),
    (seq.toNat < 2 ^ s.cfg.seqW ∧ p.length ≤ s.cfg.maxPayload →
      ∃ d, exec (.encFrame seq p) s =
          .next (s.respond { status := .ok, rdata := 0, dout := [], wire := [d], timer := .none }) ∧
        d.length = s.cfg.hdrBytes + p.length ∧ seqField s.cfg d = seq.toNat ∧
        (d.drop s.cfg.seqBytes).take s.cfg.ckBytes = ck s.cfg p ∧ d.drop s.cfg.hdrBytes = p) ∧
    (¬ (seq.toNat < 2 ^ s.cfg.seqW ∧ p.length ≤ s.cfg.maxPayload) →
      exec (.encFrame seq p) s =
        .next (s.respond { status := .badParam, rdata := 0, dout := [], wire := [], timer := .none }))

/-- R142: `ENC_META`, both outcomes; the datagram is the metadata frame of R92. -/
def Obligations.EncMetaEmitsTheMetadataFrame : Prop :=
  ∀ (s : State) (total : Word),
    (1 ≤ total.toNat ∧ total.toNat ≤ 2 ^ s.cfg.seqW - 1 →
      ∃ d, exec (.encMeta total) s =
          .next (s.respond { status := .ok, rdata := 0, dout := [], wire := [d], timer := .none }) ∧
        d.length = s.cfg.hdrBytes + s.cfg.seqBytes ∧ seqField s.cfg d = 0 ∧
        checksumGood s.cfg d ∧ ube (d.drop s.cfg.hdrBytes) = total.toNat) ∧
    (¬ (1 ≤ total.toNat ∧ total.toNat ≤ 2 ^ s.cfg.seqW - 1) →
      exec (.encMeta total) s =
        .next (s.respond { status := .badParam, rdata := 0, dout := [], wire := [], timer := .none }))

/-- R143: `ENC_ACK`, both outcomes; the datagram by its fields (R93). -/
def Obligations.EncAckEmitsTheAcknowledgment : Prop :=
  ∀ (s : State) (seq : Word) (k : Bytes),
    (seq.toNat < 2 ^ s.cfg.seqW ∧ k.length = s.cfg.ckBytes →
      ∃ d, exec (.encAck seq k) s =
          .next (s.respond { status := .ok, rdata := 0, dout := [], wire := [d], timer := .none }) ∧
        d.length = s.cfg.hdrBytes ∧ seqField s.cfg d = seq.toNat ∧ d.drop s.cfg.seqBytes = k) ∧
    (¬ (seq.toNat < 2 ^ s.cfg.seqW ∧ k.length = s.cfg.ckBytes) →
      exec (.encAck seq k) s =
        .next (s.respond { status := .badParam, rdata := 0, dout := [], wire := [], timer := .none }))

/-- R144: `DEC_FRAME` on every datagram. -/
def Obligations.DecFrameSplitsTheDatagram : Prop :=
  ∀ (s : State) (raw : Bytes),
    (raw.length < s.cfg.hdrBytes → exec (.decFrame raw) s = .next (s.respond
      { status := .malformedFrame, rdata := raw.length, dout := [], wire := [], timer := .none })) ∧
    (s.cfg.maxRaw < raw.length → exec (.decFrame raw) s = .next (s.respond
      { status := .oversizeFrame, rdata := raw.length, dout := [], wire := [], timer := .none })) ∧
    (frameLength s.cfg raw → exec (.decFrame raw) s = .next (s.respond
      { status := .ok, rdata := seqField s.cfg raw, dout := raw.drop s.cfg.seqBytes, wire := [], timer := .none }))

/-- R145: `DEC_ACK` on every datagram. -/
def Obligations.DecAckClassifiesTheDatagram : Prop :=
  ∀ (s : State) (raw : Bytes),
    (raw = s.cfg.termMarker → exec (.decAck raw) s = .next (s.respond
      { status := .termSeen, rdata := 0, dout := [], wire := [], timer := .none })) ∧
    (raw ≠ s.cfg.termMarker → raw.length ≠ s.cfg.hdrBytes → exec (.decAck raw) s = .next (s.respond
      { status := .invalidAck, rdata := raw.length, dout := [], wire := [], timer := .none })) ∧
    (raw ≠ s.cfg.termMarker → raw.length = s.cfg.hdrBytes → exec (.decAck raw) s = .next (s.respond
      { status := .ok, rdata := seqField s.cfg raw, dout := raw.drop s.cfg.seqBytes, wire := [], timer := .none }))

/-- R146: `VERIFY` on every datagram. That `RDATA` is the length of a malformed one is the model's reading of R251 (log
entry 13). -/
def Obligations.VerifyComparesTheChecksum : Prop :=
  ∀ (s : State) (raw : Bytes),
    (raw.length < s.cfg.hdrBytes → exec (.verify raw) s = .next (s.respond
      { status := .malformedFrame, rdata := raw.length, dout := [], wire := [], timer := .none })) ∧
    (s.cfg.maxRaw < raw.length → exec (.verify raw) s = .next (s.respond
      { status := .oversizeFrame, rdata := raw.length, dout := [], wire := [], timer := .none })) ∧
    (frameLength s.cfg raw → checksumGood s.cfg raw → exec (.verify raw) s = .next (s.respond
      { status := .ok, rdata := seqField s.cfg raw, dout := [], wire := [], timer := .none })) ∧
    (frameLength s.cfg raw → ¬ checksumGood s.cfg raw → exec (.verify raw) s = .next (s.respond
      { status := .checksumMismatch, rdata := seqField s.cfg raw, dout := [], wire := [], timer := .none }))

/-- R150: a codec operation completes in any state, with a response that is the same in every state, leaves the timer
alone, and changes nothing else. -/
def Obligations.CodecOperationsTouchNoState : Prop :=
  ∀ (i : Instr) (c : Config), i.isCodec = true →
    ∃ r : Response, r.timer = .none ∧ ∀ s : State, s.cfg = c → exec i s = .next (s.respond r)

/-! ## The RX unit -/

/-- R161, R162, R164, R165, R171, R173, R174: every failing check of `RX_FRAME`, in the order of the checks, resends the
last acknowledgment and changes nothing else, except the `overflow` flag when RBUF is full. -/
def Obligations.RxFrameRejectsInOrder : Prop :=
  ∀ (s : State) (raw : Bytes),
    (s.rx.rxState = .complete → exec (.rxFrame raw) s = .next (s.respond
      { status := .alreadyComplete, rdata := s.rx.expectedSeq, dout := [], wire := lastAckAgain s, timer := .none })) ∧
    (s.rx.rxState ≠ .complete → raw.length < s.cfg.hdrBytes → exec (.rxFrame raw) s = .next (s.respond
      { status := .malformedFrame, rdata := raw.length, dout := [], wire := lastAckAgain s, timer := .none })) ∧
    (s.rx.rxState ≠ .complete → s.cfg.maxRaw < raw.length → exec (.rxFrame raw) s = .next (s.respond
      { status := .oversizeFrame, rdata := raw.length, dout := [], wire := lastAckAgain s, timer := .none })) ∧
    (s.rx.rxState ≠ .complete → frameLength s.cfg raw → seqField s.cfg raw ≠ s.rx.expectedSeq →
      exec (.rxFrame raw) s = .next (s.respond
        { status := .sequenceMismatch, rdata := seqField s.cfg raw, dout := [], wire := lastAckAgain s,
          timer := .none })) ∧
    (s.rx.rxState ≠ .complete → frameLength s.cfg raw → seqField s.cfg raw = s.rx.expectedSeq →
      ¬ checksumGood s.cfg raw → exec (.rxFrame raw) s = .next (s.respond
        { status := .checksumMismatch, rdata := seqField s.cfg raw, dout := [], wire := lastAckAgain s,
          timer := .none })) ∧
    (s.rx.rxState = .awaitInit → frameLength s.cfg raw → seqField s.cfg raw = s.rx.expectedSeq →
      checksumGood s.cfg raw →
      (raw.length ≠ s.cfg.hdrBytes + s.cfg.seqBytes ∨ ube (raw.drop s.cfg.hdrBytes) = 0) →
      exec (.rxFrame raw) s = .next (s.respond
        { status := .badMetadata, rdata := seqField s.cfg raw, dout := [], wire := lastAckAgain s,
          timer := .none })) ∧
    (∀ cap, s.cfg.rxCap = some cap → s.rx.rxState = .receiving → frameLength s.cfg raw →
      seqField s.cfg raw = s.rx.expectedSeq → checksumGood s.cfg raw →
      cap < s.rx.rxLen + (raw.length - s.cfg.hdrBytes) →
      exec (.rxFrame raw) s = .next ((s.withRx { s.rx with overflow := true }).respond
        { status := .overflow, rdata := seqField s.cfg raw, dout := [], wire := lastAckAgain s, timer := .none }))

/-- R166, R168, R170: an acceptable metadata frame sets the total, is acknowledged with its own first `HDR_BYTES` bytes,
advances the cursor, and completes the session when the total is reached; nothing else changes. -/
def Obligations.RxFrameAcceptsTheMetadataFrame : Prop :=
  ∀ (s : State) (raw : Bytes), s.rx.rxState = .awaitInit → frameLength s.cfg raw →
    raw.length = s.cfg.hdrBytes + s.cfg.seqBytes → seqField s.cfg raw = s.rx.expectedSeq →
    checksumGood s.cfg raw → ube (raw.drop s.cfg.hdrBytes) ≠ 0 →
    let total := ube (raw.drop s.cfg.hdrBytes)
    let u : RxUnit :=
      { s.rx with
        rxTotal := total
        lastAckValid := true
        lastAckSeq := s.rx.expectedSeq
        lastAckCk := (raw.drop s.cfg.seqBytes).take s.cfg.ckBytes
        expectedSeq := s.rx.expectedSeq + 1 }
    (s.rx.expectedSeq + 1 ≠ total → exec (.rxFrame raw) s =
      .next ((s.withRx { u with rxState := .receiving }).respond
        { status := .ok, rdata := seqField s.cfg raw, dout := [], wire := [raw.take s.cfg.hdrBytes],
          timer := .none })) ∧
    (s.rx.expectedSeq + 1 = total → exec (.rxFrame raw) s =
      .next ((s.withRx { u with rxState := .complete }).respond
        { status := .done, rdata := seqField s.cfg raw, dout := [],
          wire := [raw.take s.cfg.hdrBytes, s.cfg.termMarker], timer := .none }))

/-- R167, R168, R170: in a session that has not overflowed, an acceptable data frame that fits is appended to RBUF at
`rx_len`, acknowledged, and completes the session when the total is reached; every other byte of RBUF reads as before,
and nothing else changes. A session that has overflowed does the same (log entry 18): the last part of
`RxDiscardsEverythingAheadOfTheGap`. -/
def Obligations.RxFrameAppendsTheDataFrame : Prop :=
  ∀ (s : State) (raw : Bytes), s.rx.rxState = .receiving → s.rx.overflow = false → frameLength s.cfg raw →
    seqField s.cfg raw = s.rx.expectedSeq → checksumGood s.cfg raw →
    (∀ cap, s.cfg.rxCap = some cap → s.rx.rxLen + (raw.length - s.cfg.hdrBytes) ≤ cap) →
    ∃ m : Memory,
      (∀ k, k < raw.length - s.cfg.hdrBytes → m.read? (s.rx.rxLen + k) = (raw.drop s.cfg.hdrBytes)[k]?) ∧
      (∀ a, (a < s.rx.rxLen ∨ s.rx.rxLen + (raw.length - s.cfg.hdrBytes) ≤ a) →
        m.read? a = s.rx.rbuf.read? a) ∧
      let u : RxUnit :=
        { s.rx with
          rbuf := m
          rxLen := s.rx.rxLen + (raw.length - s.cfg.hdrBytes)
          lastAckValid := true
          lastAckSeq := s.rx.expectedSeq
          lastAckCk := (raw.drop s.cfg.seqBytes).take s.cfg.ckBytes
          expectedSeq := s.rx.expectedSeq + 1 }
      (s.rx.expectedSeq + 1 ≠ s.rx.rxTotal → exec (.rxFrame raw) s =
        .next ((s.withRx u).respond
          { status := .ok, rdata := seqField s.cfg raw, dout := [], wire := [raw.take s.cfg.hdrBytes],
            timer := .none })) ∧
      (s.rx.expectedSeq + 1 = s.rx.rxTotal → exec (.rxFrame raw) s =
        .next ((s.withRx { u with rxState := .complete }).respond
          { status := .done, rdata := seqField s.cfg raw, dout := [],
            wire := [raw.take s.cfg.hdrBytes, s.cfg.termMarker], timer := .none }))

/-- What the spec infers from R164, R168 and R171 ("Idempotent acknowledgment on duplicate delivery"): a frame delivered
a second time right after it was accepted changes no register and no byte, and is answered with the same acknowledgment.
-/
def Obligations.RxDuplicateDeliveryIsIdempotent : Prop :=
  ∀ (s t : State) (raw : Bytes) (r : Response), exec (.rxFrame raw) s = .next t → t.response = some r → accepted r →
    r.wire.head? = some (raw.take s.cfg.hdrBytes) ∧
    ∃ u q, exec (.rxFrame raw) t = .next u ∧ sameUnits t u ∧ u.response = some q ∧
      q.wire = [raw.take s.cfg.hdrBytes] ∧ ¬ accepted q

/-- What the spec infers from R164 ("Go-Back-N at the receiver"): while frame `expected_seq` is missing, every frame
that arrives ahead of it is discarded and answered with the acknowledgment of the frame before the gap. And what R28
infers from R169 and its sender, which retransmits the refused frame for ever: once a frame is refused for want of room,
the session does not get past it, so it cannot complete, whatever arrives, as long as no other good frame of its
sequence number does; each datagram is answered with the last acknowledgment. And R258, that the `overflow` flag only
reports: `RX_FRAME` answers the same and leaves the same in every other register and in RBUF whatever the flag holds
(log entry 18, DEDUCED: so a shorter frame that fits is accepted). -/
def Obligations.RxDiscardsEverythingAheadOfTheGap : Prop :=
  (∀ (s : State) (raws : List Bytes), Invariant s → s.rx.rxState = .receiving →
    (∀ raw ∈ raws, frameLength s.cfg raw ∧ s.rx.expectedSeq < seqField s.cfg raw) →
    ∃ rs t, performAll (raws.map .rxFrame) s = some (rs, t) ∧ sameUnits s t ∧
      rs = raws.map (fun raw =>
        { status := .sequenceMismatch, rdata := seqField s.cfg raw, dout := [],
          wire := [be s.cfg.seqBytes (s.rx.expectedSeq - 1) ++ s.rx.lastAckCk], timer := .none })) ∧
  (∀ (s t : State) (f : Bytes) (r : Response) (raws : List Bytes), exec (.rxFrame f) s = .next t →
    t.response = some r → r.status = .overflow →
    (∀ raw ∈ raws, frameLength s.cfg raw → seqField s.cfg raw = seqField s.cfg f → checksumGood s.cfg raw → raw = f) →
    t.rx.rxState = .receiving ∧ t.rx.overflow = true ∧
      ∃ rs u, performAll (raws.map .rxFrame) t = some (rs, u) ∧ sameUnits t u ∧ rs.length = raws.length ∧
        ∀ r' ∈ rs, ¬ accepted r' ∧ r'.wire = lastAckAgain s) ∧
  (∀ (s : State) (raw : Bytes) (flag : Bool), ∃ t u, exec (.rxFrame raw) s = .next t ∧
    exec (.rxFrame raw) (s.withRx { s.rx with overflow := flag }) = .next u ∧ u.response = t.response ∧
    u.tx = t.tx ∧ { u.rx with overflow := t.rx.overflow } = t.rx)

/-- R172: `RX_READ`, its three outcomes. -/
def Obligations.RxReadReturnsTheAssembledBytes : Prop :=
  ∀ (s : State) (offset : Word) (n : BitVec 24),
    (s.rx.rxState ≠ .complete → exec (.rxRead offset n) s = .next (s.respond
      { status := .notComplete, rdata := s.rx.rxLen, dout := [], wire := [], timer := .none })) ∧
    (s.rx.rxState = .complete → s.rx.rxLen < offset.toNat + n.toNat → exec (.rxRead offset n) s = .next (s.respond
      { status := .badParam, rdata := s.rx.rxLen, dout := [], wire := [], timer := .none })) ∧
    (Invariant s → s.rx.rxState = .complete → offset.toNat + n.toNat ≤ s.rx.rxLen →
      ∃ bs : Bytes, bs.length = n.toNat ∧ (∀ k, k < n.toNat → bs[k]? = s.rx.rbuf.read? (offset.toNat + k)) ∧
        exec (.rxRead offset n) s = .next (s.respond
          { status := .ok, rdata := s.rx.rxLen, dout := bs, wire := [], timer := .none }))

/-- R175: `RX_RESET` in every state. -/
def Obligations.RxResetStartsANewSession : Prop :=
  ∀ s : State, ∃ u : RxUnit, u.atReset s.cfg ∧ exec .rxReset s = .next ((s.withRx u).respond
    { status := .ok, rdata := 0, dout := [], wire := [], timer := .none })

/-- What the spec infers from R163 to R170 ("In-order delivery"): whatever datagrams are presented to a reset receiver,
every one is answered, the accepted ones carry the sequence numbers 0, 1, 2, ... in order, and RBUF is the concatenation
of the payloads of those after the first. -/
def Obligations.ReceiverDeliversInOrder : Prop :=
  ∀ (s : State) (raws : List Bytes), s.cfg.wf → s.rx = RxUnit.reset s.cfg →
    ∃ rs t, performAll (raws.map .rxFrame) s = some (rs, t) ∧
      acceptedSeqs s.cfg raws rs = List.range t.rx.expectedSeq ∧
      t.rx.rbuf.readBytes 0 t.rx.rxLen = .ok (acceptedPayloads s.cfg raws rs)

/-- What the spec infers from R139, R148 and R163 ("the document's round-trip property"), with the operations of R115:
the frames of `encode(b, ps)` presented in order to the receiver give back exactly `b`, from any state. `b` is short
enough for one `RX_READ` (R172; a longer one is log entry 20). A frame
too long for the encoding of `RX_FRAME`, which a `ps` near `2^24` can give, is performed all the same: the model's
choice of log entry 20. -/
def Obligations.EncodedBufferIsReassembledExactly : Prop :=
  ∀ (s : State) (b : Bytes) (ps : Nat), s.cfg.wf → 1 ≤ ps → ps ≤ s.cfg.maxPayload →
    totalFrames b.length ps ≤ s.cfg.maxFrames → (∀ cap, s.cfg.rxCap = some cap → b.length ≤ cap) →
    b.length < 2 ^ 24 →
    ∃ t, decodeStreamOps (encodeBuffer s.cfg b ps) s = some (b, t) ∧ t.rx.rxState = .complete ∧ t.tx = s.tx

/-! ## The TX unit -/

/-- R205: `TX_LOAD`, its outcomes in order; `n` is the number of data frames, `ceil_div(LEN, W)`. A `W` past the 24 bits
of range that R35 gives `packet_size` loads as `LoadedFramesAreTheEncoding` says. -/
def Obligations.TxLoadStartsTheSession : Prop :=
  ∀ (s : State) (b : Bytes) (ps : Word),
    (s.tx.txState = .active → exec (.txLoad b ps) s = .next (s.respond
      { status := .badState, rdata := 0, dout := [], wire := [], timer := .none })) ∧
    (s.tx.txState ≠ .active → (ps.toNat = 0 ∨ s.cfg.maxPayload < ps.toNat ∨ s.cfg.txCap < b.length) →
      exec (.txLoad b ps) s = .next (s.respond
        { status := .badParam, rdata := 0, dout := [], wire := [], timer := .none })) ∧
    ∀ n, s.tx.txState ≠ .active → 1 ≤ ps.toNat → ps.toNat ≤ s.cfg.maxPayload → b.length ≤ s.cfg.txCap →
      leastPieces b.length ps.toNat n →
      (s.cfg.maxFrames < 1 + n → exec (.txLoad b ps) s = .next (s.respond
        { status := .badParam, rdata := 0, dout := [], wire := [], timer := .none })) ∧
      (1 + n ≤ s.cfg.maxFrames → ps.toNat < 2 ^ 24 →
        ∃ m : Memory, (∀ k, k < b.length → m.read? k = b[k]?) ∧
          exec (.txLoad b ps) s = .next ((s.withTx
              { txState := .active, txTotal := 1 + n, windowBase := 0, nextSeq := 0, sendPtr := 0, txLen := b.length,
                packetSize := ps.toNat, timerArmed := false, termSeen := false, tbuf := m }).respond
            { status := .ok, rdata := 1 + n, dout := [], wire := [], timer := .none }))

/-- What the spec infers from R139: the frames of a session just loaded are `encode(b, ps)`. And the model's choice
where `W` passes the 24 bits of range of `packet_size` (R35, log entry 24): the session starts all the same, with some
packet size of 24 bits that holds the whole buffer in one chunk, as `W` does. -/
def Obligations.LoadedFramesAreTheEncoding : Prop :=
  (∀ (s t : State) (b : Bytes) (ps : Word), exec (.txLoad b ps) s = .next t →
    t.response = some { status := .ok, rdata := t.tx.txTotal, dout := [], wire := [], timer := .none } →
    (encodeBuffer s.cfg b ps.toNat).length = t.tx.txTotal ∧
    ∀ k, k < t.tx.txTotal → ∃ d, frameOf t k = .ok d ∧ (encodeBuffer s.cfg b ps.toNat)[k]? = some d) ∧
  (∀ (s : State) (b : Bytes) (ps : Word) (n : Nat), s.tx.txState ≠ .active → 2 ^ 24 ≤ ps.toNat →
    ps.toNat ≤ s.cfg.maxPayload → b.length ≤ s.cfg.txCap → b.length < 2 ^ 24 → leastPieces b.length ps.toNat n →
    1 + n ≤ s.cfg.maxFrames →
    ∃ (p : Nat) (m : Memory), 1 ≤ p ∧ b.length ≤ p ∧ p < 2 ^ 24 ∧ (∀ k, k < b.length → m.read? k = b[k]?) ∧
      exec (.txLoad b ps) s = .next ((s.withTx
          { txState := .active, txTotal := 1 + n, windowBase := 0, nextSeq := 0, sendPtr := 0, txLen := b.length,
            packetSize := p, timerArmed := false, termSeen := false, tbuf := m }).respond
        { status := .ok, rdata := 1 + n, dout := [], wire := [], timer := .none }))

/-- What the spec infers from R139 of `payload_of` and `frame_of`: in a session every frame exists; frame 0 carries the
total, frame `k` the `k`-th chunk of TBUF. -/
def Obligations.FrameOfReadsItsChunk : Prop :=
  ∀ (s : State) (k : Nat), Invariant s → s.tx.txState ≠ .idle → k < s.tx.txTotal →
    ∃ p : Bytes, frameOf s k = .ok (be s.cfg.seqBytes k ++ ck s.cfg p ++ p) ∧ expectedCk s k = .ok (ck s.cfg p) ∧
      (k = 0 → p = be s.cfg.seqBytes s.tx.txTotal) ∧
      (1 ≤ k → 1 ≤ p.length ∧ p.length = min s.tx.packetSize (s.tx.txLen - (k - 1) * s.tx.packetSize) ∧
        ∀ j, j < p.length → p[j]? = s.tx.tbuf.read? ((k - 1) * s.tx.packetSize + j))

/-- R210: `TX_NEXT`, its five outcomes. -/
def Obligations.TxNextSendsOneFrame : Prop :=
  ∀ s : State, Invariant s →
    let limit := min (s.tx.windowBase + s.cfg.windowSize) s.tx.txTotal
    (s.tx.txState ≠ .active → exec .txNext s = .next (s.respond
      { status := .badState, rdata := 0, dout := [], wire := [], timer := .none })) ∧
    (s.tx.txState = .active → s.tx.sendPtr < s.tx.nextSeq →
      ∃ d, frameOf s s.tx.sendPtr = .ok d ∧
        exec .txNext s = .next ((s.withTx { s.tx with sendPtr := s.tx.sendPtr + 1 }).respond
          { status := .retransmit, rdata := s.tx.sendPtr, dout := [], wire := [d], timer := .none })) ∧
    (s.tx.txState = .active → s.tx.sendPtr = s.tx.nextSeq → s.tx.nextSeq < limit →
      ∃ d, frameOf s s.tx.nextSeq = .ok d ∧
        exec .txNext s = .next ((s.withTx
            { s.tx with nextSeq := s.tx.nextSeq + 1, sendPtr := s.tx.nextSeq + 1, timerArmed := true }).respond
          { status := .ok, rdata := s.tx.nextSeq, dout := [], wire := [d],
            timer := if s.tx.timerArmed then .none else .start })) ∧
    (s.tx.txState = .active → s.tx.sendPtr = s.tx.nextSeq → limit ≤ s.tx.nextSeq → s.tx.nextSeq < s.tx.txTotal →
      exec .txNext s = .next (s.respond
        { status := .windowFull, rdata := s.tx.windowBase, dout := [], wire := [], timer := .none })) ∧
    (s.tx.txState = .active → s.tx.sendPtr = s.tx.nextSeq → s.tx.nextSeq = s.tx.txTotal →
      exec .txNext s = .next (s.respond
        { status := .allSent, rdata := s.tx.windowBase, dout := [], wire := [], timer := .none }))

/-- What the spec infers from R140 and R205: inside a session no operation changes any frame: a retransmission is byte
for byte the first transmission. -/
def Obligations.RetransmissionIsTheSameFrame : Prop :=
  ∀ (i : Instr) (s t : State), i.changesSession = false → exec i s = .next t → ∀ k, frameOf t k = frameOf s k

/-- R41, R115, R200, R210: `SEND_ALL` puts the frames from the send cursor to the send limit on the wire, each once, in
order. R115 gives it no bound; `sendAll` has the bound of log entry 20 (DEDUCED), which this statement shows to suffice.
-/
def Obligations.SendAllEmitsTheWindowInOrder : Prop :=
  ∀ s : State, Invariant s → s.tx.txState = .active →
    let limit := min (s.tx.windowBase + s.cfg.windowSize) s.tx.txTotal
    ∃ ws t, sendAll s = some (ws, t) ∧ ws.length = limit - s.tx.sendPtr ∧
      (∀ j, j < ws.length → ∃ d, ws[j]? = some d ∧ frameOf s (s.tx.sendPtr + j) = .ok d) ∧
      t.tx.sendPtr = limit ∧ t.tx.nextSeq = limit ∧ t.tx.windowBase = s.tx.windowBase ∧ t.rx = s.rx

/-- R212, R215: a valid acknowledgment of an in-flight frame moves the window past it, drags the send cursor up, and
restarts or stops the timer; nothing else changes. -/
def Obligations.TxAckAdvancesTheWindow : Prop :=
  ∀ (s : State) (raw : Bytes) (a : Nat), Invariant s → s.tx.txState ≠ .idle → validAck s raw a →
    let u : TxUnit := { s.tx with windowBase := a + 1, sendPtr := max s.tx.sendPtr (a + 1) }
    (a + 1 = s.tx.txTotal → exec (.txAck raw) s =
      .next ((s.withTx { u with txState := .done, timerArmed := false }).respond
        { status := .done, rdata := a, dout := [], wire := [], timer := .stop })) ∧
    (a + 1 < s.tx.nextSeq → exec (.txAck raw) s =
      .next ((s.withTx u).respond { status := .ok, rdata := a, dout := [], wire := [], timer := .restart })) ∧
    (a + 1 ≠ s.tx.txTotal → a + 1 = s.tx.nextSeq → exec (.txAck raw) s =
      .next ((s.withTx { u with timerArmed := false }).respond
        { status := .ok, rdata := a, dout := [], wire := [], timer := .stop }))

/-- R213, R214, R216: what `TX_ACK` ignores, in the order of its tests, and the termination marker. -/
def Obligations.TxAckIgnoresWhatIsNotValid : Prop :=
  ∀ (s : State) (raw : Bytes),
    (s.tx.txState = .idle → exec (.txAck raw) s = .next (s.respond
      { status := .badState, rdata := 0, dout := [], wire := [], timer := .none })) ∧
    (s.tx.txState ≠ .idle → raw = s.cfg.termMarker → exec (.txAck raw) s =
      .next ((s.withTx { s.tx with termSeen := true }).respond
        { status := .termSeen, rdata := 0, dout := [], wire := [], timer := .none })) ∧
    (s.tx.txState ≠ .idle → raw ≠ s.cfg.termMarker → raw.length ≠ s.cfg.hdrBytes → exec (.txAck raw) s =
      .next (s.respond { status := .invalidAck, rdata := raw.length, dout := [], wire := [], timer := .none })) ∧
    (s.tx.txState ≠ .idle → raw ≠ s.cfg.termMarker → raw.length = s.cfg.hdrBytes →
      seqField s.cfg raw < s.tx.windowBase → exec (.txAck raw) s = .next (s.respond
        { status := .staleAck, rdata := seqField s.cfg raw, dout := [], wire := [], timer := .none })) ∧
    (s.tx.txState ≠ .idle → raw ≠ s.cfg.termMarker → raw.length = s.cfg.hdrBytes →
      s.tx.windowBase ≤ seqField s.cfg raw → s.tx.nextSeq ≤ seqField s.cfg raw → exec (.txAck raw) s =
        .next (s.respond
          { status := .invalidAck, rdata := seqField s.cfg raw, dout := [], wire := [], timer := .none })) ∧
    (∀ e, s.tx.txState ≠ .idle → raw ≠ s.cfg.termMarker → raw.length = s.cfg.hdrBytes →
      s.tx.windowBase ≤ seqField s.cfg raw → seqField s.cfg raw < s.tx.nextSeq →
      expectedCk s (seqField s.cfg raw) = .ok e → raw.drop s.cfg.seqBytes ≠ e → exec (.txAck raw) s =
        .next (s.respond
          { status := .invalidAck, rdata := seqField s.cfg raw, dout := [], wire := [], timer := .none }))

/-- What the spec infers from R212 ("No acknowledgment is ever accepted on any ground other than lines 6 to 8"): inside
a session the window base moves only by `TX_ACK` of an in-flight frame with the checksum the sender expects, and then to
just past that frame. -/
def Obligations.OnlyAValidAckMovesTheWindow : Prop :=
  ∀ (i : Instr) (s t : State), i.changesSession = false → exec i s = .next t →
    t.tx.windowBase ≠ s.tx.windowBase →
    ∃ raw a, i = .txAck raw ∧ s.tx.txState ≠ .idle ∧ validAck s raw a ∧ t.tx.windowBase = a + 1

/-- R220, R221: `TX_TIMEOUT`, both outcomes. -/
def Obligations.TxTimeoutRewindsTheCursor : Prop :=
  ∀ s : State,
    (s.tx.txState = .active → s.tx.windowBase ≠ s.tx.nextSeq → exec .txTimeout s =
      .next ((s.withTx { s.tx with sendPtr := s.tx.windowBase }).respond
        { status := .timeout, rdata := s.tx.windowBase, dout := [], wire := [], timer := .restart })) ∧
    ((s.tx.txState ≠ .active ∨ s.tx.windowBase = s.tx.nextSeq) → exec .txTimeout s =
      .next (s.respond { status := .spuriousTimeout, rdata := 0, dout := [], wire := [], timer := .none }))

/-- What the spec infers from R212 and R220 ("Both orders end in the same registers"): a valid acknowledgment of `a` and
a timer expiry end in the same registers in either order, with the cursor past `a`. -/
def Obligations.AckAndTimeoutRaceEndsTheSame : Prop :=
  ∀ (s : State) (raw : Bytes) (a : Nat), Invariant s → s.tx.txState = .active → s.tx.sendPtr = s.tx.nextSeq →
    validAck s raw a →
    ∃ rs t rs' t', performAll [.txAck raw, .txTimeout] s = some (rs, t) ∧
      performAll [.txTimeout, .txAck raw] s = some (rs', t') ∧ sameUnits t t' ∧ t.rx = s.rx ∧
      t.tx.windowBase = a + 1 ∧ t.tx.sendPtr = a + 1 ∧ t.tx.nextSeq = s.tx.nextSeq ∧
      (t.tx.timerArmed = true ↔ a + 1 < s.tx.nextSeq)

/-- R225: `TX_ABORT` in every state. -/
def Obligations.TxAbortEndsTheSession : Prop :=
  ∀ s : State, ∃ u : TxUnit, u.atReset ∧ exec .txAbort s = .next ((s.withTx u).respond
    { status := .ok, rdata := 0, dout := [], wire := [], timer := if s.tx.timerArmed then .stop else .none })

/-- R115, R139, R215: loading a buffer and acknowledging each frame as it is sent emits exactly `encode(b, ps)` and ends
in `DONE`. The bound of `encodeOps` on the repetitions and its matching acknowledgment are those of log entry 20
(DEDUCED). -/
def Obligations.SenderEmitsTheEncodingAndFinishes : Prop :=
  ∀ (s : State) (b : Bytes) (ps : Word), s.cfg.wf → s.tx.txState ≠ .active → 1 ≤ ps.toNat →
    ps.toNat ≤ s.cfg.maxPayload → b.length ≤ s.cfg.txCap → totalFrames b.length ps.toNat ≤ s.cfg.maxFrames →
    ∃ t, encodeOps b ps s = some (encodeBuffer s.cfg b ps.toNat, t) ∧ t.tx.txState = .done ∧
      t.tx.windowBase = totalFrames b.length ps.toNat ∧ t.rx = s.rx

/-- R32, R33, and what the spec infers from them ("No frame ever goes backwards"): inside a session the window base and
the next sequence number never decrease, so no frame's state goes backwards. -/
def Obligations.SessionNeverGoesBackwards : Prop :=
  ∀ (i : Instr) (s t : State), i.changesSession = false → exec i s = .next t →
    s.tx.windowBase ≤ t.tx.windowBase ∧ s.tx.nextSeq ≤ t.tx.nextSeq ∧
    ∀ k, (frameState s.tx k = .done → frameState t.tx k = .done) ∧
      (frameState s.tx k = .awaitingAck → frameState t.tx k ≠ .idle)

/-! ## System operations -/

/-- R43, R230: `RD_REG` of each of the twenty-one numbers, where the content fits the bits the map gives it, and of any
other number. -/
def Obligations.RdRegReadsTheMap : Prop :=
  (∀ s : State, Invariant s → s.rx.rxLen < 2 ^ 32 → s.cfg.ckBytes < 2 ^ 8 → s.cfg.maxPayload < 2 ^ 32 →
    s.cfg.windowSize < 2 ^ 32 →
    ∀ p ∈ ([
      (0x00, match s.rx.rxState with | .awaitInit => 0 | .receiving => 1 | .complete => 2),
      (0x01, s.rx.expectedSeq), (0x02, s.rx.rxTotal), (0x03, s.rx.rxLen),
      (0x04, (if s.rx.lastAckValid then 1 else 0) + (if s.rx.overflow then 2 else 0)),
      (0x05, s.rx.lastAckSeq), (0x06, ube s.rx.lastAckCk),
      (0x10, match s.tx.txState with | .idle => 0 | .active => 1 | .done => 2),
      (0x11, s.tx.txTotal), (0x12, s.tx.windowBase), (0x13, s.tx.nextSeq), (0x14, s.tx.sendPtr),
      (0x15, s.tx.txLen), (0x16, s.tx.packetSize),
      (0x17, (if s.tx.timerArmed then 1 else 0) + (if s.tx.termSeen then 2 else 0)),
      (0x20, s.cfg.seqBytes), (0x21, s.cfg.ckBytes), (0x22, s.cfg.maxPayload), (0x23, s.cfg.windowSize),
      (0x24, s.cfg.txCap),
      (0x25, match s.cfg.rxCap with | none => 0xFFFFFFFF | some n => if n < 2 ^ 32 then n else 0xFFFFFFFF)]
      : List (Nat × Nat)),
      exec (.rdReg (BitVec.ofNat 24 p.1)) s = .next (s.respond
        { status := .ok, rdata := p.2, dout := [], wire := [], timer := .none })) ∧
  (∀ (s : State) (n : BitVec 24),
    n.toNat ∉ [0x00, 0x01, 0x02, 0x03, 0x04, 0x05, 0x06, 0x10, 0x11, 0x12, 0x13, 0x14, 0x15, 0x16, 0x17, 0x20, 0x21,
      0x22, 0x23, 0x24, 0x25] →
    exec (.rdReg n) s = .next (s.respond
      { status := .badParam, rdata := n.toNat, dout := [], wire := [], timer := .none }))

/-- R43, U9: whatever a register holds, `RD_REG` of its number answers, and the bits above those the map gives it read
as 0. What the used bits show of a content that does not fit them is free (the model's choice of log entry 12). -/
def Obligations.RdRegAlwaysAnswersWithinItsWidth : Prop :=
  ∀ (s : State) (g : Register), ∃ v, v < 2 ^ g.width s.cfg ∧
    exec (.rdReg (BitVec.ofNat 24 g.number)) s = .next (s.respond
      { status := .ok, rdata := v, dout := [], wire := [], timer := .none })

/-- R44, R232: `RESET` puts every register at its reset value, stops the timer if it was armed, and is `RX_RESET`
followed by `TX_ABORT`. -/
def Obligations.ResetIsRxResetThenTxAbort : Prop :=
  ∀ s : State, ∃ t u, exec .rxReset s = .next t ∧ exec .txAbort t = .next u ∧ exec .reset s = .next u ∧
    u.rx.atReset s.cfg ∧ u.tx.atReset ∧ sameConnections s u ∧
    u.response = some
      { status := .ok, rdata := 0, dout := [], wire := [], timer := if s.tx.timerArmed then .stop else .none }

/-! ## The whole machine -/

/-- R74: RX operations depend on and write only the RX unit, TX operations only the TX unit, codec operations neither.
-/
def Obligations.UnitsShareNoState : Prop :=
  ∀ (i : Instr) (s s' t : State), s'.cfg = s.cfg → exec i s = .next t →
    (i.isRx = true → s'.rx = s.rx →
      t.tx = s.tx ∧ ∃ t', exec i s' = .next t' ∧ t'.rx = t.rx ∧ t'.tx = s'.tx ∧ t'.response = t.response) ∧
    (i.isTx = true → s'.tx = s.tx →
      t.rx = s.rx ∧ ∃ t', exec i s' = .next t' ∧ t'.tx = t.tx ∧ t'.rx = s'.rx ∧ t'.response = t.response) ∧
    (i.isCodec = true →
      sameUnits s t ∧ ∃ t', exec i s' = .next t' ∧ sameUnits s' t' ∧ t'.response = t.response)

/-- What the spec infers from R60, R61 and R20: any RX operation commutes with any TX operation and with any codec
operation: same final units, same responses. -/
def Obligations.OperationsOfDifferentUnitsCommute : Prop :=
  ∀ (i j : Instr) (s s1 s2 : State), i.isRx = true → (j.isTx = true ∨ j.isCodec = true) →
    exec i s = .next s1 → exec j s1 = .next s2 →
    ∃ s1' s2', exec j s = .next s1' ∧ exec i s1' = .next s2' ∧ sameUnits s2 s2' ∧
      s1'.response = s2.response ∧ s2'.response = s1.response

/-- R104: every operation that completes gives exactly one response, and touches neither the parameters, the port nor
the reset input. -/
def Obligations.EveryOperationGivesOneResponse : Prop :=
  ∀ (i : Instr) (s t : State), exec i s = .next t → sameConnections s t ∧ ∃ r, t.response = some r

/-- R65: the response is transient: no operation behaves differently because of an earlier one. The one register in
which a condition leaves its mark is the `overflow` flag (R28; log entry 18), which this statement does not speak of. -/
def Obligations.EarlierResponsesHaveNoEffect : Prop :=
  ∀ (i : Instr) (s : State) (r : Option Response), exec i { s with response := r } = exec i s

/-- R251, column "writes state", R263: an operation that ends with one of the fifteen codes that write nothing has
changed no register and no memory; with `TIMEOUT` it has changed the send cursor, with `TERM_SEEN` the marker flag, with
`OVERFLOW` the overflow flag, and nothing else. -/
def Obligations.FailingOperationsWriteNothing : Prop :=
  ∀ (i : Instr) (s t : State) (r : Response), exec i s = .next t → t.response = some r →
    (r.status.writesNothing = true → sameUnits s t) ∧
    (r.status = .timeout → t.rx = s.rx ∧ t.tx = { s.tx with sendPtr := t.tx.sendPtr }) ∧
    (r.status = .termSeen → t.rx = s.rx ∧ t.tx = { s.tx with termSeen := t.tx.termSeen }) ∧
    (r.status = .overflow → t.tx = s.tx ∧ t.rx = { s.rx with overflow := true })

/-- R251, R257: the two reserved statuses are never returned. -/
def Obligations.ReservedStatusesAreNeverReturned : Prop :=
  ∀ (i : Instr) (s t : State) (r : Response), exec i s = .next t → t.response = some r →
    r.status ≠ .invalidProbability ∧ r.status ≠ .transportFailure

/-- R104, and the model's choice to hold numbers without a width (log entry 6): `RDATA` fits `max(128, CK_W)` bits. -/
def Obligations.RdataFitsItsField : Prop :=
  ∀ (i : Instr) (s t : State) (r : Response), Invariant s → i.wf → exec i s = .next t → t.response = some r →
    r.rdata < 2 ^ max 128 (8 * s.cfg.ckBytes)

/-- R262: `START` comes only when the timer was not armed and leaves it armed, `RESTART` when it was and stays armed,
`STOP` when it was and leaves it unarmed, and `NONE` leaves the bit as it was. -/
def Obligations.TimerFieldTracksTimerArmed : Prop :=
  ∀ (i : Instr) (s t : State) (r : Response), Invariant s → exec i s = .next t → t.response = some r →
    (r.timer = .start → s.tx.timerArmed = false ∧ t.tx.timerArmed = true) ∧
    (r.timer = .restart → s.tx.timerArmed = true ∧ t.tx.timerArmed = true) ∧
    (r.timer = .stop → s.tx.timerArmed = true ∧ t.tx.timerArmed = false) ∧
    (r.timer = .none → t.tx.timerArmed = s.tx.timerArmed)

/-- R176: every transition of `RX.rx_state`. -/
def Obligations.RxStateFollowsItsTable : Prop :=
  ∀ (i : Instr) (s t : State) (r : Response), Invariant s → exec i s = .next t → t.response = some r →
    (∀ raw, i = .rxFrame raw →
      (s.rx.rxState = .awaitInit → accepted r → 1 < t.rx.rxTotal → t.rx.rxState = .receiving) ∧
      (s.rx.rxState = .awaitInit → accepted r → t.rx.rxTotal = 1 → t.rx.rxState = .complete) ∧
      (s.rx.rxState = .awaitInit → accepted r → 1 ≤ t.rx.rxTotal) ∧
      (s.rx.rxState = .awaitInit → ¬ accepted r → t.rx.rxState = .awaitInit) ∧
      (s.rx.rxState = .receiving → accepted r → t.rx.expectedSeq < t.rx.rxTotal → t.rx.rxState = .receiving) ∧
      (s.rx.rxState = .receiving → accepted r → t.rx.expectedSeq = t.rx.rxTotal → t.rx.rxState = .complete) ∧
      (s.rx.rxState = .receiving → accepted r → t.rx.expectedSeq ≤ t.rx.rxTotal) ∧
      (s.rx.rxState = .receiving → ¬ accepted r → t.rx.rxState = .receiving) ∧
      (s.rx.rxState = .complete → t.rx.rxState = .complete)) ∧
    ((i = .rxReset ∨ i = .reset) → t.rx.rxState = .awaitInit) ∧
    ((∀ raw, i ≠ .rxFrame raw) → i ≠ .rxReset → i ≠ .reset → t.rx.rxState = s.rx.rxState)

/-- R226: every transition of `TX.tx_state`. -/
def Obligations.TxStateFollowsItsTable : Prop :=
  ∀ (i : Instr) (s t : State) (r : Response), Invariant s → exec i s = .next t → t.response = some r →
    (∀ b ps, i = .txLoad b ps →
      (s.tx.txState ≠ .active → r.status = .ok → t.tx.txState = .active) ∧
      (s.tx.txState ≠ .active → r.status ≠ .ok → t.tx.txState = s.tx.txState) ∧
      (s.tx.txState = .active → r.status = .badState ∧ t.tx.txState = .active)) ∧
    (∀ raw, i = .txAck raw →
      (s.tx.txState = .active → t.tx.windowBase = t.tx.txTotal → t.tx.txState = .done) ∧
      (s.tx.txState = .active → t.tx.windowBase ≠ t.tx.txTotal → t.tx.txState = .active) ∧
      (s.tx.txState = .done → t.tx.txState = .done) ∧
      (s.tx.txState = .idle → r.status = .badState ∧ t.tx.txState = .idle)) ∧
    (i = .txNext → t.tx.txState = s.tx.txState ∧ (s.tx.txState ≠ .active → r.status = .badState)) ∧
    (i = .txTimeout → t.tx.txState = s.tx.txState ∧ (s.tx.txState ≠ .active → r.status = .spuriousTimeout)) ∧
    ((i = .txAbort ∨ i = .reset) → t.tx.txState = .idle) ∧
    ((i.isRx = true ∨ i.isCodec = true ∨ ∃ n, i = .rdReg n) → t.tx.txState = s.tx.txState)

/-- R20, R60, R61: an operation that is not one of those that store leaves every byte of both memories as it was; a
receiver operation leaves TBUF, a sender operation RBUF. -/
def Obligations.OperationsStoreOnlyWhereTheyMay : Prop :=
  ∀ (i : Instr) (s t : State), exec i s = .next t →
    (i.mayStore = false → sameMemory .tbuf s t ∧ sameMemory .rbuf s t) ∧
    (i.isRx = true → sameMemory .tbuf s t) ∧ (i.isTx = true → sameMemory .rbuf s t)

/-- R62, R63 and the model's choice of log entry 9: after `RX_RESET`, `TX_ABORT`, `RESET` and hardware reset, and above
the buffer `TX_LOAD` has just loaded, a memory byte has no value. -/
def Obligations.DiscardedBytesHaveNoValue : Prop :=
  ∀ s t : State,
    (exec .rxReset s = .next t → ∀ a, t.rx.rbuf.read? a = none) ∧
    (exec .txAbort s = .next t → ∀ a, t.tx.tbuf.read? a = none) ∧
    (exec .reset s = .next t → ∀ a, t.rx.rbuf.read? a = none ∧ t.tx.tbuf.read? a = none) ∧
    (s.resetIn = true → step s = .next t → ∀ a, t.rx.rbuf.read? a = none ∧ t.tx.tbuf.read? a = none) ∧
    (∀ b ps, exec (.txLoad b ps) s = .next t → (∃ r, t.response = some r ∧ r.status = .ok) →
      ∀ a, b.length ≤ a → t.tx.tbuf.read? a = none)

/-! ## Invariants and progress -/

/-- What the spec infers of the registers, "true after reset and preserved by every operation", after reset: the machine
built with any legal parameters satisfies the invariant after reset, and so does the one with the defaults of R6. -/
def Obligations.ResetSatisfiesTheInvariant : Prop :=
  (∀ c : Config, c.wf → Invariant (State.resetWith c)) ∧ Invariant State.reset

/-- What the spec infers of the registers, "true after reset and preserved by every operation", over a step: the
registers' relations, their widths, and what the memories hold. That `packet_size` stays within 24 bits (R35) rests on
the model's choice of log entry 24. -/
def Obligations.StepKeepsTheInvariant : Prop :=
  ∀ s t : State, Invariant s → step s = .next t → Invariant t

/-- 93_implementation_defined.md, part 2: in every state that satisfies the invariant the step goes on: no behaviour is
a fault or a refusal. -/
def Obligations.StepAlwaysGoesOn : Prop :=
  ∀ s : State, Invariant s → Goes s

/-- The model's choice of log entry 8: the canonical form of both memories, from any state that has it, whatever else it
holds. -/
def Obligations.StepKeepsMemoriesCanonical : Prop :=
  ∀ s t : State, s.tx.tbuf.wf → s.rx.rbuf.wf → step s = .next t → t.tx.tbuf.wf ∧ t.rx.rbuf.wf

/-- R260, R22, R30, R36: the three level outputs are what `RD_REG` shows: `rx_complete` when `RX_STATE` reads 2,
`tx_done` when `TX_STATE` reads 2, `tx_timer_armed` when bit 0 of `TX_FLAGS` is 1. -/
def Obligations.LevelOutputsAgreeWithTheRegisters : Prop :=
  ∀ s : State, ∃ v w f,
    exec (.rdReg 0x00) s = .next (s.respond { status := .ok, rdata := v, dout := [], wire := [], timer := .none }) ∧
    exec (.rdReg 0x10) s = .next (s.respond { status := .ok, rdata := w, dout := [], wire := [], timer := .none }) ∧
    exec (.rdReg 0x17) s = .next (s.respond { status := .ok, rdata := f, dout := [], wire := [], timer := .none }) ∧
    (s.rxCompleteOut = true ↔ v = 2) ∧ (s.txDoneOut = true ↔ w = 2) ∧ (s.txTimerArmedOut = true ↔ f % 2 = 1)
end

