-- ==== Sys2Proof/Laws/Bytes.lean ====
section
/-! SUPPORT. Laws of the big-endian notation (00_scope.md R9), of slices, and of the checksum's and datagrams' lengths. -/

namespace Sys2Proof.Machine

@[simp] theorem be_length (n v : Nat) : (be n v).length = n := by
  induction n with
  | zero => rfl
  | succ n ih => simp [be, ih]

theorem ube_foldl (b : Bytes) (v : Nat) :
    b.foldl (fun v x => v * 256 + x.toNat) v = v * 256 ^ b.length + ube b := by
  induction b generalizing v with
  | nil => simp [ube]
  | cons x b ih =>
    simp only [List.foldl_cons, List.length_cons, ube]
    rw [ih, ih (0 * 256 + x.toNat)]
    ring

@[simp] theorem ube_nil : ube [] = 0 := rfl

theorem ube_cons (x : Byte) (b : Bytes) : ube (x :: b) = x.toNat * 256 ^ b.length + ube b := by
  simpa [ube] using ube_foldl b x.toNat

theorem ube_lt (b : Bytes) : ube b < 256 ^ b.length := by
  induction b with
  | nil => simp
  | cons x b ih =>
    rw [ube_cons, List.length_cons, pow_succ]
    have := x.isLt
    nlinarith [show 0 < 256 ^ b.length by positivity]

theorem ube_be_mod (n v : Nat) : ube (be n v) = v % 256 ^ n := by
  induction n with
  | zero => simp [be, Nat.mod_one]
  | succ n ih =>
    have e : v % 256 ^ (n + 1) = v % 256 ^ n + 256 ^ n * (v / 256 ^ n % 256) := Nat.mod_mul
    rw [be, ube_cons, ih, be_length, BitVec.toNat_ofNat, e, Nat.add_comm, Nat.mul_comm]

/-- `ube` undoes `be_n` on every value that fits `n` bytes. -/
theorem ube_be {n v : Nat} (h : v < 256 ^ n) : ube (be n v) = v := by rw [ube_be_mod, Nat.mod_eq_of_lt h]

theorem ube_lt_of_length {b : Bytes} {n : Nat} (h : b.length = n) : ube b < 256 ^ n := h ▸ ube_lt b

theorem be_add_mul (n v k : Nat) : be n (k * 256 ^ n + v) = be n v := by
  induction n generalizing k with
  | zero => rfl
  | succ n ih =>
    have e : k * 256 ^ (n + 1) + v = (k * 256) * 256 ^ n + v := by ring
    rw [be, be, e, ih]
    congr 1
    apply BitVec.eq_of_toNat_eq
    have hp : 0 < 256 ^ n := by positivity
    rw [Nat.mul_comm (k * 256), Nat.mul_add_div hp]
    simp [BitVec.toNat_ofNat, Nat.add_mod]

/-- `be_n` undoes `ube` on every byte string of `n` bytes. -/
theorem be_ube (b : Bytes) : be b.length (ube b) = b := by
  induction b with
  | nil => rfl
  | cons x b ih =>
    have hp : 0 < 256 ^ b.length := by positivity
    rw [ube_cons, List.length_cons, be, be_add_mul, ih, Nat.mul_comm, Nat.mul_add_div hp,
      Nat.div_eq_of_lt (ube_lt b)]
    simp

theorem be_ube_of_length {b : Bytes} {n : Nat} (h : b.length = n) : be n (ube b) = b := h ▸ be_ube b

@[simp] theorem slice_length (b : Bytes) (i j : Nat) : (slice b i j).length = min (j - i) (b.length - i) := by
  simp [slice]

theorem slice_zero_append (p q : Bytes) {n : Nat} (h : p.length = n) : slice (p ++ q) 0 n = p := by
  simp [slice, ← h]

theorem slice_append_right (p q : Bytes) {i j : Nat} (h : p.length = i) : slice (p ++ q) i j = q.take (j - i) := by
  simp [slice, ← h]

theorem slice_to_end (b : Bytes) (i : Nat) : slice b i b.length = b.drop i := by
  rw [slice, List.take_of_length_le]; simp

/-- A datagram of at least `j` bytes is its fields. -/
theorem slice_split (b : Bytes) {i j : Nat} (h : i ≤ j) : slice b 0 i ++ slice b i j ++ b.drop j = b := by
  have e : slice b i j ++ b.drop j = b.drop i := by
    rw [slice, show b.drop j = (b.drop i).drop (j - i) by rw [List.drop_drop]; congr 1; omega, List.take_append_drop]
  rw [List.append_assoc, e]
  simp [slice, List.take_append_drop]

@[simp] theorem ck_length (c : Config) (p : Bytes) : (ck c p).length = c.ckBytes := by
  unfold ck; split <;> simp

@[simp] theorem mkFrame_length (c : Config) (seq : Nat) (p : Bytes) :
    (mkFrame c seq p).length = c.hdrBytes + p.length := by simp [mkFrame, Config.hdrBytes, Nat.add_assoc]

@[simp] theorem mkAck_length (c : Config) (seq : Nat) (k : Bytes) : (mkAck c seq k).length = c.seqBytes + k.length := by
  simp [mkAck]

/-- `2^SEQ_W` is the number of values of `SEQ_BYTES` bytes. -/
theorem two_pow_seqW (c : Config) : 2 ^ c.seqW = 256 ^ c.seqBytes := by
  rw [Config.seqW, pow_mul]; norm_num

/-- What `decode` can answer (R135, R136). -/
theorem parseFrame_cases (c : Config) (raw : Bytes) :
    (parseFrame c raw = .short ∧ raw.length < c.hdrBytes) ∨
    (parseFrame c raw = .oversize ∧ c.maxRaw < raw.length) ∨
    (parseFrame c raw = .frame (ube (slice raw 0 c.seqBytes)) (slice raw c.seqBytes c.hdrBytes) (raw.drop c.hdrBytes) ∧
      c.hdrBytes ≤ raw.length ∧ raw.length ≤ c.maxRaw) := by
  unfold parseFrame
  split
  · exact .inl ⟨rfl, by assumption⟩
  · split
    · exact .inr (.inl ⟨rfl, by assumption⟩)
    · exact .inr (.inr ⟨by rw [slice_to_end], by omega, by omega⟩)

/-- What a frame that `decode` answers tells of the datagram. -/
theorem parseFrame_frame {c : Config} {raw : Bytes} {seq : Nat} {k p : Bytes} (h : parseFrame c raw = .frame seq k p) :
    raw = be c.seqBytes seq ++ k ++ p ∧ seq < 2 ^ c.seqW ∧ k.length = c.ckBytes ∧ p.length ≤ c.maxPayload ∧
      raw.length = c.hdrBytes + p.length := by
  rcases parseFrame_cases c raw with ⟨e, _⟩ | ⟨e, _⟩ | ⟨e, h1, h2⟩ <;> rw [e] at h <;> try (cases h)
  have hl : (slice raw 0 c.seqBytes).length = c.seqBytes := by
    simp [Config.hdrBytes] at h1 ⊢; omega
  refine ⟨?_, ?_, ?_, ?_, ?_⟩
  · conv_lhs => rw [← slice_split raw (show c.seqBytes ≤ c.hdrBytes by simp [Config.hdrBytes])]
    rw [be_ube_of_length hl]
  · rw [two_pow_seqW]; exact ube_lt_of_length hl
  · simp [Config.hdrBytes] at h1 ⊢; omega
  · simp [Config.maxRaw] at h2 ⊢; omega
  · simp; omega

/-- What `dec_ack` can answer (R138). -/
theorem parseAck_cases (c : Config) (raw : Bytes) :
    (parseAck c raw = .term ∧ raw = c.termMarker) ∨
    (parseAck c raw = .ack (ube (slice raw 0 c.seqBytes)) (slice raw c.seqBytes c.hdrBytes) ∧
      raw ≠ c.termMarker ∧ raw.length = c.hdrBytes) ∨
    (parseAck c raw = .invalid ∧ raw ≠ c.termMarker ∧ raw.length ≠ c.hdrBytes) := by
  unfold parseAck
  split
  · exact .inl ⟨rfl, by assumption⟩
  · split
    · exact .inr (.inl ⟨rfl, by assumption, by assumption⟩)
    · exact .inr (.inr ⟨rfl, by assumption, by assumption⟩)

/-- What an acknowledgment that `dec_ack` answers tells of the datagram. -/
theorem parseAck_ack {c : Config} {raw : Bytes} {seq : Nat} {k : Bytes} (h : parseAck c raw = .ack seq k) :
    raw = be c.seqBytes seq ++ k ∧ seq < 2 ^ c.seqW ∧ k.length = c.ckBytes ∧ raw.length = c.hdrBytes ∧
      raw ≠ c.termMarker := by
  rcases parseAck_cases c raw with ⟨e, _⟩ | ⟨e, h1, h2⟩ | ⟨e, _⟩ <;> rw [e] at h <;> try (cases h)
  have hl : (slice raw 0 c.seqBytes).length = c.seqBytes := by
    simp [Config.hdrBytes] at h2 ⊢; omega
  refine ⟨?_, ?_, ?_, h2, h1⟩
  · conv_lhs => rw [← slice_split raw (show c.seqBytes ≤ c.hdrBytes by simp [Config.hdrBytes])]
    rw [show raw.drop c.hdrBytes = [] by rw [← h2]; simp, List.append_nil]
    rw [be_ube_of_length hl]
  · rw [two_pow_seqW]; exact ube_lt_of_length hl
  · simp [Config.hdrBytes] at h2 ⊢; omega

end Sys2Proof.Machine
end

