-- ==== Sys2Proof/Laws/Decode.lean ====
section
/-! SUPPORT. Laws of the opcode map and of the port: the two masks, the rows' patterns, and what taking a word or `DIN`
can answer. -/

namespace Sys2Proof

/-- A word is its opcode byte and its field `A` (R101). -/
theorem word_split (w : Word) : w.extractLsb' 24 8 ++ fieldA w = w := by
  apply BitVec.eq_of_getLsbD_eq
  intro i hi
  simp only [fieldA, BitVec.getLsbD_append, BitVec.getLsbD_extractLsb']
  by_cases h : i < 24
  · simp [h]
  · have e : 24 + (i - 24) = i := by omega
    simp [h, e]; omega

theorem opByte_append (x : Byte) (a : BitVec 24) : (x ++ a : Word).extractLsb' 24 8 = x := by
  apply BitVec.eq_of_getLsbD_eq
  intro i hi
  rw [BitVec.getLsbD_extractLsb', BitVec.getLsbD_append]
  simp [hi]

theorem fieldA_append (x : Byte) (a : BitVec 24) : fieldA (x ++ a : Word) = a := by
  apply BitVec.eq_of_getLsbD_eq
  intro i hi
  rw [fieldA, BitVec.getLsbD_extractLsb', BitVec.getLsbD_append]
  simp [hi]

/-- Two words are equal when their opcode bytes and fields `A` are. -/
theorem word_eq_iff (x y : Byte) (a b : BitVec 24) : (x ++ a : Word) = y ++ b ↔ x = y ∧ a = b := by
  constructor
  · intro h
    exact ⟨by rw [← opByte_append x a, h, opByte_append], by rw [← fieldA_append x a, h, fieldA_append]⟩
  · rintro ⟨rfl, rfl⟩; rfl

/-- The opcode mask keeps the opcode byte and clears `A`. -/
theorem and_maskOp (x : Byte) (a : BitVec 24) : (x ++ a : Word) &&& maskOp = x ++ 0#24 := by
  have e : maskOp = (0xFF#8 ++ 0x000000#24 : Word) := by decide
  rw [e]
  apply BitVec.eq_of_getLsbD_eq
  intro i hi
  simp only [BitVec.getLsbD_and, BitVec.getLsbD_append]
  by_cases h : i < 24
  · simp [h]
  · have : i - 24 < 8 := by omega
    have h8 : (0xFF#8).getLsbD (i - 24) = true := by
      interval_cases h' : (i - 24) <;> rfl
    simp [h, h8]

/-- The full mask keeps the word. -/
theorem and_maskAll (w : Word) : w &&& maskAll = w := by
  have e : maskAll = BitVec.allOnes 32 := by decide
  rw [e, BitVec.and_allOnes]

/-- Every row's pattern is its opcode with `A` 0, and its mask is the full one for formats `N` and `W` (R105). -/
theorem opcodeTable_rows : ∀ r ∈ opcodeTable, r.pattern = (r.op.code ++ 0#24 : Word) ∧
    r.mask = if r.op.format = .N ∨ r.op.format = .W then maskAll else maskOp := by decide

/-- When a row selects the word `op ++ A`: by the opcode byte alone, or with `A` 0 for formats `N` and `W` (R105). -/
theorem Row.selects_iff (r : Row) (h : r ∈ opcodeTable) (x : Byte) (a : BitVec 24) :
    r.selects (x ++ a) = true ↔ x = r.op.code ∧ ((r.op.format = .N ∨ r.op.format = .W) → a = 0#24) := by
  obtain ⟨hp, hm⟩ := opcodeTable_rows r h
  rw [Row.selects, hp, hm, beq_iff_eq]
  split
  · rename_i hf
    rw [and_maskAll, word_eq_iff]; tauto
  · rename_i hf
    rw [and_maskOp, word_eq_iff]; tauto

/-- Every operation has a row. -/
theorem opcodeTable_complete (op : Opcode) : ∃ r ∈ opcodeTable, r.op = op := by
  cases op <;> decide

/-- The opcodes of the sixteen operations differ (R105). -/
theorem Opcode.code_injective {x y : Opcode} (h : x.code = y.code) : x = y := by
  revert h; cases x <;> cases y <;> decide

/-- What `takeWord1` can answer (R107). -/
theorem takeWord1_cases (f : Format) (ws : List Word) :
    (f.hasWord1 = false ∧ takeWord1 f ws = some (0, ws)) ∨
    (f.hasWord1 = true ∧ ws = [] ∧ takeWord1 f ws = none) ∨
    (f.hasWord1 = true ∧ ∃ w rest, ws = w :: rest ∧ takeWord1 f ws = some (w, rest)) := by
  unfold takeWord1
  cases f.hasWord1
  · exact .inl ⟨rfl, rfl⟩
  · cases ws with
    | nil => exact .inr (.inl ⟨rfl, rfl, rfl⟩)
    | cons w rest => exact .inr (.inr ⟨rfl, w, rest, rfl, rfl⟩)

/-- What `takeDin` can answer (R103). -/
theorem takeDin_cases (n : Nat) (din : Bytes) :
    (din.length < n ∧ takeDin n din = none) ∨
    (∃ d rest, d.length = n ∧ din = d ++ rest ∧ takeDin n din = some (d, rest)) := by
  unfold takeDin
  by_cases h : n ≤ din.length
  · exact .inr ⟨din.take n, din.drop n, by simp [h], by simp, by simp [h]⟩
  · exact .inl ⟨by omega, by simp [h]⟩

/-- The encoding of an operation without its data bytes, field by field (R101). -/
theorem opByte_word0 (i : Instr) : i.word0.extractLsb' 24 8 = i.op.code := opByte_append _ _

theorem fieldA_word0 (i : Instr) : fieldA i.word0 = i.fieldA := fieldA_append _ _

end Sys2Proof
end

