-- ==== Sys2Proof/Laws/State.lean ====
section
/-! SUPPORT. One lemma per field per update of State, so that no proof unfolds a record update. -/

namespace Sys2Proof.Machine

@[simp] theorem State.respond_cfg (s : State) (r : Response) : (s.respond r).cfg = s.cfg := rfl
@[simp] theorem State.respond_rx (s : State) (r : Response) : (s.respond r).rx = s.rx := rfl
@[simp] theorem State.respond_tx (s : State) (r : Response) : (s.respond r).tx = s.tx := rfl
@[simp] theorem State.respond_port (s : State) (r : Response) : (s.respond r).port = s.port := rfl
@[simp] theorem State.respond_resetIn (s : State) (r : Response) : (s.respond r).resetIn = s.resetIn := rfl
@[simp] theorem State.respond_response (s : State) (r : Response) : (s.respond r).response = some r := rfl

@[simp] theorem State.withRx_cfg (s : State) (u : RxUnit) : (s.withRx u).cfg = s.cfg := rfl
@[simp] theorem State.withRx_rx (s : State) (u : RxUnit) : (s.withRx u).rx = u := rfl
@[simp] theorem State.withRx_tx (s : State) (u : RxUnit) : (s.withRx u).tx = s.tx := rfl
@[simp] theorem State.withRx_port (s : State) (u : RxUnit) : (s.withRx u).port = s.port := rfl
@[simp] theorem State.withRx_resetIn (s : State) (u : RxUnit) : (s.withRx u).resetIn = s.resetIn := rfl
@[simp] theorem State.withRx_response (s : State) (u : RxUnit) : (s.withRx u).response = s.response := rfl

@[simp] theorem State.withTx_cfg (s : State) (u : TxUnit) : (s.withTx u).cfg = s.cfg := rfl
@[simp] theorem State.withTx_rx (s : State) (u : TxUnit) : (s.withTx u).rx = s.rx := rfl
@[simp] theorem State.withTx_tx (s : State) (u : TxUnit) : (s.withTx u).tx = u := rfl
@[simp] theorem State.withTx_port (s : State) (u : TxUnit) : (s.withTx u).port = s.port := rfl
@[simp] theorem State.withTx_resetIn (s : State) (u : TxUnit) : (s.withTx u).resetIn = s.resetIn := rfl
@[simp] theorem State.withTx_response (s : State) (u : TxUnit) : (s.withTx u).response = s.response := rfl

@[simp] theorem State.withPort_cfg (s : State) (p : Port) : (s.withPort p).cfg = s.cfg := rfl
@[simp] theorem State.withPort_rx (s : State) (p : Port) : (s.withPort p).rx = s.rx := rfl
@[simp] theorem State.withPort_tx (s : State) (p : Port) : (s.withPort p).tx = s.tx := rfl
@[simp] theorem State.withPort_port (s : State) (p : Port) : (s.withPort p).port = p := rfl
@[simp] theorem State.withPort_resetIn (s : State) (p : Port) : (s.withPort p).resetIn = s.resetIn := rfl
@[simp] theorem State.withPort_response (s : State) (p : Port) : (s.withPort p).response = s.response := rfl

@[simp] theorem State.resetWith_cfg (c : Config) : (State.resetWith c).cfg = c := rfl
@[simp] theorem State.resetWith_rx (c : Config) : (State.resetWith c).rx = RxUnit.reset c := rfl
@[simp] theorem State.resetWith_tx (c : Config) : (State.resetWith c).tx = TxUnit.reset := rfl
@[simp] theorem State.resetWith_port (c : Config) : (State.resetWith c).port = ⟨[], []⟩ := rfl
@[simp] theorem State.resetWith_resetIn (c : Config) : (State.resetWith c).resetIn = false := rfl
@[simp] theorem State.resetWith_response (c : Config) : (State.resetWith c).response = none := rfl

@[simp] theorem State.mem_rbuf (s : State) : s.mem .rbuf = s.rx.rbuf := rfl
@[simp] theorem State.mem_tbuf (s : State) : s.mem .tbuf = s.tx.tbuf := rfl
@[simp] theorem Space.cap_rbuf (c : Config) : Space.cap c .rbuf = c.rxCap := rfl
@[simp] theorem Space.cap_tbuf (c : Config) : Space.cap c .tbuf = some c.txCap := rfl

/-- The second of two responses stands. -/
@[simp] theorem State.respond_respond (s : State) (r q : Response) : (s.respond r).respond q = s.respond q := rfl

/-- A state is its units, its response and the rest. -/
theorem State.ext_of_parts {s t : State} (hc : s.cfg = t.cfg) (hr : s.rx = t.rx) (ht : s.tx = t.tx)
    (hp : s.port = t.port) (hi : s.resetIn = t.resetIn) (ho : s.response = t.response) : s = t := by
  cases s; cases t; simp_all

end Sys2Proof.Machine
end

