-- ==== Sys2Proof/Laws/Memory.lean ====
section
/-! SUPPORT. Laws of the two byte memories: every memory operation keeps the canonical form, a read after a write, and
what `memRead` and `memWrite` can answer. -/

namespace Sys2Proof.Machine

@[simp] theorem Memory.cellsFrom_length (a : Nat) (bs : Bytes) : (Memory.cellsFrom a bs).length = bs.length := by
  induction bs generalizing a with
  | nil => rfl
  | cons b bs ih => simp [Memory.cellsFrom, ih]

theorem Memory.mem_cellsFrom {a : Nat} {bs : Bytes} {cell : Host.Cell} (h : cell ∈ Memory.cellsFrom a bs) :
    a ≤ cell.1 ∧ cell.1 < a + bs.length := by
  induction bs generalizing a with
  | nil => simp [Memory.cellsFrom] at h
  | cons b bs ih =>
    simp only [Memory.cellsFrom, List.mem_cons] at h
    rcases h with rfl | h
    · simp
    · have := ih h; simp only [List.length_cons]; omega

theorem Memory.cellsFrom_wf (a : Nat) (bs : Bytes) : (Memory.cellsFrom a bs).wf := by
  induction bs generalizing a with
  | nil => exact List.Pairwise.nil
  | cons b bs ih =>
    refine List.Pairwise.cons (fun cell h => ?_) (ih _)
    have := Memory.mem_cellsFrom h; simp; omega

/-- A write keeps the canonical form. -/
theorem Memory.write_wf {m : Memory} (h : m.wf) (a : Nat) (bs : Bytes) : (m.write a bs).wf := by
  unfold Memory.write
  refine List.pairwise_append.2 ⟨List.pairwise_append.2 ⟨h.filter _, Memory.cellsFrom_wf a bs, ?_⟩, h.filter _, ?_⟩
  · intro x hx y hy
    have h1 := (List.mem_filter.1 hx).2
    have h2 := Memory.mem_cellsFrom hy
    simp at h1; omega
  · intro x hx y hy
    have h2 := (List.mem_filter.1 hy).2
    simp only [decide_eq_true_eq] at h2
    rcases List.mem_append.1 hx with hx | hx
    · have h1 := (List.mem_filter.1 hx).2
      simp at h1; omega
    · have h1 := Memory.mem_cellsFrom hx; omega

theorem Memory.read?_append (m n : Memory) (a : Nat) :
    Memory.read? (m ++ n) a = (Memory.read? m a).or (Memory.read? n a) := by
  induction m with
  | nil => simp [Memory.read?]
  | cons c m ih => simp only [List.cons_append, Memory.read?]; split <;> simp [*]

theorem Memory.read?_filter (m : Memory) (p : Nat → Bool) (a : Nat) :
    Memory.read? (m.filter (fun cell => p cell.1)) a = if p a then Memory.read? m a else none := by
  induction m with
  | nil => simp [Memory.read?]
  | cons c m ih =>
    by_cases hc : p c.1
    · rw [List.filter_cons_of_pos (by simpa using hc)]
      simp only [Memory.read?, ih]
      by_cases ha : c.1 = a
      · subst ha; simp [hc]
      · simp [ha]
    · rw [List.filter_cons_of_neg (by simpa using hc), ih]
      simp only [Memory.read?]
      by_cases ha : c.1 = a
      · subst ha; simp [hc]
      · simp [ha]

theorem Memory.read?_cellsFrom (a : Nat) (bs : Bytes) (x : Nat) :
    Memory.read? (Memory.cellsFrom a bs) x = if a ≤ x then bs[x - a]? else none := by
  induction bs generalizing a with
  | nil => simp [Memory.cellsFrom, Memory.read?]
  | cons b bs ih =>
    simp only [Memory.cellsFrom, Memory.read?, ih]
    by_cases h : a = x
    · simp [h]
    · by_cases h2 : a ≤ x
      · have h3 : x - a = (x - (a + 1)) + 1 := by omega
        rw [if_neg h, if_pos (by omega), if_pos h2, h3, List.getElem?_cons_succ]
      · rw [if_neg h, if_neg (by omega), if_neg h2]

/-- A read after a write: the written bytes, and every other address as before. -/
theorem Memory.read?_write (m : Memory) (a : Nat) (bs : Bytes) (x : Nat) :
    (m.write a bs).read? x = if a ≤ x ∧ x < a + bs.length then bs[x - a]? else m.read? x := by
  unfold Memory.write
  rw [Memory.read?_append, Memory.read?_append, Memory.read?_filter m (fun k => decide (k < a)),
    Memory.read?_filter m (fun k => decide (a + bs.length ≤ k)), Memory.read?_cellsFrom]
  by_cases h1 : x < a
  · have e1 : ¬ a ≤ x := by omega
    have e2 : ¬ a + bs.length ≤ x := by omega
    simp [h1, e1, e2]
  · by_cases h2 : x < a + bs.length
    · have e1 : a ≤ x := by omega
      have e2 : ¬ a + bs.length ≤ x := by omega
      simp [h1, h2, e1]
      rw [List.getElem?_eq_getElem (by omega)]
      simp
    · have e1 : a ≤ x := by omega
      have e2 : a + bs.length ≤ x := by omega
      have e3 : bs[x - a]? = none := List.getElem?_eq_none (by omega)
      simp [h1, h2, e1, e2, e3]

/-- When `readBytes` answers a byte string, it is the bytes at the addresses, in order. -/
theorem Memory.readBytes_ok {m : Memory} {a n : Nat} {bs : Bytes} (h : m.readBytes a n = .ok bs) :
    bs.length = n ∧ ∀ k, k < n → m.read? (a + k) = bs[k]? := by
  induction n generalizing a bs with
  | zero => simp [Memory.readBytes] at h; subst h; simp
  | succ n ih =>
    simp only [Memory.readBytes] at h
    split at h
    · cases h
    · rename_i b hb
      split at h
      · cases h
      · rename_i bs' hbs
        cases h
        obtain ⟨hl, hk⟩ := ih hbs
        refine ⟨by simp [hl], fun k hk' => ?_⟩
        cases k with
        | zero => simpa using hb
        | succ k =>
          rw [List.getElem?_cons_succ, ← hk k (by omega)]
          congr 1; omega

/-- `readBytes` answers when every address it reads has been written. -/
theorem Memory.readBytes_of_read? {m : Memory} {a : Nat} {bs : Bytes}
    (h : ∀ k, k < bs.length → m.read? (a + k) = bs[k]?) : m.readBytes a bs.length = .ok bs := by
  induction bs generalizing a with
  | nil => rfl
  | cons b bs ih =>
    have h0 := h 0 (by simp)
    simp only [Nat.add_zero, List.getElem?_cons_zero] at h0
    have h1 := ih (a := a + 1) (fun k hk => by
      have := h (k + 1) (by simp; omega)
      rw [List.getElem?_cons_succ] at this
      rw [← this]; congr 1; omega)
    simp [Memory.readBytes, h0, h1]

/-- What `memRead` can answer: no byte; the bytes there; a fault at a byte nothing has written; or a fault outside the
memory. -/
theorem memRead_cases (s : State) (space : Space) (addr n : Nat) :
    (n = 0 ∧ memRead s space addr n = .ok []) ∨
    (n ≠ 0 ∧ fitsCap (space.cap s.cfg) (addr + n) = true ∧
      ((∃ bs, (s.mem space).readBytes addr n = .ok bs ∧ memRead s space addr n = .ok bs) ∨
       (∃ x, (s.mem space).readBytes addr n = .error x ∧ memRead s space addr n = .error (.unwritten space x)))) ∨
    (n ≠ 0 ∧ fitsCap (space.cap s.cfg) (addr + n) = false ∧
      memRead s space addr n = .error (.outsideMemory space addr)) := by
  unfold memRead
  by_cases h0 : n = 0
  · exact .inl ⟨h0, by simp [h0]⟩
  · by_cases hc : fitsCap (space.cap s.cfg) (addr + n) = true
    · refine .inr (.inl ⟨h0, hc, ?_⟩)
      cases hr : (s.mem space).readBytes addr n with
      | error x => exact .inr ⟨x, rfl, by simp [h0, hc]⟩
      | ok bs => exact .inl ⟨bs, rfl, by simp [h0, hc]⟩
    · exact .inr (.inr ⟨h0, by simpa using hc, by simp [h0, hc]⟩)

/-- When `memRead` answers bytes, they are the bytes at the addresses. -/
theorem memRead_ok {s : State} {space : Space} {addr n : Nat} {bs : Bytes} (h : memRead s space addr n = .ok bs) :
    bs.length = n ∧ ∀ k, k < n → (s.mem space).read? (addr + k) = bs[k]? := by
  rcases memRead_cases s space addr n with ⟨h0, e⟩ | ⟨_, _, ⟨b, hb, e⟩ | ⟨x, _, e⟩⟩ | ⟨_, _, e⟩ <;> rw [e] at h
  · cases h; subst h0; simp
  · cases h; exact Memory.readBytes_ok hb
  · cases h
  · cases h

/-- `memRead` answers when the access is inside the memory and every byte has been written. -/
theorem memRead_of_read? {s : State} {space : Space} {addr : Nat} {bs : Bytes}
    (hc : fitsCap (space.cap s.cfg) (addr + bs.length) = true)
    (h : ∀ k, k < bs.length → (s.mem space).read? (addr + k) = bs[k]?) :
    memRead s space addr bs.length = .ok bs := by
  unfold memRead
  by_cases h0 : bs.length = 0
  · simp [List.length_eq_zero_iff.1 h0]
  · rw [if_neg h0, if_pos hc, Memory.readBytes_of_read? h]

/-- When `memWrite` answers a memory, it is the old one, or the one with the bytes written inside the capacity; either
way it reads as the bytes where they were stored and as before elsewhere. -/
theorem memWrite_ok {c : Config} {space : Space} {m m' : Memory} {addr : Nat} {v : Bytes}
    (h : memWrite c space m addr v = .ok m') :
    (v.length = 0 ∨ fitsCap (space.cap c) (addr + v.length) = true) ∧ (m.wf → m'.wf) ∧
      ∀ x, m'.read? x = if addr ≤ x ∧ x < addr + v.length then v[x - addr]? else m.read? x := by
  unfold memWrite at h
  split at h
  · rename_i h0
    cases h
    refine ⟨.inl h0, id, fun x => ?_⟩
    rw [if_neg (by omega)]
  · split at h
    · rename_i hc
      cases h
      exact ⟨.inr hc, fun hw => Memory.write_wf hw _ _, fun x => Memory.read?_write _ _ _ _⟩
    · cases h

/-- `memWrite` answers inside the capacity. -/
theorem memWrite_of_fits {c : Config} {space : Space} (m : Memory) {addr : Nat} {v : Bytes}
    (hc : fitsCap (space.cap c) (addr + v.length) = true) : ∃ m', memWrite c space m addr v = .ok m' := by
  unfold memWrite
  rw [if_pos hc]
  split
  · exact ⟨m, rfl⟩
  · exact ⟨m.write addr v, rfl⟩

theorem fitsCap_mono {cap : Option Nat} {m n : Nat} (h : m ≤ n) (hn : fitsCap cap n = true) : fitsCap cap m = true := by
  cases cap with
  | none => rfl
  | some c => simp [fitsCap] at hn ⊢; omega

end Sys2Proof.Machine
end

