-- ==== Sys2Proof/Laws/Ops.lean ====
section
/-! SUPPORT. One lemma for each shared operation of Machine/Ops.lean and Machine/Receiver.lean, and for what
`packet_size` holds, that says everything it can do. -/

namespace Sys2Proof.Machine

/-- `complete` always goes on, with the response and nothing else changed. -/
@[simp] theorem complete_eq (s : State) (r : Response) : complete s r = .next (s.respond r) := rfl

theorem illegalCommand_eq (s : State) (w : Word) :
    illegalCommand s w = .next (s.respond { status := .illegalOp, rdata := w.toNat }) := rfl

theorem rejectFrame_eq (s : State) (st : Status) (n : Nat) :
    rejectFrame s st n = .next (s.respond { status := st, rdata := n, wire := resendLastAck s }) := rfl

/-- The last acknowledgment again, or nothing (R162). -/
theorem resendLastAck_cases (s : State) :
    (s.rx.lastAckValid = true ∧ resendLastAck s = [be s.cfg.seqBytes s.rx.lastAckSeq ++ s.rx.lastAckCk]) ∨
    (s.rx.lastAckValid = false ∧ resendLastAck s = []) := by
  unfold resendLastAck mkAck
  cases s.rx.lastAckValid <;> simp

/-- An accepted frame goes on: either the count is reached, the unit is `COMPLETE` and the marker follows the
acknowledgment, or the unit keeps the state it was given (R168, R170). -/
theorem acceptFrame_cases (s : State) (u : RxUnit) (seq : Nat) (k : Bytes) :
    (u.expectedSeq + 1 = u.rxTotal ∧ acceptFrame s u seq k =
      .next ((s.withRx { u with lastAckSeq := u.expectedSeq, lastAckCk := k, lastAckValid := true,
                                expectedSeq := u.expectedSeq + 1, rxState := .complete }).respond
        { status := .done, rdata := seq, wire := [be s.cfg.seqBytes u.expectedSeq ++ k, s.cfg.termMarker] })) ∨
    (u.expectedSeq + 1 ≠ u.rxTotal ∧ acceptFrame s u seq k =
      .next ((s.withRx { u with lastAckSeq := u.expectedSeq, lastAckCk := k, lastAckValid := true,
                                expectedSeq := u.expectedSeq + 1 }).respond
        { status := .ok, rdata := seq, wire := [be s.cfg.seqBytes u.expectedSeq ++ k] })) := by
  unfold acceptFrame
  by_cases h : u.expectedSeq + 1 = u.rxTotal
  · exact .inl ⟨h, by simp [h, mkAck]⟩
  · exact .inr ⟨h, by simp [h, mkAck]⟩

/-- `acceptMetadata` rejects what is no metadata frame and accepts what is (R166, R174). -/
theorem acceptMetadata_cases (s : State) (seq : Nat) (k p : Bytes) :
    ((p.length ≠ s.cfg.seqBytes ∨ ube p = 0) ∧ acceptMetadata s seq k p = rejectFrame s .badMetadata seq) ∨
    (p.length = s.cfg.seqBytes ∧ ube p ≠ 0 ∧ acceptMetadata s seq k p =
      acceptFrame s { s.rx with rxTotal := ube p, rxState := .receiving } seq k) := by
  unfold acceptMetadata
  by_cases h : p.length ≠ s.cfg.seqBytes ∨ ube p = 0
  · exact .inl ⟨h, by rw [if_pos (by simpa using h)]⟩
  · refine .inr ⟨by tauto, by tauto, ?_⟩
    rw [if_neg (by simpa using h)]

/-- `acceptData` rejects for want of room, or appends and accepts; it never stops (R167, R169). -/
theorem acceptData_cases (s : State) (seq : Nat) (k p : Bytes) :
    (fitsCap s.cfg.rxCap (s.rx.rxLen + p.length) = false ∧ acceptData s seq k p =
      rejectFrame (s.withRx { s.rx with overflow := true }) .overflow seq) ∨
    (fitsCap s.cfg.rxCap (s.rx.rxLen + p.length) = true ∧ ∃ m,
      memWrite s.cfg .rbuf s.rx.rbuf s.rx.rxLen p = .ok m ∧ acceptData s seq k p =
        acceptFrame s { s.rx with rbuf := m, rxLen := s.rx.rxLen + p.length } seq k) := by
  unfold acceptData
  cases h : fitsCap s.cfg.rxCap (s.rx.rxLen + p.length)
  · exact .inl ⟨rfl, by simp⟩
  · obtain ⟨m, hm⟩ := memWrite_of_fits (c := s.cfg) (space := .rbuf) s.rx.rbuf h
    exact .inr ⟨rfl, m, hm, by simp [hm]⟩

theorem ceilDiv_eq_one {a b : Nat} (ha : 1 ≤ a) (h : a ≤ b) : ceilDiv a b = 1 :=
  Nat.div_eq_of_lt_le (by omega) (by omega)

theorem ceilDiv_zero {b : Nat} (h : 1 ≤ b) : ceilDiv 0 b = 0 := Nat.div_eq_of_lt (by omega)

theorem heldPacketSize_of_le {len w : Nat} (h : 2 ^ 24 ≤ len) : heldPacketSize len w = w := if_pos (.inr h)

/-- `packet_size` holds its operand where that fits 24 bits, else a value of 24 bits that is at least 1 and not
below the buffer's length (R35, log entry 24). -/
theorem heldPacketSize_cases {len w : Nat} (hl : len < 2 ^ 24) :
    (w < 2 ^ 24 ∧ heldPacketSize len w = w) ∨
    (2 ^ 24 ≤ w ∧ 1 ≤ heldPacketSize len w ∧ len ≤ heldPacketSize len w ∧ heldPacketSize len w < 2 ^ 24) := by
  unfold heldPacketSize
  by_cases h : w < 2 ^ 24
  · exact .inl ⟨h, if_pos (.inl h)⟩
  · have := Nat.mod_lt (Config.freePacketSize len w) (y := 2 ^ 24) (by decide)
    rw [if_neg (by omega)]
    exact .inr ⟨by omega, by omega, by omega, by omega⟩

/-- The total frame count is the same by the operand and by what `packet_size` holds (R39 (c)). -/
theorem totalFrames_heldPacketSize {len w : Nat} (hw : 1 ≤ w) :
    totalFrames len (heldPacketSize len w) = totalFrames len w := by
  by_cases hl : len < 2 ^ 24
  · rcases heldPacketSize_cases hl with ⟨_, h⟩ | ⟨h1, h2, h3, _⟩
    · rw [h]
    · rcases Nat.eq_zero_or_pos len with h0 | h0
      · subst h0; rw [totalFrames, totalFrames, ceilDiv_zero h2, ceilDiv_zero hw]
      · rw [totalFrames, totalFrames, ceilDiv_eq_one h0 h3, ceilDiv_eq_one h0 (by omega)]
  · rw [heldPacketSize_of_le (by omega)]

/-- So are the frames (R139). -/
theorem encodeBuffer_heldPacketSize (c : Config) (b : Bytes) {w : Nat} (hw : 1 ≤ w) :
    encodeBuffer c b (heldPacketSize b.length w) = encodeBuffer c b w := by
  by_cases hl : b.length < 2 ^ 24
  · rcases heldPacketSize_cases hl with ⟨_, h⟩ | ⟨h1, h2, h3, _⟩
    · rw [h]
    · unfold encodeBuffer
      rw [totalFrames_heldPacketSize hw]
      refine List.map_congr_left fun k hk => ?_
      have hk : k < totalFrames b.length w := List.mem_range.1 hk
      unfold encodeFrame
      rw [totalFrames_heldPacketSize hw]
      split
      · rfl
      · have : k = 1 := by
          rcases Nat.eq_zero_or_pos b.length with h0 | h0
          · rw [h0, totalFrames, ceilDiv_zero hw] at hk; omega
          · rw [totalFrames, ceilDiv_eq_one h0 (by omega)] at hk; omega
        subst this
        simp only [chunk, Nat.sub_self, Nat.zero_mul, Nat.one_mul]
        rw [Nat.min_eq_right h3, Nat.min_eq_right (by omega)]
  · rw [heldPacketSize_of_le (by omega)]

/-- What `frame_of` and `expected_ck` answer is one payload's frame and checksum (R140). -/
theorem frameOf_cases (s : State) (k : Nat) :
    (∃ p, payloadOf s k = .ok p ∧ frameOf s k = .ok (mkFrame s.cfg k p) ∧ expectedCk s k = .ok (ck s.cfg p)) ∨
    (∃ f, payloadOf s k = .error f ∧ frameOf s k = .error f ∧ expectedCk s k = .error f) := by
  unfold frameOf expectedCk
  cases h : payloadOf s k with
  | ok p => exact .inl ⟨p, rfl, rfl, rfl⟩
  | error f => exact .inr ⟨f, rfl, rfl, rfl⟩

/-- The frames of a session depend on the parameters, the total, the packet size, the length and TBUF alone (R211). -/
theorem payloadOf_congr {s t : State} (hc : t.cfg = s.cfg) (hn : t.tx.txTotal = s.tx.txTotal)
    (hp : t.tx.packetSize = s.tx.packetSize) (hl : t.tx.txLen = s.tx.txLen) (hm : t.tx.tbuf = s.tx.tbuf) (k : Nat) :
    payloadOf t k = payloadOf s k := by
  simp only [payloadOf, memRead, State.mem, Space.cap, hc, hn, hp, hl, hm]
  rfl

theorem frameOf_congr {s t : State} (hc : t.cfg = s.cfg) (hn : t.tx.txTotal = s.tx.txTotal)
    (hp : t.tx.packetSize = s.tx.packetSize) (hl : t.tx.txLen = s.tx.txLen) (hm : t.tx.tbuf = s.tx.tbuf) (k : Nat) :
    frameOf t k = frameOf s k := by
  rw [frameOf, frameOf, payloadOf_congr hc hn hp hl hm, hc]

/-- `sendFrame` puts the frame on the wire and arms the timer, or stops at a fault of reading TBUF. -/
theorem sendFrame_cases (s : State) (u : TxUnit) (k : Nat) (st : Status) :
    (∃ d, frameOf s k = .ok d ∧ sendFrame s u k st =
      .next ((s.withTx { u with timerArmed := true }).respond
        { status := st, rdata := k, wire := [d], timer := if s.tx.timerArmed then .none else .start })) ∨
    (∃ f, frameOf s k = .error f ∧ sendFrame s u k st = .fault f) := by
  unfold sendFrame
  cases h : frameOf s k with
  | ok d => exact .inl ⟨d, rfl, rfl⟩
  | error f => exact .inr ⟨f, rfl, rfl⟩

/-- `advanceWindow` goes on, in one of three ways (R215). -/
theorem advanceWindow_cases (s : State) (seq : Nat) :
    (seq + 1 = s.tx.txTotal ∧ advanceWindow s seq =
      .next ((s.withTx { s.tx with windowBase := seq + 1, sendPtr := max s.tx.sendPtr (seq + 1), txState := .done,
                                   timerArmed := false }).respond
        { status := .done, rdata := seq, timer := .stop })) ∨
    (seq + 1 ≠ s.tx.txTotal ∧ seq + 1 < s.tx.nextSeq ∧ advanceWindow s seq =
      .next ((s.withTx { s.tx with windowBase := seq + 1, sendPtr := max s.tx.sendPtr (seq + 1) }).respond
        { status := .ok, rdata := seq, timer := .restart })) ∨
    (seq + 1 ≠ s.tx.txTotal ∧ s.tx.nextSeq ≤ seq + 1 ∧ advanceWindow s seq =
      .next ((s.withTx { s.tx with windowBase := seq + 1, sendPtr := max s.tx.sendPtr (seq + 1),
                                   timerArmed := false }).respond
        { status := .ok, rdata := seq, timer := .stop })) := by
  unfold advanceWindow outstanding
  by_cases h : seq + 1 = s.tx.txTotal
  · exact .inl ⟨h, by simp [h]⟩
  · by_cases h2 : seq + 1 < s.tx.nextSeq
    · exact .inr (.inl ⟨h, h2, by simp [h, h2]⟩)
    · exact .inr (.inr ⟨h, by omega, by simp [h, h2]⟩)

end Sys2Proof.Machine
end

