-- ==== Sys2Proof/Laws/Session.lean ====
section
/-! SUPPORT. Laws of the vocabulary of Sys2Proof/Safety.lean: classifying a datagram by its length, and memories that
hold exactly what a session has written. -/

namespace Sys2Proof.Machine

theorem parseFrame_of_short {c : Config} {raw : Bytes} (h : raw.length < c.hdrBytes) : parseFrame c raw = .short := by
  simp [parseFrame, h]

theorem parseFrame_of_oversize {c : Config} {raw : Bytes} (h : c.maxRaw < raw.length) :
    parseFrame c raw = .oversize := by
  have : ¬ raw.length < c.hdrBytes := by simp [Config.maxRaw] at h; omega
  simp [parseFrame, h, this]

/-- A datagram of a frame's length parses as its three fields (R90, R135). -/
theorem parseFrame_of_frameLength {c : Config} {raw : Bytes} (h : frameLength c raw) :
    parseFrame c raw =
      .frame (seqField c raw) ((raw.drop c.seqBytes).take c.ckBytes) (raw.drop c.hdrBytes) := by
  rcases parseFrame_cases c raw with ⟨_, h'⟩ | ⟨_, h'⟩ | ⟨e, _⟩
  · simp [frameLength] at h; omega
  · simp [frameLength] at h; omega
  · rw [e]; simp [slice, Config.hdrBytes, seqField]

/-- A datagram of an acknowledgment's length that is not the marker parses as its two fields (R93, R138). -/
theorem parseAck_of_length {c : Config} {raw : Bytes} (hm : raw ≠ c.termMarker) (h : raw.length = c.hdrBytes) :
    parseAck c raw = .ack (seqField c raw) (raw.drop c.seqBytes) := by
  rw [parseAck, if_neg hm, if_pos h, ← h, slice_to_end]
  simp [slice, seqField]

/-- `verify` on the fields of a datagram (R147). -/
theorem verifies_iff_checksumGood (c : Config) (raw : Bytes) :
    verifies c ((raw.drop c.seqBytes).take c.ckBytes) (raw.drop c.hdrBytes) = true ↔ checksumGood c raw := by
  simp [verifies, checksumGood]

theorem Memory.holdsExactly_nil : Memory.holdsExactly [] 0 := rfl

theorem Memory.read?_isSome_iff (m : Memory) (a : Nat) : (m.read? a).isSome = true ↔ a ∈ m.map Prod.fst := by
  induction m with
  | nil => simp [Memory.read?]
  | cons c m ih =>
    simp only [Memory.read?, List.map_cons, List.mem_cons]
    split
    · rename_i h; simp [h]
    · rename_i h; rw [ih]
      constructor
      · exact .inr
      · rintro (h' | h'); · exact absurd h'.symm h
        · exact h'

/-- A memory that holds exactly `len` bytes has a value at the addresses below `len` and at no other. -/
theorem Memory.holdsExactly.read?_isSome {m : Memory} {len : Nat} (h : m.holdsExactly len) (a : Nat) :
    (m.read? a).isSome = true ↔ a < len := by
  rw [Memory.read?_isSome_iff, h, List.mem_range]

theorem Memory.holdsExactly.wf {m : Memory} {len : Nat} (h : m.holdsExactly len) : m.wf := by
  have : (m.map Prod.fst).Pairwise (· < ·) := by rw [h]; exact List.pairwise_lt_range
  exact List.pairwise_map.1 this

theorem Memory.cellsFrom_fst (a : Nat) (bs : Bytes) :
    (Memory.cellsFrom a bs).map Prod.fst = (List.range bs.length).map (a + ·) := by
  induction bs generalizing a with
  | nil => rfl
  | cons b bs ih =>
    rw [Memory.cellsFrom, List.map_cons, ih, List.length_cons, List.range_succ_eq_map, List.map_cons, List.map_map]
    simp only [Nat.add_zero, List.cons.injEq, true_and]
    apply List.map_congr_left
    intro x _
    simp only [Function.comp]; omega

/-- Appending bytes at the end of such a memory (R61, R167). -/
theorem Memory.holdsExactly.write_end {m : Memory} {len : Nat} (h : m.holdsExactly len) (bs : Bytes) :
    (m.write len bs).holdsExactly (len + bs.length) := by
  have hlt : ∀ cell ∈ m, cell.1 < len := fun cell hc => by
    have : cell.1 ∈ m.map Prod.fst := List.mem_map.2 ⟨cell, hc, rfl⟩
    rw [h] at this; exact List.mem_range.1 this
  unfold Memory.holdsExactly Memory.write
  rw [List.filter_eq_self.2 (fun cell hc => by simpa using hlt cell hc),
    List.filter_eq_nil_iff.2 (fun cell hc => by have := hlt cell hc; simp; omega),
    List.append_nil, List.map_append, h, Memory.cellsFrom_fst, List.range_add]

/-- What `memWrite` leaves when it appends at the end of such a memory. -/
theorem memWrite_holdsExactly {c : Config} {space : Space} {m m' : Memory} {len : Nat} {v : Bytes}
    (h : m.holdsExactly len) (hw : memWrite c space m len v = .ok m') : m'.holdsExactly (len + v.length) := by
  unfold memWrite at hw
  split at hw
  · rename_i h0; cases hw; rwa [h0, Nat.add_zero]
  · split at hw
    · cases hw; exact h.write_end v
    · cases hw

/-- Reading bytes that such a memory holds. -/
theorem memRead_of_holdsExactly {s : State} {space : Space} {len addr n : Nat} (h : (s.mem space).holdsExactly len)
    (hc : fitsCap (space.cap s.cfg) len = true) (hn : addr + n ≤ len) :
    ∃ bs, memRead s space addr n = .ok bs ∧ bs.length = n ∧
      ∀ k, k < n → bs[k]? = (s.mem space).read? (addr + k) := by
  let bs : Bytes := (List.range n).map (fun k => ((s.mem space).read? (addr + k)).getD 0#8)
  have hl : bs.length = n := by simp [bs]
  have hk : ∀ k, k < bs.length → (s.mem space).read? (addr + k) = bs[k]? := fun k hk => by
    have hs := (h.read?_isSome (addr + k)).2 (by omega)
    obtain ⟨x, hx⟩ := Option.isSome_iff_exists.1 hs
    have : k < n := by omega
    simp [bs, hx, this]
  refine ⟨bs, ?_, hl, fun k hk' => (hk k (by omega)).symm⟩
  rw [← hl]
  exact memRead_of_read? (fitsCap_mono (by omega) hc) hk

end Sys2Proof.Machine
end

