-- ==== Sys2Proof/Laws/Meanings.lean ====
section
/-! SUPPORT. One lemma for each meaning that says once everything it can do, so that a proof about every operation splits
into the few ways each can end. -/

namespace Sys2Proof.Machine

/-- A codec operation answers a response and nothing else (R150): its `RDATA` is 0, the datagram's length, or the
sequence number a parsed datagram carries. -/
theorem exec_codec_cases (i : Instr) (s : State) (h : i.isCodec = true) :
    ∃ st n dout wire, exec i s = .next (s.respond { status := st, rdata := n, dout := dout, wire := wire }) ∧
      (st = .ok ∨ st = .termSeen ∨ st.writesNothing = true) ∧
      (n = 0 ∨ n = i.din.length ∨ (∃ k p, parseFrame s.cfg i.din = .frame n k p) ∨
        ∃ k, parseAck s.cfg i.din = .ack n k) := by
  cases i <;> simp [Instr.isCodec] at h
  case encFrame seq payload =>
    simp only [exec, execEncFrame]
    split <;> exact ⟨_, _, _, _, rfl, by decide, .inl rfl⟩
  case encMeta total =>
    simp only [exec, execEncMeta]
    split <;> exact ⟨_, _, _, _, rfl, by decide, .inl rfl⟩
  case encAck seq k =>
    simp only [exec, execEncAck]
    split <;> exact ⟨_, _, _, _, rfl, by decide, .inl rfl⟩
  case decFrame raw =>
    simp only [exec, execDecFrame, Instr.din]
    split
    · exact ⟨_, _, _, _, rfl, by decide, .inr (.inl rfl)⟩
    · exact ⟨_, _, _, _, rfl, by decide, .inr (.inl rfl)⟩
    · rename_i e; exact ⟨_, _, _, _, rfl, by decide, .inr (.inr (.inl ⟨_, _, e⟩))⟩
  case decAck raw =>
    simp only [exec, execDecAck, Instr.din]
    split
    · exact ⟨_, _, _, _, rfl, by decide, .inl rfl⟩
    · exact ⟨_, _, _, _, rfl, by decide, .inr (.inl rfl)⟩
    · rename_i e; exact ⟨_, _, _, _, rfl, by decide, .inr (.inr (.inr ⟨_, e⟩))⟩
  case verify raw =>
    simp only [exec, execVerify, Instr.din]
    split
    · exact ⟨_, _, _, _, rfl, by decide, .inr (.inl rfl)⟩
    · exact ⟨_, _, _, _, rfl, by decide, .inr (.inl rfl)⟩
    · rename_i e
      split <;> exact ⟨_, _, _, _, rfl, by decide, .inr (.inr (.inl ⟨_, _, e⟩))⟩

/-- `RX_FRAME` rejects and changes nothing; or only sets `overflow`; or accepts the metadata frame; or a data frame. -/
theorem execRxFrame_cases (raw : Bytes) (s : State) :
    (∃ st n, execRxFrame raw s = .next (s.respond { status := st, rdata := n, wire := resendLastAck s }) ∧
      st.writesNothing = true ∧ (n = s.rx.expectedSeq ∨ n = raw.length ∨ ∃ k p, parseFrame s.cfg raw = .frame n k p)) ∨
    (s.rx.rxState = .receiving ∧ (∃ k p, parseFrame s.cfg raw = .frame s.rx.expectedSeq k p ∧
      verifies s.cfg k p = true ∧ fitsCap s.cfg.rxCap (s.rx.rxLen + p.length) = false) ∧ execRxFrame raw s =
      .next ((s.withRx { s.rx with overflow := true }).respond
        { status := .overflow, rdata := s.rx.expectedSeq, wire := resendLastAck s })) ∨
    (s.rx.rxState = .awaitInit ∧ ∃ k p, parseFrame s.cfg raw = .frame s.rx.expectedSeq k p ∧
      verifies s.cfg k p = true ∧ p.length = s.cfg.seqBytes ∧ ube p ≠ 0 ∧ execRxFrame raw s =
        acceptFrame s { s.rx with rxTotal := ube p, rxState := .receiving } s.rx.expectedSeq k) ∨
    (s.rx.rxState = .receiving ∧ ∃ k p m, parseFrame s.cfg raw = .frame s.rx.expectedSeq k p ∧
      verifies s.cfg k p = true ∧ fitsCap s.cfg.rxCap (s.rx.rxLen + p.length) = true ∧
      memWrite s.cfg .rbuf s.rx.rbuf s.rx.rxLen p = .ok m ∧ execRxFrame raw s =
        acceptFrame s { s.rx with rbuf := m, rxLen := s.rx.rxLen + p.length } s.rx.expectedSeq k) := by
  unfold execRxFrame
  split
  · exact .inl ⟨_, _, rfl, by decide, .inl rfl⟩
  · rename_i hc
    split
    · exact .inl ⟨_, _, rfl, by decide, .inr (.inl rfl)⟩
    · exact .inl ⟨_, _, rfl, by decide, .inr (.inl rfl)⟩
    · rename_i seq k p hp
      split
      · exact .inl ⟨_, _, rfl, by decide, .inr (.inr ⟨k, p, hp⟩)⟩
      · rename_i hs
        have hs : seq = s.rx.expectedSeq := by simpa using hs
        subst hs
        split
        · exact .inl ⟨_, _, rfl, by decide, .inl rfl⟩
        · rename_i hv
          have hv : verifies s.cfg k p = true := by simpa using hv
          split
          · rename_i ha
            rcases acceptMetadata_cases s s.rx.expectedSeq k p with ⟨_, e⟩ | ⟨h1, h2, e⟩
            · exact .inl ⟨_, _, e, by decide, .inl rfl⟩
            · exact .inr (.inr (.inl ⟨ha, k, p, hp, hv, h1, h2, e⟩))
          · rename_i ha
            have hr : s.rx.rxState = .receiving := by cases h : s.rx.rxState <;> simp_all
            rcases acceptData_cases s s.rx.expectedSeq k p with ⟨hf, e⟩ | ⟨h1, m, h2, e⟩
            · exact .inr (.inl ⟨hr, ⟨k, p, hp, hv, hf⟩, e⟩)
            · exact .inr (.inr (.inr ⟨hr, k, p, m, hp, hv, h1, h2, e⟩))

/-- `RX_READ` answers and changes nothing, or stops at a fault of reading RBUF. -/
theorem execRxRead_cases (offset : Word) (n : BitVec 24) (s : State) :
    (∃ st, execRxRead offset n s = .next (s.respond { status := st, rdata := s.rx.rxLen }) ∧
      st.writesNothing = true) ∨
    (s.rx.rxState = .complete ∧ offset.toNat + n.toNat ≤ s.rx.rxLen ∧
      ((∃ bs, memRead s .rbuf offset.toNat n.toNat = .ok bs ∧ execRxRead offset n s =
          .next (s.respond { status := .ok, rdata := s.rx.rxLen, dout := bs })) ∨
       (∃ f, memRead s .rbuf offset.toNat n.toNat = .error f ∧ execRxRead offset n s = .fault f))) := by
  unfold execRxRead
  split
  · exact .inl ⟨_, rfl, by decide⟩
  · rename_i hc
    split
    · exact .inl ⟨_, rfl, by decide⟩
    · rename_i hl
      refine .inr ⟨by simpa using hc, by omega, ?_⟩
      cases h : memRead s .rbuf offset.toNat n.toNat with
      | error f => exact .inr ⟨f, rfl, rfl⟩
      | ok bs => exact .inl ⟨bs, rfl, rfl⟩

/-- `TX_LOAD` refuses and changes nothing, or starts a session over the loaded buffer; it never stops. -/
theorem execTxLoad_cases (b : Bytes) (ps : Word) (s : State) :
    (∃ st, execTxLoad b ps s = .next (s.respond { status := st }) ∧ st.writesNothing = true ∧
      (s.tx.txState = .active → st = .badState)) ∨
    (s.tx.txState ≠ .active ∧ 1 ≤ ps.toNat ∧ ps.toNat ≤ s.cfg.maxPayload ∧ b.length ≤ s.cfg.txCap ∧
      totalFrames b.length ps.toNat ≤ s.cfg.maxFrames ∧ ∃ m, memWrite s.cfg .tbuf [] 0 b = .ok m ∧ execTxLoad b ps s =
        .next ((s.withTx (loadedUnit m b.length (heldPacketSize b.length ps.toNat))).respond
          { status := .ok, rdata := totalFrames b.length ps.toNat })) := by
  unfold execTxLoad
  split
  · exact .inl ⟨_, rfl, by decide, fun _ => rfl⟩
  · rename_i ha
    split
    · exact .inl ⟨_, rfl, by decide, fun h => absurd h ha⟩
    · rename_i hp
      simp at hp
      split
      · exact .inl ⟨_, rfl, by decide, fun h => absurd h ha⟩
      · obtain ⟨m, hm⟩ := memWrite_of_fits (c := s.cfg) (space := .tbuf) [] (addr := 0) (v := b)
          (by simp [fitsCap]; omega)
        exact .inr ⟨ha, by omega, by omega, by omega, by omega, m, hm, by simp [hm]⟩

/-- `TX_NEXT` emits nothing and changes nothing, or sends the next retransmission, or the next new frame. -/
theorem execTxNext_cases (s : State) :
    (∃ st n, execTxNext s = .next (s.respond { status := st, rdata := n }) ∧ st.writesNothing = true ∧
      ((s.tx.txState ≠ .active ∧ st = .badState ∧ n = 0) ∨
       (s.tx.txState = .active ∧ s.tx.nextSeq ≤ s.tx.sendPtr ∧ sendLimit s ≤ s.tx.nextSeq ∧ n = s.tx.windowBase ∧
        ((s.tx.nextSeq < s.tx.txTotal ∧ st = .windowFull) ∨ (s.tx.txTotal ≤ s.tx.nextSeq ∧ st = .allSent))))) ∨
    (s.tx.txState = .active ∧ s.tx.sendPtr < s.tx.nextSeq ∧ execTxNext s =
      sendFrame s { s.tx with sendPtr := s.tx.sendPtr + 1 } s.tx.sendPtr .retransmit) ∨
    (s.tx.txState = .active ∧ s.tx.nextSeq ≤ s.tx.sendPtr ∧ s.tx.nextSeq < sendLimit s ∧ execTxNext s =
      sendFrame s { s.tx with nextSeq := s.tx.nextSeq + 1, sendPtr := s.tx.nextSeq + 1 } s.tx.nextSeq .ok) := by
  unfold execTxNext
  by_cases ha : s.tx.txState = .active
  · rw [if_neg (by simpa using ha)]
    by_cases h1 : s.tx.sendPtr < s.tx.nextSeq
    · exact .inr (.inl ⟨ha, h1, if_pos h1⟩)
    · rw [if_neg h1]
      by_cases h2 : s.tx.nextSeq < sendLimit s
      · exact .inr (.inr ⟨ha, by omega, h2, if_pos h2⟩)
      · rw [if_neg h2]
        by_cases h3 : s.tx.nextSeq < s.tx.txTotal
        · exact .inl ⟨.windowFull, s.tx.windowBase, if_pos h3, rfl,
            .inr ⟨ha, by omega, by omega, rfl, .inl ⟨h3, rfl⟩⟩⟩
        · exact .inl ⟨.allSent, s.tx.windowBase, if_neg h3, rfl,
            .inr ⟨ha, by omega, by omega, rfl, .inr ⟨by omega, rfl⟩⟩⟩
  · exact .inl ⟨.badState, 0, if_pos ha, rfl, .inl ⟨ha, rfl, rfl⟩⟩

/-- `TX_ACK` ignores the datagram; or notes the marker; or advances the window past the frame it acknowledges; or stops
at a fault of reading TBUF. -/
theorem execTxAck_cases (raw : Bytes) (s : State) :
    (∃ st n, execTxAck raw s = .next (s.respond { status := st, rdata := n }) ∧ st.writesNothing = true ∧
      (s.tx.txState = .idle → st = .badState) ∧
      (n = 0 ∨ n = raw.length ∨ ∃ k, parseAck s.cfg raw = .ack n k)) ∨
    (s.tx.txState ≠ .idle ∧ raw = s.cfg.termMarker ∧ execTxAck raw s =
      .next ((s.withTx { s.tx with termSeen := true }).respond { status := .termSeen })) ∨
    (s.tx.txState ≠ .idle ∧ ∃ seq k, parseAck s.cfg raw = .ack seq k ∧ s.tx.windowBase ≤ seq ∧ seq < s.tx.nextSeq ∧
      ((expectedCk s seq = .ok k ∧ execTxAck raw s = advanceWindow s seq) ∨
       (∃ f, expectedCk s seq = .error f ∧ execTxAck raw s = .fault f))) := by
  unfold execTxAck
  split
  · exact .inl ⟨_, _, rfl, by decide, fun _ => rfl, .inl rfl⟩
  · rename_i hi
    split
    · rename_i h
      rcases parseAck_cases s.cfg raw with ⟨_, e⟩ | ⟨e, _⟩ | ⟨e, _⟩
      · exact .inr (.inl ⟨hi, e, rfl⟩)
      · rw [e] at h; cases h
      · rw [e] at h; cases h
    · exact .inl ⟨_, _, rfl, by decide, fun h => absurd h hi, .inr (.inl rfl)⟩
    · rename_i seq k hp
      split
      · exact .inl ⟨_, _, rfl, by decide, fun h => absurd h hi, .inr (.inr ⟨k, hp⟩)⟩
      · rename_i h1
        split
        · exact .inl ⟨_, _, rfl, by decide, fun h => absurd h hi, .inr (.inr ⟨k, hp⟩)⟩
        · rename_i h2
          cases h : expectedCk s seq with
          | error f => exact .inr (.inr ⟨hi, seq, k, hp, by omega, by omega, .inr ⟨f, h, rfl⟩⟩)
          | ok e =>
            by_cases he : k = e
            · subst he
              exact .inr (.inr ⟨hi, seq, k, hp, by omega, by omega, .inl ⟨h, by simp⟩⟩)
            · exact .inl ⟨.invalidAck, seq, by simp [he], rfl, fun h => absurd h hi, .inr (.inr ⟨k, hp⟩)⟩

/-- `TX_TIMEOUT` is spurious and changes nothing, or rewinds the send cursor. -/
theorem execTxTimeout_cases (s : State) :
    ((s.tx.txState ≠ .active ∨ s.tx.windowBase = s.tx.nextSeq) ∧ execTxTimeout s =
      .next (s.respond { status := .spuriousTimeout })) ∨
    (s.tx.txState = .active ∧ s.tx.windowBase ≠ s.tx.nextSeq ∧ execTxTimeout s =
      .next ((s.withTx { s.tx with sendPtr := s.tx.windowBase }).respond
        { status := .timeout, rdata := s.tx.windowBase, timer := .restart })) := by
  unfold execTxTimeout
  by_cases h : s.tx.txState ≠ .active ∨ s.tx.windowBase = s.tx.nextSeq
  · exact .inl ⟨h, if_pos (by simpa using h)⟩
  · exact .inr ⟨by tauto, by tauto, if_neg (by simpa using h)⟩

/-- `RD_REG` answers and changes nothing. -/
theorem execRdReg_cases (n : BitVec 24) (s : State) :
    (registerOf n.toNat = none ∧ execRdReg n s = .next (s.respond { status := .badParam, rdata := n.toNat })) ∨
    (∃ g, registerOf n.toNat = some g ∧ execRdReg n s = .next (s.respond { status := .ok, rdata := g.value s })) := by
  unfold execRdReg
  cases h : registerOf n.toNat with
  | none => exact .inl ⟨rfl, rfl⟩
  | some g => exact .inr ⟨g, rfl, rfl⟩

/-- What a register reads as fits the bits the map gives it. -/
theorem Register.value_lt (s : State) (g : Register) : g.value s < 2 ^ g.width s.cfg := by
  unfold Register.value
  split
  · assumption
  · exact Nat.mod_lt _ (by positivity)

/-- Every number of the map names its register. -/
theorem registerOf_number (g : Register) : registerOf g.number = some g := by cases g <;> rfl

end Sys2Proof.Machine
end

