-- ==== Sys2Proof/Laws/PerInstr.lean ====
section
/-! SUPPORT. A statement about every operation as syntax, one lemma per constructor: its encoding has the words and the
must-be-zero field of its format, and its first word begins with its row's opcode (30_encoding.md R102, R105, R107). -/

namespace Sys2Proof.Laws

/-- The encoding of an operation has the shape of its format. -/
def FormatShape.Statement (i : Instr) : Prop :=
  (encode i).words.length = (if i.op.format.hasWord1 then 2 else 1) ∧
  (i.op.format = .N ∨ i.op.format = .W → i.fieldA = 0#24) ∧
  (i.wf → (encode i).din.length = i.op.format.dinLen i.fieldA) ∧
  i.word0.extractLsb' 24 8 = i.op.code

theorem FormatShape.len_eq {b : Bytes} (h : lenFits b) : b.length = (BitVec.ofNat 24 b.length).toNat := by
  rw [BitVec.toNat_ofNat, Nat.mod_eq_of_lt h]

theorem FormatShape.encFrame (seq : Word) (payload : Bytes) : FormatShape.Statement (.encFrame seq payload) :=
  ⟨rfl, by simp [Instr.op, Opcode.format], FormatShape.len_eq, opByte_word0 _⟩

theorem FormatShape.encMeta (total : Word) : FormatShape.Statement (.encMeta total) :=
  ⟨rfl, fun _ => rfl, fun _ => rfl, opByte_word0 _⟩

theorem FormatShape.encAck (seq : Word) (ck : Bytes) : FormatShape.Statement (.encAck seq ck) :=
  ⟨rfl, by simp [Instr.op, Opcode.format], FormatShape.len_eq, opByte_word0 _⟩

theorem FormatShape.decFrame (raw : Bytes) : FormatShape.Statement (.decFrame raw) :=
  ⟨rfl, by simp [Instr.op, Opcode.format], FormatShape.len_eq, opByte_word0 _⟩

theorem FormatShape.decAck (raw : Bytes) : FormatShape.Statement (.decAck raw) :=
  ⟨rfl, by simp [Instr.op, Opcode.format], FormatShape.len_eq, opByte_word0 _⟩

theorem FormatShape.verify (raw : Bytes) : FormatShape.Statement (.verify raw) :=
  ⟨rfl, by simp [Instr.op, Opcode.format], FormatShape.len_eq, opByte_word0 _⟩

theorem FormatShape.rxFrame (raw : Bytes) : FormatShape.Statement (.rxFrame raw) :=
  ⟨rfl, by simp [Instr.op, Opcode.format], FormatShape.len_eq, opByte_word0 _⟩

theorem FormatShape.rxRead (offset : Word) (n : BitVec 24) : FormatShape.Statement (.rxRead offset n) :=
  ⟨rfl, by simp [Instr.op, Opcode.format], fun _ => rfl, opByte_word0 _⟩

theorem FormatShape.rxReset : FormatShape.Statement .rxReset :=
  ⟨rfl, fun _ => rfl, fun _ => rfl, opByte_word0 _⟩

theorem FormatShape.txLoad (payload : Bytes) (packetSize : Word) : FormatShape.Statement (.txLoad payload packetSize) :=
  ⟨rfl, by simp [Instr.op, Opcode.format], FormatShape.len_eq, opByte_word0 _⟩

theorem FormatShape.txNext : FormatShape.Statement .txNext :=
  ⟨rfl, fun _ => rfl, fun _ => rfl, opByte_word0 _⟩

theorem FormatShape.txAck (raw : Bytes) : FormatShape.Statement (.txAck raw) :=
  ⟨rfl, by simp [Instr.op, Opcode.format], FormatShape.len_eq, opByte_word0 _⟩

theorem FormatShape.txTimeout : FormatShape.Statement .txTimeout :=
  ⟨rfl, fun _ => rfl, fun _ => rfl, opByte_word0 _⟩

theorem FormatShape.txAbort : FormatShape.Statement .txAbort :=
  ⟨rfl, fun _ => rfl, fun _ => rfl, opByte_word0 _⟩

theorem FormatShape.rdReg (n : BitVec 24) : FormatShape.Statement (.rdReg n) :=
  ⟨rfl, by simp [Instr.op, Opcode.format], fun _ => rfl, opByte_word0 _⟩

theorem FormatShape.reset : FormatShape.Statement .reset :=
  ⟨rfl, fun _ => rfl, fun _ => rfl, opByte_word0 _⟩

end Sys2Proof.Laws
end

