-- ==== Sys2Proof/Machine/Listing.lean ====
section
/-! DEFINITION. The textual syntax of operations and responses (30_encoding.md R114), as the text a listing shows. Numbers
are written in decimal and byte strings as hex bytes in braces, one of the spellings R114 allows for each. -/

namespace Sys2Proof.Machine

/-- A hex digit, upper case as the spec prints them. -/
def hexDigit (n : Nat) : Char := Char.ofNat (if n < 10 then 48 + n else 55 + n)

/-- A byte as two hex digits (R9). -/
def byteText (b : Byte) : String := String.ofList [hexDigit (b.toNat / 16), hexDigit (b.toNat % 16)]

/-- Bytes separated by spaces (R9). -/
def bytesText (bs : Bytes) : String := String.intercalate " " (bs.map byteText)

/-- A byte string as an operand: hex bytes between braces (characters 123 and 125). -/
def bytesOperand (bs : Bytes) : String :=
  String.singleton (Char.ofNat 123) ++ bytesText bs ++ String.singleton (Char.ofNat 125)

/-- A number in decimal. -/
def numText (n : Nat) : String := toString n

/-- One operation of a listing (R114), operands in the order R114 gives. -/
def operationText : Instr → String
  | .encFrame seq payload => "ENC_FRAME " ++ numText seq.toNat ++ ", " ++ bytesOperand payload
  | .encMeta total => "ENC_META " ++ numText total.toNat
  | .encAck seq ck => "ENC_ACK " ++ numText seq.toNat ++ ", " ++ bytesOperand ck
  | .decFrame raw => "DEC_FRAME " ++ bytesOperand raw
  | .decAck raw => "DEC_ACK " ++ bytesOperand raw
  | .verify raw => "VERIFY " ++ bytesOperand raw
  | .rxFrame raw => "RX_FRAME " ++ bytesOperand raw
  | .rxRead offset n => "RX_READ " ++ numText offset.toNat ++ ", " ++ numText n.toNat
  | .rxReset => "RX_RESET"
  | .txLoad payload packetSize => "TX_LOAD " ++ bytesOperand payload ++ ", " ++ numText packetSize.toNat
  | .txNext => "TX_NEXT"
  | .txAck raw => "TX_ACK " ++ bytesOperand raw
  | .txTimeout => "TX_TIMEOUT"
  | .txAbort => "TX_ABORT"
  | .rdReg n => "RD_REG " ++ numText n.toNat
  | .reset => "RESET"

/-- The name column of R251. -/
def Status.text : Status → String
  | .ok => "OK"
  | .malformedFrame => "MALFORMED_FRAME"
  | .checksumMismatch => "CHECKSUM_MISMATCH"
  | .sequenceMismatch => "SEQUENCE_MISMATCH"
  | .timeout => "TIMEOUT"
  | .invalidProbability => "INVALID_PROBABILITY"
  | .transportFailure => "TRANSPORT_FAILURE"
  | .done => "DONE"
  | .alreadyComplete => "ALREADY_COMPLETE"
  | .retransmit => "RETRANSMIT"
  | .termSeen => "TERM_SEEN"
  | .illegalOp => "ILLEGAL_OP"
  | .badParam => "BAD_PARAM"
  | .badState => "BAD_STATE"
  | .oversizeFrame => "OVERSIZE_FRAME"
  | .badMetadata => "BAD_METADATA"
  | .overflow => "OVERFLOW"
  | .notComplete => "NOT_COMPLETE"
  | .staleAck => "STALE_ACK"
  | .invalidAck => "INVALID_ACK"
  | .windowFull => "WINDOW_FULL"
  | .allSent => "ALL_SENT"
  | .spuriousTimeout => "SPURIOUS_TIMEOUT"

/-- The names of R111. -/
def TimerCmd.text : TimerCmd → String
  | .none => "NONE"
  | .start => "START"
  | .restart => "RESTART"
  | .stop => "STOP"

/-- A response of a listing (R114): a field that is 0, empty or `NONE` is omitted. -/
def responseText (r : Response) : String :=
  "-> " ++ r.status.text
    ++ (if r.rdata = 0 then "" else " RDATA=" ++ numText r.rdata)
    ++ (if r.dout = [] then "" else " DOUT=" ++ bytesText r.dout)
    ++ (if r.wire = [] then "" else " WIRE=[" ++ String.intercalate ", " (r.wire.map bytesText) ++ "]")
    ++ (if r.timer = .none then "" else " TIMER=" ++ r.timer.text)

end Sys2Proof.Machine
end

