-- ==== Sys2Proof/Tests/Slice0.lean ====
section
/-! SUPPORT. The model's own tests: well-formedness, decoding, one or two vectors of 95_test_vectors.md per operation,
and for each statement with hypotheses a state and operands that meet them. Expected results are the spec's: each
test names the vector, program step or rule it takes them from. -/

namespace Sys2Proof.Tests

open Sys2Proof Sys2Proof.Machine

/-! ## Helpers -/

/-- The response of one operation. -/
def resp (i : Instr) (s : State) : Option Response := (perform i s).map Prod.fst

/-- The state after one operation. -/
def after (i : Instr) (s : State) : Option State := (perform i s).map Prod.snd

def z12 : Bytes := List.replicate 12 0#8
def hello : Bytes := [0x48, 0x45, 0x4C, 0x4C, 0x4F, 0x57, 0x4F, 0x52, 0x4C, 0x44]
def ck0 : Bytes := z12 ++ [0x01, 0x04, 0x06, 0x08]
def ck1 : Bytes := z12 ++ [0x4A, 0x22, 0xB5, 0x29]
def ck2 : Bytes := z12 ++ [0x51, 0x49, 0xF1, 0x4B]
def ck3 : Bytes := z12 ++ [0x00, 0x00, 0x4D, 0x92]

/-- Frames `F0` to `F3` and acknowledgments `A0` to `A3` of 95_test_vectors.md, 2.2. -/
def a0 : Bytes := [0, 0, 0, 0] ++ ck0
def a1 : Bytes := [0, 0, 0, 1] ++ ck1
def a2 : Bytes := [0, 0, 0, 2] ++ ck2
def a3 : Bytes := [0, 0, 0, 3] ++ ck3
def f0 : Bytes := a0 ++ [0, 0, 0, 4]
def f1 : Bytes := a1 ++ [0x48, 0x45, 0x4C, 0x4C]
def f2 : Bytes := a2 ++ [0x4F, 0x57, 0x4F, 0x52]
def f3 : Bytes := a3 ++ [0x4C, 0x44]
def term : Bytes := [0x54, 0x45, 0x52, 0x4D]

/-- The metadata frame of an empty transfer (VR9), and a frame of sequence number 0 that declares no frame (VR7). -/
def fOne : Bytes := [0, 0, 0, 0] ++ z12 ++ [0x01, 0x04, 0x06, 0x05] ++ [0, 0, 0, 1]
def fZero : Bytes := [0, 0, 0, 0] ++ z12 ++ [0x01, 0x04, 0x06, 0x04] ++ [0, 0, 0, 0]

/-- The receiver after VR1 (`F0`), VR10 (`F1`), `F2`, VR17 (`F3`): `n` frames of "HELLOWORLD" accepted. -/
def rxAfter (st : RxState) (n len : Nat) (k : Bytes) : RxUnit where
  rxState := st
  expectedSeq := n
  rxTotal := 4
  lastAckValid := true
  lastAckSeq := n - 1
  lastAckCk := k
  rxLen := len
  overflow := false
  rbuf := Memory.cellsFrom 0 (hello.take len)

def vr1 : State := State.reset.withRx (rxAfter .receiving 1 0 ck0)
def vr10 : State := State.reset.withRx (rxAfter .receiving 2 4 ck1)
def vr16 : State := State.reset.withRx (rxAfter .receiving 3 8 ck2)
def vr17 : State := State.reset.withRx (rxAfter .complete 4 10 ck3)

/-- The sender with "HELLOWORLD" loaded in packets of 4 bytes, at the given cursors. -/
def txAt (st : TxState) (base next ptr : Nat) (armed : Bool) : TxUnit where
  txState := st
  txTotal := 4
  windowBase := base
  nextSeq := next
  sendPtr := ptr
  txLen := 10
  packetSize := 4
  timerArmed := armed
  termSeen := false
  tbuf := Memory.cellsFrom 0 hello

def vt14 : State := State.reset.withTx (txAt .active 0 0 0 false)
def vt18 : State := State.reset.withTx (txAt .active 0 1 1 true)
def vt19 : State := State.reset.withTx (txAt .active 0 4 4 true)
def vt21 : State := State.reset.withTx (txAt .active 2 4 4 true)
def vt29 : State := State.reset.withTx (txAt .active 2 4 2 true)
def vt33 : State := State.reset.withTx (txAt .done 4 4 4 false)

/-- A block of other parameters: one-byte sequence numbers, a window of one frame, room for four bytes in RBUF. -/
def smallConfig : Config :=
  { Config.defaults with seqBytes := 1, maxPayload := 4, windowSize := 1, txCap := 300, rxCap := some 4 }

def small : State := State.resetWith smallConfig

/-- Sequence number `n`, the checksum of "AB", and "AB", in that block. -/
def smallFrame (n : Byte) : Bytes := n :: z12 ++ [0x00, 0x00, 0x42, 0x85, 0x41, 0x42]

/-- A receiver of that block whose RBUF holds 3 of 4 bytes. -/
def smallRx : State := small.withRx
  { rxState := .receiving, expectedSeq := 2, rxTotal := 3, lastAckValid := true, lastAckSeq := 1,
    lastAckCk := z12 ++ [0x00, 0x00, 0x42, 0x85], rxLen := 3, overflow := false,
    rbuf := Memory.cellsFrom 0 [0x41, 0x42, 0x43] }

/-- That receiver after it refused a frame of two bytes, and a frame of one byte that would fit. -/
def overRx : State := small.withRx { smallRx.rx with overflow := true }
def fittingFrame : Bytes := 2#8 :: z12 ++ [0, 0, 0, 0x42, 0x41]

/-- A sender of that block, "ABCD" in packets of 2 (3 frames), after the frames below `next` were sent. -/
def smallTx (base next ptr : Nat) (armed : Bool) : State := small.withTx
  { txState := .active, txTotal := 3, windowBase := base, nextSeq := next, sendPtr := ptr, txLen := 4, packetSize := 2,
    timerArmed := armed, termSeen := false, tbuf := Memory.cellsFrom 0 [0x41, 0x42, 0x43, 0x44] }

/-- A block whose packets may pass the 24 bits of range of `packet_size`. -/
def wide : State := State.resetWith { Config.defaults with maxPayload := 2 ^ 32 }

/-! ## Well-formedness -/

/-- R101, R103: a byte string of 2^24 bytes has no length field. -/
theorem test_wf_refuses_a_byte_string_that_is_too_long : ¬ (Instr.rxFrame (List.replicate (2 ^ 24) 0#8)).wf := by
  unfold Instr.wf Instr.din lenFits
  rw [List.length_replicate]
  decide

theorem test_wf_admits_the_longest_byte_string : (Instr.rxFrame (List.replicate (2 ^ 24 - 1) 0#8)).wf := by
  unfold Instr.wf Instr.din lenFits
  rw [List.length_replicate]
  decide

/-- R6: the defaults are legal. -/
theorem test_config_defaults_wf : Config.defaults.wf := by decide
theorem test_config_small_wf : smallConfig.wf := by decide

theorem test_config_refuses_no_sequence_byte : ¬ { Config.defaults with seqBytes := 0 }.wf := by decide
theorem test_config_refuses_five_sequence_bytes : ¬ { Config.defaults with seqBytes := 5 }.wf := by decide
theorem test_config_refuses_no_checksum_byte :
    ¬ { Config.defaults with ckBytes := 0, ckFunction := .other 0 }.wf := by decide
theorem test_config_refuses_short_payload : ¬ { Config.defaults with maxPayload := 3 }.wf := by decide
theorem test_config_refuses_no_window : ¬ { Config.defaults with windowSize := 0 }.wf := by decide
theorem test_config_refuses_large_tbuf : ¬ { Config.defaults with txCap := 2 ^ 24 }.wf := by decide
theorem test_config_refuses_empty_marker : ¬ { Config.defaults with termMarker := [] }.wf := by decide
theorem test_config_refuses_marker_of_header_length :
    ¬ { Config.defaults with termMarker := List.replicate 20 0#8 }.wf := by decide
theorem test_config_refuses_reference_of_other_width : ¬ { Config.defaults with ckBytes := 15 }.wf := by decide

/-! ## Decoding: one word of every operation, written from R101, R102 and R105 -/

theorem test_decode_encFrame :
    decode ⟨[0x01000002, 0x80000001], [0x41, 0x42]⟩ = .instr (.encFrame 0x80000001 [0x41, 0x42]) ⟨[], []⟩ := by decide
theorem test_decode_encMeta : decode ⟨[0x02000000, 0x00000004], []⟩ = .instr (.encMeta 4) ⟨[], []⟩ := by decide
theorem test_decode_encAck :
    decode ⟨[0x03000001, 0x00000007], [0xFF]⟩ = .instr (.encAck 7 [0xFF]) ⟨[], []⟩ := by decide
theorem test_decode_decFrame :
    decode ⟨[0x04000002, 0x21000000], [1, 2, 3]⟩ = .instr (.decFrame [1, 2]) ⟨[0x21000000], [3]⟩ := by decide
theorem test_decode_decAck : decode ⟨[0x05000004], term⟩ = .instr (.decAck term) ⟨[], []⟩ := by decide
theorem test_decode_verify : decode ⟨[0x06000000], [9]⟩ = .instr (.verify []) ⟨[], [9]⟩ := by decide
/-- P1, step 7. -/
theorem test_decode_rxFrame : decode ⟨[0x10000018], f0⟩ = .instr (.rxFrame f0) ⟨[], []⟩ := by decide
/-- P6, step 6. -/
theorem test_decode_rxRead : decode ⟨[0x11000002, 0x00000000], []⟩ = .instr (.rxRead 0 2) ⟨[], []⟩ := by decide
/-- P6, step 7. -/
theorem test_decode_rxReset : decode ⟨[0x12000000], []⟩ = .instr .rxReset ⟨[], []⟩ := by decide
/-- P4, step 1. -/
theorem test_decode_txLoad : decode ⟨[0x20000000, 0x00000040], []⟩ = .instr (.txLoad [] 64) ⟨[], []⟩ := by decide
theorem test_decode_txNext : decode ⟨[0x21000000], []⟩ = .instr .txNext ⟨[], []⟩ := by decide
/-- P1, step 8. -/
theorem test_decode_txAck : decode ⟨[0x22000014], a0⟩ = .instr (.txAck a0) ⟨[], []⟩ := by decide
/-- P2, step 15. -/
theorem test_decode_txTimeout : decode ⟨[0x23000000], []⟩ = .instr .txTimeout ⟨[], []⟩ := by decide
/-- P6, step 2. -/
theorem test_decode_txAbort : decode ⟨[0x24000000], []⟩ = .instr .txAbort ⟨[], []⟩ := by decide
/-- P6, step 11. -/
theorem test_decode_rdReg : decode ⟨[0x30000012], []⟩ = .instr (.rdReg 0x12) ⟨[], []⟩ := by decide
/-- P6, step 12. -/
theorem test_decode_reset : decode ⟨[0x3F000000], []⟩ = .instr .reset ⟨[], []⟩ := by decide

/-- VY9 to VY13: words that select nothing. -/
theorem test_decode_refuses :
    ([0x00000000, 0x21000001, 0x02000001, 0x07000000, 0x0F000000, 0x13000000, 0x1F000000, 0x25000000, 0x2F000000,
      0x31000000, 0x3E000000, 0x40000000, 0xFF000000, 0x3F000001] : List Word).all (fun w => selectOp w == none) := by
  decide

/-- R107: a command that lacks a word or a byte is not decoded. -/
theorem test_decode_waits :
    decode ⟨[0x02000000], []⟩ = .incomplete ∧ decode ⟨[0x04000002], [1]⟩ = .incomplete ∧ decode ⟨[], [1]⟩ = .idle := by
  decide

/-- R105: no two rows of the table can both be selected: their patterns differ where both masks have a 1. -/
theorem test_rows_do_not_overlap :
    opcodeTable.Pairwise (fun r q => (r.mask &&& q.mask) &&& (r.pattern ^^^ q.pattern) ≠ 0) := by decide

/-- The bits of opcode_table.json, `word0` first: an operand word and data bytes above them. -/
theorem test_decodeTableWord_counts_from_word0 :
    decodeTableWord 32 0x21000000 = some .txNext ∧ decodeTableWord 32 0x11000005 = some (.rxRead 0 5) ∧
    decodeTableWord 64 0x0000000411000005 = some (.rxRead 4 5) ∧
    decodeTableWord 48 0x020104000002 = some (.decFrame [1, 2]) ∧ decodeTableWord 32 0x21000001 = none := by decide

/-- What is stored where the step takes its next command is what the next step performs. -/
theorem test_withFetchWord_runs :
    decode (State.reset.withFetchWord 32 0x30000020).port = .instr (.rdReg 0x20) ⟨[], []⟩ ∧
    step (State.reset.withFetchWord 32 0x30000020) =
      exec (.rdReg 0x20) (State.reset.withPort ⟨[], []⟩) := ⟨by decide, rfl⟩

/-! ## The checksum (95_test_vectors.md, 2.1) -/

theorem test_ckRef_vectors :
    ck Config.defaults [] = List.replicate 16 0#8 ∧
    ck Config.defaults [0x00] = z12 ++ [0, 0, 0, 1] ∧
    ck Config.defaults [0x00, 0x00] = z12 ++ [0, 0, 1, 2] ∧
    ck Config.defaults [0x41, 0x42] = z12 ++ [0x00, 0x00, 0x42, 0x85] ∧
    ck Config.defaults [0x42, 0x41] = z12 ++ [0x00, 0x00, 0x43, 0x85] ∧
    ck Config.defaults [0xFF, 0xFF, 0xFF, 0xFF] = List.replicate 11 0#8 ++ [0x01, 0x04, 0x06, 0x04, 0x00] := by decide

/-- The reduction modulo 2^128. -/
theorem test_ckRef_wraps :
    ck Config.defaults (List.replicate 20 0xFF#8) =
      [0x28, 0x98, 0xBE, 0xA4, 0xEC, 0x46, 0x05, 0x41, 0x67, 0xA4, 0xA2, 0xF1, 0x74, 0xBE, 0x14, 0x00] := by decide

/-! ## Codec operations (95_test_vectors.md, 2.2) -/

/-- VC1. -/
theorem test_encFrame : resp (.encFrame 1 [0x48, 0x45, 0x4C, 0x4C]) .reset = some { status := .ok, wire := [f1] } := by
  decide
/-- VC6, with one-byte sequence numbers. -/
theorem test_encFrame_sequence_too_wide : resp (.encFrame 0x100 [0x41]) small = some { status := .badParam } := by decide
/-- VC7. -/
theorem test_encMeta : resp (.encMeta 4) .reset = some { status := .ok, wire := [f0] } := by decide
/-- VC9. -/
theorem test_encMeta_zero : resp (.encMeta 0) .reset = some { status := .badParam } := by decide
/-- VC11. -/
theorem test_encAck : resp (.encAck 1 ck1) .reset = some { status := .ok, wire := [a1] } := by decide
/-- VC12. -/
theorem test_encAck_short : resp (.encAck 1 [0x4A, 0x22, 0xB5, 0x29]) .reset = some { status := .badParam } := by decide
/-- VC13. -/
theorem test_decFrame :
    resp (.decFrame f1) .reset = some { status := .ok, rdata := 1, dout := ck1 ++ [0x48, 0x45, 0x4C, 0x4C] } := by decide
/-- VC15. -/
theorem test_decFrame_short :
    resp (.decFrame (List.replicate 19 1#8)) .reset = some { status := .malformedFrame, rdata := 19 } := by decide
/-- VC20. -/
theorem test_decAck : resp (.decAck a1) .reset = some { status := .ok, rdata := 1, dout := ck1 } := by decide
/-- VC23. -/
theorem test_decAck_long : resp (.decAck (a1 ++ [0])) .reset = some { status := .invalidAck, rdata := 21 } := by decide
/-- VC27: the checksum does not cover the sequence number. -/
theorem test_verify :
    resp (.verify ([0, 0, 0, 9] ++ ck1 ++ [0x48, 0x45, 0x4C, 0x4C])) .reset = some { status := .ok, rdata := 9 } := by
  decide
/-- VC26. -/
theorem test_verify_mismatch :
    resp (.verify (a1 ++ [0x48, 0x45, 0x4C, 0x4D])) .reset = some { status := .checksumMismatch, rdata := 1 } := by decide

/-! ## RX unit (95_test_vectors.md, 2.3) -/

/-- VR10. -/
theorem test_rxFrame_data :
    resp (.rxFrame f1) vr1 = some { status := .ok, rdata := 1, wire := [a1] } ∧
    (after (.rxFrame f1) vr1).map State.rx = some vr10.rx := by decide
/-- VR17. -/
theorem test_rxFrame_completes :
    resp (.rxFrame f3) vr16 = some { status := .done, rdata := 3, wire := [a3, term] } ∧
    (after (.rxFrame f3) vr16).map State.rx = some vr17.rx := by decide
/-- R163, lines 18 to 30, R258: after an overflow a frame that fits is accepted, and the flag stays (log entry 18). -/
theorem test_rxFrame_after_overflow :
    resp (.rxFrame (smallFrame 2)) smallRx =
      some { status := .overflow, rdata := 2, wire := [1#8 :: z12 ++ [0x00, 0x00, 0x42, 0x85]] } ∧
    (after (.rxFrame (smallFrame 2)) smallRx).map State.rx = some overRx.rx ∧
    resp (.rxFrame fittingFrame) overRx =
      some { status := .done, rdata := 2, wire := [2#8 :: z12 ++ [0, 0, 0, 0x42], term] } ∧
    (after (.rxFrame fittingFrame) overRx).map (fun t => (t.rx.overflow, t.rx.rxLen)) = some (true, 4) := by decide
/-- VR23. -/
theorem test_rxRead :
    resp (.rxRead 6 4) vr17 = some { status := .ok, rdata := 10, dout := [0x4F, 0x52, 0x4C, 0x44] } := by decide
/-- VR26: the sum does not wrap. -/
theorem test_rxRead_far : resp (.rxRead 0xFFFFFFFF 1) vr17 = some { status := .badParam, rdata := 10 } := by decide
/-- VR27. -/
theorem test_rxReset :
    resp .rxReset vr17 = some { status := .ok } ∧
    (after .rxReset vr17).map State.rx = some (RxUnit.reset Config.defaults) := by decide

/-! ## TX unit (95_test_vectors.md, 2.4) -/

/-- VT14. -/
theorem test_txLoad :
    resp (.txLoad hello 4) .reset = some { status := .ok, rdata := 4 } ∧
    (after (.txLoad hello 4) .reset).map State.tx = some vt14.tx := by decide
/-- VT15. -/
theorem test_txLoad_active : resp (.txLoad [0x58] 1) vt14 = some { status := .badState } := by decide
/-- VT18. -/
theorem test_txNext :
    resp .txNext vt14 = some { status := .ok, rdata := 0, wire := [f0], timer := .start } ∧
    (after .txNext vt14).map State.tx = some vt18.tx := by decide
/-- VT30, the first of its three. -/
theorem test_txNext_retransmits : resp .txNext vt29 = some { status := .retransmit, rdata := 2, wire := [f2] } := by
  decide
/-- VT21. -/
theorem test_txAck :
    resp (.txAck a1) vt19 = some { status := .ok, rdata := 1, timer := .restart } ∧
    (after (.txAck a1) vt19).map State.tx = some vt21.tx := by decide
/-- VT33. -/
theorem test_txAck_completes :
    resp (.txAck a3) vt21 = some { status := .done, rdata := 3, timer := .stop } ∧
    (after (.txAck a3) vt21).map State.tx = some vt33.tx := by decide
/-- VT29. -/
theorem test_txTimeout :
    resp .txTimeout vt21 = some { status := .timeout, rdata := 2, timer := .restart } ∧
    (after .txTimeout vt21).map State.tx = some vt29.tx := by decide
/-- VT16. -/
theorem test_txTimeout_spurious : resp .txTimeout vt14 = some { status := .spuriousTimeout } := by decide
/-- VT39. -/
theorem test_txAbort :
    resp .txAbort vt21 = some { status := .ok, timer := .stop } ∧
    (after .txAbort vt21).map State.tx = some TxUnit.reset := by decide

/-! ## System operations (95_test_vectors.md, 2.5) -/

/-- VY6, `RX_LAST_ACK_CK`. -/
theorem test_rdReg : resp (.rdReg 0x06) vr17 = some { status := .ok, rdata := 0x4D92 } := by decide
/-- VY3. -/
theorem test_rdReg_no_such_register : resp (.rdReg 0x07) .reset = some { status := .badParam, rdata := 7 } := by decide
/-- VY7. -/
theorem test_reset :
    resp .reset (vt21.withRx vr10.rx) = some { status := .ok, timer := .stop } ∧
    (after .reset (vt21.withRx vr10.rx)).map State.rx = some (RxUnit.reset Config.defaults) := by decide
/-- VY10, by a step. -/
theorem test_illegal_step :
    step { vt14 with port := ⟨[0x21000001, 0x21000000], [7]⟩ } =
      .next { vt14 with port := ⟨[0x21000000], [7]⟩,
                        response := some { status := .illegalOp, rdata := 0x21000001 } } := rfl

/-- R114: the listing text of VC1 and of a response. -/
theorem test_listing :
    operationText (.rxRead 0 10) = "RX_READ 0, 10" ∧
    responseText { status := .timeout, rdata := 2, timer := .restart } = "-> TIMEOUT RDATA=2 TIMER=RESTART" := by decide

/-! ## Witnesses: for each statement with hypotheses, a state and operands that meet them all -/

theorem inv_reset : Invariant State.reset := ⟨by decide, by decide, by decide⟩
theorem inv_small : Invariant small := ⟨by decide, by decide, by decide⟩
theorem inv_vr1 : Invariant vr1 := ⟨by decide, by decide, by decide⟩
theorem inv_vr10 : Invariant vr10 := ⟨by decide, by decide, by decide⟩
theorem inv_vr16 : Invariant vr16 := ⟨by decide, by decide, by decide⟩
theorem inv_vr17 : Invariant vr17 := ⟨by decide, by decide, by decide⟩
theorem inv_smallRx : Invariant smallRx := ⟨by decide, by decide, by decide⟩
theorem inv_overRx : Invariant overRx := ⟨by decide, by decide, by decide⟩
theorem inv_vt14 : Invariant vt14 := ⟨by decide, by decide, by decide⟩
theorem inv_vt18 : Invariant vt18 := ⟨by decide, by decide, by decide⟩
theorem inv_vt19 : Invariant vt19 := ⟨by decide, by decide, by decide⟩
theorem inv_vt21 : Invariant vt21 := ⟨by decide, by decide, by decide⟩
theorem inv_vt29 : Invariant vt29 := ⟨by decide, by decide, by decide⟩
theorem inv_vt33 : Invariant vt33 := ⟨by decide, by decide, by decide⟩
theorem inv_smallTx : Invariant (smallTx 0 1 1 true) := ⟨by decide, by decide, by decide⟩

theorem witness_DecodeOfEncodeIsTheInstruction : (Instr.txLoad hello 4).wf ∧ (Instr.rxRead 0xFFFFFFFF 0xFFFFFF).wf := by
  decide

theorem witness_EncodeOfDecodeIsThePort :
    decode ⟨[0x10000018, 0x21000000], f0 ++ [7]⟩ = .instr (.rxFrame f0) ⟨[0x21000000], [7]⟩ := by decide

/-- An opcode beside the sixteen, and a must-be-zero field that is 1. -/
theorem witness_IllegalCommandTakesOneWordAndChangesNothing :
    State.reset.resetIn = false ∧
    { State.reset with port := ⟨[0x07000000], []⟩ }.port.words = ((0x07#8 ++ 0#24 : Word) :: []) ∧
    (0x07#8).toNat ∉ [0x01, 0x02, 0x03, 0x04, 0x05, 0x06, 0x10, 0x11, 0x12, 0x20, 0x21, 0x22, 0x23, 0x24, 0x30, 0x3F] ∧
    { State.reset with port := ⟨[0x3F000001], []⟩ }.port.words = ((0x3F#8 ++ 1#24 : Word) :: []) ∧
    (0x3F#8).toNat ∈ [0x02, 0x12, 0x21, 0x23, 0x24, 0x3F] ∧ (1#24 : BitVec 24) ≠ 0#24 := by decide

theorem witness_StepRunsTheDecodedInstruction :
    Instr.txNext.wf ∧ { vt14 with port := ⟨[0x21000000, 5], [6]⟩ }.resetIn = false ∧
    { vt14 with port := ⟨[0x21000000, 5], [6]⟩ }.port = (encode .txNext).append ⟨[5], [6]⟩ := by decide

/-- A word short, a byte short, and nothing presented. -/
theorem witness_StepWaitsForAWholeCommand :
    (Instr.encFrame 1 [2, 3]).wf ∧ State.reset.resetIn = false ∧
    1 < (encode (.encFrame 1 [2, 3])).words.length ∧ 1 < (encode (.encFrame 1 [2, 3])).din.length ∧
    { State.reset with port := ⟨[0x01000002], [2, 3]⟩ }.port =
      ⟨(encode (.encFrame 1 [2, 3])).words.take 1, (encode (.encFrame 1 [2, 3])).din.take 2⟩ ∧
    { State.reset with port := ⟨[0x01000002, 1], [2]⟩ }.port =
      ⟨(encode (.encFrame 1 [2, 3])).words.take 2, (encode (.encFrame 1 [2, 3])).din.take 1⟩ ∧
    State.reset.port = ⟨(encode .txNext).words.take 0, (encode .txNext).din.take 0⟩ := by decide

theorem witness_HardwareResetPutsEveryRegisterAtReset : { vt21 with resetIn := true }.resetIn = true := rfl

/-- The largest sequence number, the longest payload, the largest packet size, a datagram that parses. -/
theorem witness_CodecLaws :
    smallConfig.wf ∧ 255 < 2 ^ smallConfig.seqW ∧ [1#8, 2, 3, 4].length ≤ smallConfig.maxPayload ∧
    ck1.length = smallConfig.ckBytes ∧
    parseFrame smallConfig (smallFrame 2) = .frame 2 (z12 ++ [0x00, 0x00, 0x42, 0x85]) [0x41, 0x42] ∧
    1 ≤ 4 ∧ 4 ≤ smallConfig.maxPayload ∧ totalFrames 1016 4 ≤ smallConfig.maxFrames := by decide

theorem witness_ReferenceChecksumSeesEveryByteChange :
    Config.defaults.ckFunction = .reference ∧ Config.defaults.ckBytes = 16 ∧ hello[9]? = some 0x44#8 ∧
    (0x45#8 : Byte) ≠ 0x44 := by decide

theorem witness_EncFrameEmitsTheFrame :
    ((0xFF : Word).toNat < 2 ^ small.cfg.seqW ∧ [1#8, 2, 3, 4].length ≤ small.cfg.maxPayload) ∧
    ¬ ((0x100 : Word).toNat < 2 ^ small.cfg.seqW ∧ ([] : Bytes).length ≤ small.cfg.maxPayload) := by decide

theorem witness_EncMetaEmitsTheMetadataFrame :
    (1 ≤ (255 : Word).toNat ∧ (255 : Word).toNat ≤ 2 ^ small.cfg.seqW - 1) ∧
    ¬ (1 ≤ (256 : Word).toNat ∧ (256 : Word).toNat ≤ 2 ^ small.cfg.seqW - 1) := by decide

theorem witness_EncAckEmitsTheAcknowledgment :
    ((255 : Word).toNat < 2 ^ small.cfg.seqW ∧ ck1.length = small.cfg.ckBytes) ∧
    ¬ ((256 : Word).toNat < 2 ^ small.cfg.seqW ∧ ck1.length = small.cfg.ckBytes) := by decide

/-- Lengths 16, 17, 21 and 22 of a block whose frames have 17 to 21 bytes. -/
theorem witness_DecFrameSplitsTheDatagram :
    (List.replicate 16 0#8).length < small.cfg.hdrBytes ∧ frameLength small.cfg (List.replicate 17 0#8) ∧
    frameLength small.cfg (List.replicate 21 0#8) ∧ small.cfg.maxRaw < (List.replicate 22 0#8).length := by decide

theorem witness_DecAckClassifiesTheDatagram :
    term = State.reset.cfg.termMarker ∧ a1 ≠ State.reset.cfg.termMarker ∧ a1.length = State.reset.cfg.hdrBytes ∧
    f1 ≠ State.reset.cfg.termMarker ∧ f1.length ≠ State.reset.cfg.hdrBytes := by decide

theorem witness_VerifyComparesTheChecksum :
    frameLength small.cfg (smallFrame 7) ∧ checksumGood small.cfg (smallFrame 7) ∧
    frameLength small.cfg (List.replicate 21 0#8) ∧ ¬ checksumGood small.cfg (List.replicate 21 0#8) := by decide

theorem witness_CodecOperationsTouchNoState :
    (Instr.verify f1).isCodec = true ∧ vt21.cfg = Config.defaults ∧ small.cfg = smallConfig := ⟨rfl, rfl, rfl⟩

/-- One state and datagram for each of the seven rejections. -/
theorem witness_RxFrameRejectsInOrder :
    vr17.rx.rxState = .complete ∧
    (vr10.rx.rxState ≠ .complete ∧ term.length < vr10.cfg.hdrBytes) ∧
    (smallRx.rx.rxState ≠ .complete ∧ smallRx.cfg.maxRaw < (List.replicate 22 0#8).length) ∧
    (vr10.rx.rxState ≠ .complete ∧ frameLength vr10.cfg f3 ∧ seqField vr10.cfg f3 ≠ vr10.rx.expectedSeq) ∧
    (vr10.rx.rxState ≠ .complete ∧ frameLength vr10.cfg (a2 ++ [0x4F]) ∧
      seqField vr10.cfg (a2 ++ [0x4F]) = vr10.rx.expectedSeq ∧ ¬ checksumGood vr10.cfg (a2 ++ [0x4F])) ∧
    (State.reset.rx.rxState = .awaitInit ∧ frameLength State.reset.cfg fZero ∧
      seqField State.reset.cfg fZero = State.reset.rx.expectedSeq ∧ checksumGood State.reset.cfg fZero ∧
      ube (fZero.drop State.reset.cfg.hdrBytes) = 0) ∧
    (smallRx.cfg.rxCap = some 4 ∧ smallRx.rx.rxState = .receiving ∧ frameLength smallRx.cfg (smallFrame 2) ∧
      seqField smallRx.cfg (smallFrame 2) = smallRx.rx.expectedSeq ∧ checksumGood smallRx.cfg (smallFrame 2) ∧
      4 < smallRx.rx.rxLen + ((smallFrame 2).length - smallRx.cfg.hdrBytes)) := by decide

/-- A transfer of four frames, and one of the metadata frame alone. -/
theorem witness_RxFrameAcceptsTheMetadataFrame :
    State.reset.rx.rxState = .awaitInit ∧
    (frameLength State.reset.cfg f0 ∧ f0.length = State.reset.cfg.hdrBytes + State.reset.cfg.seqBytes ∧
      seqField State.reset.cfg f0 = State.reset.rx.expectedSeq ∧ checksumGood State.reset.cfg f0 ∧
      ube (f0.drop State.reset.cfg.hdrBytes) ≠ 0 ∧
      State.reset.rx.expectedSeq + 1 ≠ ube (f0.drop State.reset.cfg.hdrBytes)) ∧
    (frameLength State.reset.cfg fOne ∧ fOne.length = State.reset.cfg.hdrBytes + State.reset.cfg.seqBytes ∧
      seqField State.reset.cfg fOne = State.reset.rx.expectedSeq ∧ checksumGood State.reset.cfg fOne ∧
      State.reset.rx.expectedSeq + 1 = ube (fOne.drop State.reset.cfg.hdrBytes)) := by decide

/-- A frame that is not the last, the last frame, and one that fills RBUF exactly. -/
theorem witness_RxFrameAppendsTheDataFrame :
    (vr1.rx.rxState = .receiving ∧ vr1.rx.overflow = false ∧ frameLength vr1.cfg f1 ∧ seqField vr1.cfg f1 = vr1.rx.expectedSeq ∧
      checksumGood vr1.cfg f1 ∧ vr1.cfg.rxCap = some 65536 ∧ vr1.rx.rxLen + (f1.length - vr1.cfg.hdrBytes) ≤ 65536 ∧
      vr1.rx.expectedSeq + 1 ≠ vr1.rx.rxTotal) ∧
    (vr16.rx.rxState = .receiving ∧ vr16.rx.overflow = false ∧ frameLength vr16.cfg f3 ∧ seqField vr16.cfg f3 = vr16.rx.expectedSeq ∧
      checksumGood vr16.cfg f3 ∧ vr16.rx.expectedSeq + 1 = vr16.rx.rxTotal) ∧
    (smallRx.rx.rxState = .receiving ∧ smallRx.rx.overflow = false ∧ frameLength smallRx.cfg fittingFrame ∧
      seqField smallRx.cfg fittingFrame = smallRx.rx.expectedSeq ∧ checksumGood smallRx.cfg fittingFrame ∧
      smallRx.cfg.rxCap = some 4 ∧ smallRx.rx.rxLen + (fittingFrame.length - smallRx.cfg.hdrBytes) = 4) := by decide

theorem witness_RxDuplicateDeliveryIsIdempotent :
    ∃ t r, exec (.rxFrame f1) vr1 = .next t ∧ t.response = some r ∧ accepted r := ⟨_, _, rfl, rfl, by decide⟩

/-- A frame ahead of the gap; a frame refused for want of room, and the datagrams that may follow: the same again, one of
another sequence number, one with a wrong checksum. -/
theorem witness_RxDiscardsEverythingAheadOfTheGap :
    (Invariant vr10 ∧ vr10.rx.rxState = .receiving ∧ frameLength vr10.cfg f3 ∧
      vr10.rx.expectedSeq < seqField vr10.cfg f3) ∧
    (∃ t r, exec (.rxFrame (smallFrame 2)) smallRx = .next t ∧ t.response = some r ∧ r.status = .overflow) ∧
    (∀ raw ∈ [smallFrame 2, smallFrame 1, fittingFrame ++ [0]], frameLength smallRx.cfg raw →
      seqField smallRx.cfg raw = seqField smallRx.cfg (smallFrame 2) → checksumGood smallRx.cfg raw →
      raw = smallFrame 2) ∧
    Invariant smallRx ∧ Invariant overRx :=
  ⟨⟨inv_vr10, by decide⟩, ⟨_, _, rfl, rfl, rfl⟩, by decide, inv_smallRx, inv_overRx⟩

/-- The last byte, one past it, nothing at the end, and a buffer not complete. -/
theorem witness_RxReadReturnsTheAssembledBytes :
    Invariant vr17 ∧ vr17.rx.rxState = .complete ∧ (9 : Word).toNat + (1 : BitVec 24).toNat ≤ vr17.rx.rxLen ∧
    (10 : Word).toNat + (0 : BitVec 24).toNat ≤ vr17.rx.rxLen ∧
    vr17.rx.rxLen < (10 : Word).toNat + (1 : BitVec 24).toNat ∧ vr10.rx.rxState ≠ .complete := ⟨inv_vr17, by decide⟩

theorem witness_ReceiverDeliversInOrder : vt21.cfg.wf ∧ vt21.rx = RxUnit.reset vt21.cfg := ⟨by decide, rfl⟩

/-- A buffer that fills RBUF, in the largest packets and in the smallest. -/
theorem witness_EncodedBufferIsReassembledExactly :
    small.cfg.wf ∧ 4 ≤ small.cfg.maxPayload ∧ totalFrames [1#8, 2, 3, 4].length 4 ≤ small.cfg.maxFrames ∧
    totalFrames [1#8, 2, 3, 4].length 1 ≤ small.cfg.maxFrames ∧
    small.cfg.rxCap = some 4 ∧ [1#8, 2, 3, 4].length ≤ 4 := by decide

/-- `n` pieces of one byte. -/
theorem leastPieces_one (n : Nat) : leastPieces n 1 n :=
  ⟨Nat.le_of_eq (Nat.mul_one n).symm, fun q h => Nat.mul_one q ▸ h⟩

theorem Word.toNat_one : (1 : Word).toNat = 1 := rfl

/-- Refusals by the state, by each operand and by the frame count; the largest session and the largest packet size. -/
theorem witness_TxLoadStartsTheSession :
    vt14.tx.txState = .active ∧ small.tx.txState ≠ .active ∧ (0 : Word).toNat = 0 ∧
    small.cfg.maxPayload < (5 : Word).toNat ∧ small.cfg.txCap < (List.replicate 301 0#8).length ∧
    (1 : Word).toNat ≤ small.cfg.maxPayload ∧
    ((List.replicate 255 0#8).length ≤ small.cfg.txCap ∧ leastPieces (List.replicate 255 0#8).length (1 : Word).toNat 255 ∧
      small.cfg.maxFrames < 1 + 255) ∧
    (leastPieces (List.replicate 254 0#8).length (1 : Word).toNat 254 ∧ 1 + 254 ≤ small.cfg.maxFrames ∧ (1 : Word).toNat < 2 ^ 24) ∧
    ((0xFFFFFF : Word).toNat ≤ wide.cfg.maxPayload ∧ (0xFFFFFF : Word).toNat < 2 ^ 24) := by
  simp only [List.length_replicate, Word.toNat_one]
  exact ⟨by decide, by decide, by decide, by decide, by decide, by decide, ⟨by decide, leastPieces_one 255, by decide⟩,
    ⟨leastPieces_one 254, by decide⟩, by decide⟩

/-- A session, and the least and the greatest packet size past 24 bits with a buffer of one piece and an empty one. -/
theorem witness_LoadedFramesAreTheEncoding :
    (∃ t, exec (.txLoad hello 4) .reset = .next t ∧
      t.response = some { status := .ok, rdata := t.tx.txTotal, dout := [], wire := [], timer := .none }) ∧
    wide.cfg.wf ∧ wide.tx.txState ≠ .active ∧
    (2 ^ 24 ≤ (0x1000000 : Word).toNat ∧ (0x1000000 : Word).toNat ≤ wide.cfg.maxPayload ∧
      hello.length ≤ wide.cfg.txCap ∧ hello.length < 2 ^ 24 ∧ leastPieces hello.length (0x1000000 : Word).toNat 1 ∧
      1 + 1 ≤ wide.cfg.maxFrames) ∧
    (2 ^ 24 ≤ (0xFFFFFFFF : Word).toNat ∧ (0xFFFFFFFF : Word).toNat ≤ wide.cfg.maxPayload ∧
      leastPieces ([] : Bytes).length (0xFFFFFFFF : Word).toNat 0 ∧ 1 + 0 ≤ wide.cfg.maxFrames) := by
  refine ⟨⟨_, rfl, rfl⟩, by decide, by decide, ⟨by decide, by decide, by decide, by decide, ⟨by decide, fun q h => ?_⟩,
    by decide⟩, by decide, by decide, ⟨Nat.zero_le _, fun q _ => Nat.zero_le q⟩, by decide⟩
  rcases Nat.eq_zero_or_pos q with rfl | hq
  · simp [hello] at h
  · exact hq

/-- The metadata frame and the last data frame. -/
theorem witness_FrameOfReadsItsChunk :
    Invariant vt14 ∧ vt14.tx.txState ≠ .idle ∧ 0 < vt14.tx.txTotal ∧ 3 < vt14.tx.txTotal := ⟨inv_vt14, by decide⟩

/-- One state for each of the five outcomes. -/
theorem witness_TxNextSendsOneFrame :
    (Invariant State.reset ∧ State.reset.tx.txState ≠ .active) ∧
    (Invariant vt29 ∧ vt29.tx.txState = .active ∧ vt29.tx.sendPtr < vt29.tx.nextSeq) ∧
    (Invariant vt14 ∧ vt14.tx.txState = .active ∧ vt14.tx.sendPtr = vt14.tx.nextSeq ∧
      vt14.tx.nextSeq < min (vt14.tx.windowBase + vt14.cfg.windowSize) vt14.tx.txTotal) ∧
    (Invariant (smallTx 0 1 1 true) ∧ (smallTx 0 1 1 true).tx.txState = .active ∧
      (smallTx 0 1 1 true).tx.sendPtr = (smallTx 0 1 1 true).tx.nextSeq ∧
      min ((smallTx 0 1 1 true).tx.windowBase + smallConfig.windowSize) (smallTx 0 1 1 true).tx.txTotal ≤
        (smallTx 0 1 1 true).tx.nextSeq ∧
      (smallTx 0 1 1 true).tx.nextSeq < (smallTx 0 1 1 true).tx.txTotal) ∧
    (Invariant vt19 ∧ vt19.tx.txState = .active ∧ vt19.tx.sendPtr = vt19.tx.nextSeq ∧
      vt19.tx.nextSeq = vt19.tx.txTotal) :=
  ⟨⟨inv_reset, by decide⟩, ⟨inv_vt29, by decide⟩, ⟨inv_vt14, by decide⟩, ⟨inv_smallTx, by decide⟩,
    ⟨inv_vt19, by decide⟩⟩

theorem witness_RetransmissionIsTheSameFrame :
    Instr.txNext.changesSession = false ∧ ∃ t, exec .txNext vt29 = .next t := ⟨rfl, _, rfl⟩

theorem witness_SendAllEmitsTheWindowInOrder :
    (Invariant vt14 ∧ vt14.tx.txState = .active) ∧ (Invariant vt29 ∧ vt29.tx.txState = .active) :=
  ⟨⟨inv_vt14, rfl⟩, ⟨inv_vt29, rfl⟩⟩

/-- An acknowledgment of the last frame, of a frame with others outstanding, of the only frame outstanding. -/
theorem witness_TxAckAdvancesTheWindow :
    (Invariant vt21 ∧ vt21.tx.txState ≠ .idle ∧ a3.length = vt21.cfg.hdrBytes ∧ seqField vt21.cfg a3 = 3 ∧
      expectedCk vt21 3 = .ok (a3.drop vt21.cfg.seqBytes) ∧ 3 + 1 = vt21.tx.txTotal) ∧
    (Invariant vt19 ∧ a1.length = vt19.cfg.hdrBytes ∧ seqField vt19.cfg a1 = 1 ∧
      expectedCk vt19 1 = .ok (a1.drop vt19.cfg.seqBytes) ∧ 1 + 1 < vt19.tx.nextSeq) ∧
    (Invariant vt18 ∧ a0.length = vt18.cfg.hdrBytes ∧ seqField vt18.cfg a0 = 0 ∧
      expectedCk vt18 0 = .ok (a0.drop vt18.cfg.seqBytes) ∧ 0 + 1 = vt18.tx.nextSeq ∧ 0 + 1 ≠ vt18.tx.txTotal) :=
  ⟨⟨inv_vt21, by decide, by decide, by decide, rfl, by decide⟩, ⟨inv_vt19, by decide, by decide, rfl, by decide⟩,
    ⟨inv_vt18, by decide, by decide, rfl, by decide, by decide⟩⟩

/-- One state and datagram for each clause: idle, the marker, another length, just below the base, the next frame not
sent, and an in-flight frame with another checksum. -/
theorem witness_TxAckIgnoresWhatIsNotValid :
    State.reset.tx.txState = .idle ∧ vt33.tx.txState ≠ .idle ∧ term = vt33.cfg.termMarker ∧
    vt21.tx.txState ≠ .idle ∧ f2 ≠ vt21.cfg.termMarker ∧ f2.length ≠ vt21.cfg.hdrBytes ∧
    a1 ≠ vt21.cfg.termMarker ∧ a1.length = vt21.cfg.hdrBytes ∧ seqField vt21.cfg a1 < vt21.tx.windowBase ∧
    vt18.tx.windowBase ≤ seqField vt18.cfg a1 ∧ vt18.tx.nextSeq ≤ seqField vt18.cfg a1 ∧
    vt21.tx.windowBase ≤ seqField vt21.cfg ([0, 0, 0, 2] ++ ck1) ∧
    seqField vt21.cfg ([0, 0, 0, 2] ++ ck1) < vt21.tx.nextSeq ∧
    ([0, 0, 0, 2] ++ ck1).length = vt21.cfg.hdrBytes ∧ expectedCk vt21 2 = .ok ck2 ∧
    ([0, 0, 0, 2] ++ ck1).drop vt21.cfg.seqBytes ≠ ck2 :=
  ⟨by decide, by decide, by decide, by decide, by decide, by decide, by decide, by decide, by decide, by decide,
    by decide, by decide, by decide, by decide, rfl, by decide⟩

theorem witness_OnlyAValidAckMovesTheWindow :
    (Instr.txAck a1).changesSession = false ∧ ∃ t, exec (.txAck a1) vt19 = .next t ∧
      t.tx.windowBase ≠ vt19.tx.windowBase := ⟨rfl, _, rfl, by decide⟩

/-- Frames outstanding; none outstanding in a session; no session. -/
theorem witness_TxTimeoutRewindsTheCursor :
    (vt21.tx.txState = .active ∧ vt21.tx.windowBase ≠ vt21.tx.nextSeq) ∧ vt14.tx.windowBase = vt14.tx.nextSeq ∧
    vt33.tx.txState ≠ .active := by decide

theorem witness_AckAndTimeoutRaceEndsTheSame :
    Invariant vt19 ∧ vt19.tx.txState = .active ∧ vt19.tx.sendPtr = vt19.tx.nextSeq ∧ validAck vt19 a1 1 ∧
    validAck vt19 a3 3 :=
  ⟨inv_vt19, rfl, rfl, ⟨rfl, by decide, by decide, by decide, rfl⟩, ⟨rfl, by decide, by decide, by decide, rfl⟩⟩

theorem witness_SenderEmitsTheEncodingAndFinishes :
    small.cfg.wf ∧ small.tx.txState ≠ .active ∧ 1 ≤ (4 : Word).toNat ∧ (4 : Word).toNat ≤ small.cfg.maxPayload ∧
    hello.length ≤ small.cfg.txCap ∧ totalFrames hello.length (4 : Word).toNat ≤ small.cfg.maxFrames := by decide

theorem witness_SessionNeverGoesBackwards :
    Instr.txNext.changesSession = false ∧
    ∃ t, exec .txNext vt14 = .next t ∧ frameState vt21.tx 1 = .done ∧ frameState t.tx 0 = .awaitingAck :=
  ⟨rfl, _, rfl, by decide, by decide⟩

theorem witness_RdRegReadsTheMap :
    Invariant vr17 ∧ vr17.rx.rxLen < 2 ^ 32 ∧ vr17.cfg.ckBytes < 2 ^ 8 ∧ vr17.cfg.maxPayload < 2 ^ 32 ∧
    vr17.cfg.windowSize < 2 ^ 32 ∧ (0x26#24).toNat ∉
      [0x00, 0x01, 0x02, 0x03, 0x04, 0x05, 0x06, 0x10, 0x11, 0x12, 0x13, 0x14, 0x15, 0x16, 0x17, 0x20, 0x21, 0x22, 0x23,
        0x24, 0x25] := ⟨inv_vr17, by decide⟩

theorem witness_UnitsShareNoState :
    ({ vt21 with rx := vr10.rx } : State).cfg = vr10.cfg ∧ (∃ t, exec (.rxFrame f2) vr10 = .next t) ∧
    (Instr.rxFrame f2).isRx = true ∧ ({ vt21 with rx := vr10.rx } : State).rx = vr10.rx ∧
    (∃ t, exec .txNext vt21 = .next t) ∧ Instr.txNext.isTx = true ∧
    (∃ t, exec (.decAck a1) vt21 = .next t) ∧ (Instr.decAck a1).isCodec = true :=
  ⟨rfl, ⟨_, rfl⟩, rfl, rfl, ⟨_, rfl⟩, rfl, ⟨_, rfl⟩, rfl⟩

theorem witness_OperationsOfDifferentUnitsCommute :
    Instr.rxReset.isRx = true ∧ Instr.txAbort.isTx = true ∧
    ∃ s1 s2, exec .rxReset (vt21.withRx vr10.rx) = .next s1 ∧ exec .txAbort s1 = .next s2 := ⟨rfl, rfl, _, _, rfl, rfl⟩

theorem witness_EveryOperationGivesOneResponse : ∃ t, exec (.rdReg 0x12) vt21 = .next t := ⟨_, rfl⟩

/-- An operation that ends with `STALE_ACK`, with `TIMEOUT`, with `TERM_SEEN`, with `OVERFLOW`. -/
theorem witness_FailingOperationsWriteNothing :
    (resp (.txAck a1) vt21).map Response.status = some .staleAck ∧ Status.staleAck.writesNothing = true ∧
    (resp .txTimeout vt21).map Response.status = some .timeout ∧
    (resp (.txAck term) vt21).map Response.status = some .termSeen ∧
    (resp (.rxFrame (smallFrame 2)) smallRx).map Response.status = some .overflow := by decide

theorem witness_ReservedStatusesAreNeverReturned :
    ∃ t r, exec .txNext vt14 = .next t ∧ t.response = some r := ⟨_, _, rfl, rfl⟩

theorem witness_RdataFitsItsField :
    Invariant vr17 ∧ (Instr.rdReg 0x06).wf ∧ ∃ t r, exec (.rdReg 0x06) vr17 = .next t ∧ t.response = some r :=
  ⟨inv_vr17, by decide, _, _, rfl, rfl⟩

/-- One state and operation for each value of the field. -/
theorem witness_TimerFieldTracksTimerArmed :
    Invariant vt14 ∧ Invariant vt21 ∧ (resp .txNext vt14).map Response.timer = some .start ∧
    (resp .txTimeout vt21).map Response.timer = some .restart ∧ (resp .txAbort vt21).map Response.timer = some .stop ∧
    (resp .txNext vt29).map Response.timer = some .none := ⟨inv_vt14, inv_vt21, by decide⟩

/-- One state and datagram for each row of the table. -/
theorem witness_RxStateFollowsItsTable :
    Invariant State.reset ∧ Invariant vr1 ∧ Invariant vr10 ∧ Invariant vr16 ∧ Invariant vr17 ∧
    (resp (.rxFrame f0) .reset).map Response.status = some .ok ∧
    (resp (.rxFrame fOne) .reset).map Response.status = some .done ∧
    (resp (.rxFrame f1) .reset).map Response.status = some .sequenceMismatch ∧
    (resp (.rxFrame f1) vr1).map Response.status = some .ok ∧
    (resp (.rxFrame f3) vr16).map Response.status = some .done ∧
    (resp (.rxFrame f3) vr10).map Response.status = some .sequenceMismatch ∧
    (resp (.rxFrame f3) vr17).map Response.status = some .alreadyComplete :=
  ⟨inv_reset, inv_vr1, inv_vr10, inv_vr16, inv_vr17, by decide⟩

/-- One state and operation for each row of the table. -/
theorem witness_TxStateFollowsItsTable :
    Invariant State.reset ∧ Invariant vt14 ∧ Invariant vt21 ∧ Invariant vt33 ∧
    (resp (.txLoad hello 4) vt33).map Response.status = some .ok ∧
    (resp (.txLoad hello 0) .reset).map Response.status = some .badParam ∧
    (resp (.txLoad hello 4) vt14).map Response.status = some .badState ∧
    (resp (.txAck a3) vt21).map Response.status = some .done ∧
    (resp (.txAck a1) vt21).map Response.status = some .staleAck ∧
    (resp (.txAck a3) vt33).map Response.status = some .staleAck ∧
    (resp (.txAck a3) .reset).map Response.status = some .badState ∧
    (resp .txNext vt33).map Response.status = some .badState ∧
    (resp .txTimeout vt33).map Response.status = some .spuriousTimeout :=
  ⟨inv_reset, inv_vt14, inv_vt21, inv_vt33, by decide⟩

theorem witness_OperationsStoreOnlyWhereTheyMay :
    (∃ t, exec (.rxRead 0 10) vr17 = .next t) ∧ (Instr.rxRead 0 10).mayStore = false ∧
    (∃ t, exec (.rxFrame f1) vr1 = .next t) ∧ (Instr.rxFrame f1).isRx = true ∧
    (∃ t, exec (.txLoad hello 4) vt33 = .next t) ∧ (Instr.txLoad hello 4).isTx = true :=
  ⟨⟨_, rfl⟩, rfl, ⟨_, rfl⟩, rfl, ⟨_, rfl⟩, rfl⟩

theorem witness_DiscardedBytesHaveNoValue :
    (∃ t, exec .rxReset vr17 = .next t) ∧ (∃ t, exec .txAbort vt21 = .next t) ∧ (∃ t, exec .reset vt21 = .next t) ∧
    ({ vt21 with resetIn := true }.resetIn = true ∧ ∃ t, step { vt21 with resetIn := true } = .next t) ∧
    ∃ t r, exec (.txLoad [0x41] 4) vt33 = .next t ∧ t.response = some r ∧ r.status = .ok :=
  ⟨⟨_, rfl⟩, ⟨_, rfl⟩, ⟨_, rfl⟩, ⟨rfl, _, rfl⟩, _, _, rfl, rfl, rfl⟩

theorem witness_ResetSatisfiesTheInvariant : smallConfig.wf ∧ Config.defaults.wf := by decide

theorem witness_StepKeepsTheInvariant :
    Invariant { vt14 with port := ⟨[0x21000000], []⟩ } ∧ ∃ t, step { vt14 with port := ⟨[0x21000000], []⟩ } = .next t :=
  ⟨⟨by decide, by decide, by decide⟩, _, rfl⟩

theorem witness_StepAlwaysGoesOn : Invariant { vt21 with port := ⟨[0x22000014], a3⟩ } :=
  ⟨by decide, by decide, by decide⟩

theorem witness_StepKeepsMemoriesCanonical :
    vt21.tx.tbuf.wf ∧ vt21.rx.rbuf.wf ∧ ∃ t, step { vt21 with port := ⟨[0x24000000], []⟩ } = .next t :=
  ⟨by decide, by decide, _, rfl⟩

end Sys2Proof.Tests
end

section
/-! SUPPORT. An encoded operation at the head of the port is read back (30_encoding.md R100 to R107): its first word
selects its row, its words and bytes are the ones its row's format takes, and assembling them gives the operation. -/

namespace Sys2Proof

/-- Every operation's encoding has the shape of its format: the lemmas of `Laws.FormatShape`, gathered. -/
theorem formatShape (i : Instr) : Laws.FormatShape.Statement i := by
  cases i
  case encFrame seq payload => exact Laws.FormatShape.encFrame seq payload
  case encMeta total => exact Laws.FormatShape.encMeta total
  case encAck seq k => exact Laws.FormatShape.encAck seq k
  case decFrame raw => exact Laws.FormatShape.decFrame raw
  case decAck raw => exact Laws.FormatShape.decAck raw
  case verify raw => exact Laws.FormatShape.verify raw
  case rxFrame raw => exact Laws.FormatShape.rxFrame raw
  case rxRead offset n => exact Laws.FormatShape.rxRead offset n
  case rxReset => exact Laws.FormatShape.rxReset
  case txLoad payload packetSize => exact Laws.FormatShape.txLoad payload packetSize
  case txNext => exact Laws.FormatShape.txNext
  case txAck raw => exact Laws.FormatShape.txAck raw
  case txTimeout => exact Laws.FormatShape.txTimeout
  case txAbort => exact Laws.FormatShape.txAbort
  case rdReg n => exact Laws.FormatShape.rdReg n
  case reset => exact Laws.FormatShape.reset

/-- A word with the opcode of `op`, and with `A` 0 where the format of `op` asks for it, selects `op` (R105): its row
selects the word, and any other row that does has the same opcode. -/
theorem selectOp_code_append {op : Opcode} {a : BitVec 24} (ha : op.format = .N ∨ op.format = .W → a = 0#24) :
    selectOp (op.code ++ a) = some op := by
  obtain ⟨row, hrow, rfl⟩ := opcodeTable_complete op
  have hsel : row.selects (row.op.code ++ a) = true := (row.selects_iff hrow _ _).2 ⟨rfl, ha⟩
  obtain ⟨found, hfound⟩ : ∃ found, opcodeTable.find? (·.selects (row.op.code ++ a)) = some found :=
    Option.isSome_iff_exists.1 (List.find?_isSome.2 ⟨row, hrow, hsel⟩)
  have hfsel : found.selects (row.op.code ++ a) = true :=
    List.find?_some (p := fun r : Row => r.selects _) hfound
  have hcode : row.op.code = found.op.code :=
    ((found.selects_iff (List.mem_of_find?_eq_some hfound) _ _).1 hfsel).1
  rw [selectOp, hfound, Option.map_some, Opcode.code_injective hcode]

theorem selectOp_word0 (i : Instr) : selectOp i.word0 = some i.op := by
  obtain ⟨_, hzero, _, _⟩ := formatShape i
  exact selectOp_code_append hzero

/-- `word1` is there exactly when the format has one; otherwise the words that follow are left. -/
theorem takeWord1_word1 (i : Instr) (ws : List Word) :
    takeWord1 i.op.format (i.word1 ++ ws) = some (i.word1.headD 0, ws) := by
  cases i <;> rfl

theorem takeDin_append {n : Nat} {d : Bytes} (h : d.length = n) (rest : Bytes) :
    takeDin n (d ++ rest) = some (d, rest) := by
  subst h
  simp [takeDin]

/-- Operand assembly (R103) undoes the split of an operation into its fields. -/
theorem assemble_fields (i : Instr) : assemble i.op i.fieldA (i.word1.headD 0) i.din = i := by
  cases i <;> rfl

/-- Whatever follows on the port, the decoder reads an encoded operation back and takes exactly its words and bytes. -/
theorem decode_encode_append {i : Instr} (hi : i.wf) (rest : Port) :
    decode ((encode i).append rest) = .instr i rest := by
  obtain ⟨_, _, hdin, _⟩ := formatShape i
  have hlen : i.din.length = i.op.format.dinLen i.fieldA := hdin hi
  have hwords : ((encode i).append rest).words = i.word0 :: (i.word1 ++ rest.words) := rfl
  have hbytes : ((encode i).append rest).din = i.din ++ rest.din := rfl
  simp only [decode, hwords, hbytes, selectOp_word0, fieldA_word0, decodeOperands, takeWord1_word1,
    takeDin_append hlen, assemble_fields]

end Sys2Proof

namespace Sys2Proof.Machine

/-- With the reset input not asserted, the step is `exec` of the operation the decoder reads. -/
theorem step_of_decode_instr {s : State} {i : Instr} {rest : Port} (hr : s.resetIn = false)
    (hd : decode s.port = .instr i rest) : step s = exec i (s.withPort rest) := by
  simp [step, hr, hd]

/-- Settles O6: the encoding at the head of the port decodes to the operation, and the step executes what is decoded. -/
theorem stepRunsTheDecodedInstruction : Obligations.StepRunsTheDecodedInstruction := by
  intro s i rest hi hr hp
  exact step_of_decode_instr hr (hp ▸ decode_encode_append hi rest)

end Sys2Proof.Machine
end

section
/-! SUPPORT. What each unit's operations read and write (20_memory.md R74). For each family, one equation says both: run
on another state `s'` that agrees with `s` on what the family reads, the operation has the outcome it has on `s`, with
everything the family does not write taken from `s'`. -/

namespace Sys2Proof.Machine

/-- The outcome with `f` applied to its next state, if it has one. -/
def onNext (f : State → State) : Host.Outcome State Fault Refusal → Host.Outcome State Fault Refusal
  | .next t => .next (f t)
  | .fault r => .fault r
  | .refused r => .refused r

@[simp] theorem onNext_next (f : State → State) (t : State) : onNext f (.next t) = .next (f t) := rfl

/-- The state with the response of `t`. -/
def State.withResponseOf (s t : State) : State := { s with response := t.response }

/-- The state with the RX unit and the response of `t`. -/
def State.withRxOf (s t : State) : State := (s.withRx t.rx).withResponseOf t

/-- The state with the TX unit and the response of `t`. -/
def State.withTxOf (s t : State) : State := (s.withTx t.tx).withResponseOf t

@[simp] theorem State.withResponseOf_rx (s t : State) : (s.withResponseOf t).rx = s.rx := rfl
@[simp] theorem State.withResponseOf_tx (s t : State) : (s.withResponseOf t).tx = s.tx := rfl
@[simp] theorem State.withResponseOf_response (s t : State) : (s.withResponseOf t).response = t.response := rfl
@[simp] theorem State.withRxOf_rx (s t : State) : (s.withRxOf t).rx = t.rx := rfl
@[simp] theorem State.withRxOf_tx (s t : State) : (s.withRxOf t).tx = s.tx := rfl
@[simp] theorem State.withRxOf_response (s t : State) : (s.withRxOf t).response = t.response := rfl
@[simp] theorem State.withTxOf_rx (s t : State) : (s.withTxOf t).rx = s.rx := rfl
@[simp] theorem State.withTxOf_tx (s t : State) : (s.withTxOf t).tx = t.tx := rfl
@[simp] theorem State.withTxOf_response (s t : State) : (s.withTxOf t).response = t.response := rfl

/-! ## Codec operations -/

section
variable {s s' : State}

theorem complete_withResponseOf (r : Response) : complete s' r = onNext s'.withResponseOf (complete s r) := rfl

/-- A codec operation reads the parameters only and writes the response only (R150). -/
theorem exec_codec_of_agree {i : Instr} (hi : i.isCodec = true) (hc : s'.cfg = s.cfg) :
    exec i s' = onNext s'.withResponseOf (exec i s) := by
  cases i <;> simp only [Instr.isCodec, Bool.false_eq_true] at hi
  case encFrame seq payload =>
    simp only [exec, execEncFrame, hc]
    split <;> exact complete_withResponseOf _
  case encMeta total =>
    simp only [exec, execEncMeta, hc]
    split <;> exact complete_withResponseOf _
  case encAck seq k =>
    simp only [exec, execEncAck, hc]
    split <;> exact complete_withResponseOf _
  case decFrame raw =>
    simp only [exec, execDecFrame, hc]
    split <;> exact complete_withResponseOf _
  case decAck raw =>
    simp only [exec, execDecAck, hc]
    split <;> exact complete_withResponseOf _
  case verify raw =>
    simp only [exec, execVerify, hc]
    split
    · exact complete_withResponseOf _
    · exact complete_withResponseOf _
    · split <;> exact complete_withResponseOf _

/-! ## RX operations -/

theorem complete_withRxOf (hr : s'.rx = s.rx) (r : Response) :
    complete s' r = onNext s'.withRxOf (complete s r) := by
  simp [State.withRxOf, State.withResponseOf, State.respond, State.withRx, ← hr]

theorem complete_withRx_withRxOf (u : RxUnit) (r : Response) :
    complete (s'.withRx u) r = onNext s'.withRxOf (complete (s.withRx u) r) := rfl

theorem resendLastAck_of_agree (hc : s'.cfg = s.cfg) (hr : s'.rx = s.rx) : resendLastAck s' = resendLastAck s := by
  rw [resendLastAck, hc, hr, resendLastAck]

theorem rejectFrame_of_agree (hc : s'.cfg = s.cfg) (hr : s'.rx = s.rx) (st : Status) (n : Nat) :
    rejectFrame s' st n = onNext s'.withRxOf (rejectFrame s st n) := by
  rw [rejectFrame, resendLastAck_of_agree hc hr]
  exact complete_withRxOf hr _

theorem acceptFrame_of_agree (hc : s'.cfg = s.cfg) (u : RxUnit) (seq : Nat) (k : Bytes) :
    acceptFrame s' u seq k = onNext s'.withRxOf (acceptFrame s u seq k) := by
  simp only [acceptFrame, hc]
  split <;> exact complete_withRx_withRxOf _ _

theorem acceptMetadata_of_agree (hc : s'.cfg = s.cfg) (hr : s'.rx = s.rx) (seq : Nat) (k p : Bytes) :
    acceptMetadata s' seq k p = onNext s'.withRxOf (acceptMetadata s seq k p) := by
  rw [acceptMetadata, hc, hr, acceptMetadata]
  split
  · exact rejectFrame_of_agree hc hr _ _
  · exact acceptFrame_of_agree hc _ _ _

theorem acceptData_of_agree (hc : s'.cfg = s.cfg) (hr : s'.rx = s.rx) (seq : Nat) (k p : Bytes) :
    acceptData s' seq k p = onNext s'.withRxOf (acceptData s seq k p) := by
  rw [acceptData, hc, hr, acceptData]
  split
  · exact rejectFrame_of_agree (s := s.withRx { s.rx with overflow := true })
      (s' := s'.withRx { s.rx with overflow := true }) hc rfl _ _
  · split
    · rfl
    · exact acceptFrame_of_agree hc _ _ _

theorem execRxFrame_of_agree (hc : s'.cfg = s.cfg) (hr : s'.rx = s.rx) (raw : Bytes) :
    execRxFrame raw s' = onNext s'.withRxOf (execRxFrame raw s) := by
  rw [execRxFrame, hc, hr, execRxFrame]
  have hreject := rejectFrame_of_agree hc hr
  split
  · exact hreject _ _
  · split
    · exact hreject _ _
    · exact hreject _ _
    · split
      · exact hreject _ _
      · split
        · exact hreject _ _
        · split
          · exact acceptMetadata_of_agree hc hr _ _ _
          · exact acceptData_of_agree hc hr _ _ _

theorem memRead_rbuf_of_agree (hc : s'.cfg = s.cfg) (hr : s'.rx = s.rx) (addr n : Nat) :
    memRead s' .rbuf addr n = memRead s .rbuf addr n := by
  rw [memRead, hc, State.mem_rbuf, hr, memRead, State.mem_rbuf]

theorem execRxRead_of_agree (hc : s'.cfg = s.cfg) (hr : s'.rx = s.rx) (offset : Word) (n : BitVec 24) :
    execRxRead offset n s' = onNext s'.withRxOf (execRxRead offset n s) := by
  rw [execRxRead, memRead_rbuf_of_agree hc hr, hr, execRxRead]
  split
  · exact complete_withRxOf hr _
  · split
    · exact complete_withRxOf hr _
    · split
      · rfl
      · exact complete_withRxOf hr _

/-- An RX operation reads the parameters and the RX unit only, and writes the RX unit and the response only (R74). -/
theorem exec_rx_of_agree {i : Instr} (hi : i.isRx = true) (hc : s'.cfg = s.cfg) (hr : s'.rx = s.rx) :
    exec i s' = onNext s'.withRxOf (exec i s) := by
  cases i <;> simp only [Instr.isRx, Bool.false_eq_true] at hi
  case rxFrame raw => exact execRxFrame_of_agree hc hr raw
  case rxRead offset n => exact execRxRead_of_agree hc hr offset n
  case rxReset =>
    simp only [exec, execRxReset, hc]
    exact complete_withRx_withRxOf _ _

/-! ## TX operations -/

theorem complete_withTxOf (ht : s'.tx = s.tx) (r : Response) :
    complete s' r = onNext s'.withTxOf (complete s r) := by
  simp [State.withTxOf, State.withResponseOf, State.respond, State.withTx, ← ht]

theorem complete_withTx_withTxOf (u : TxUnit) (r : Response) :
    complete (s'.withTx u) r = onNext s'.withTxOf (complete (s.withTx u) r) := rfl

theorem payloadOf_of_agree (hc : s'.cfg = s.cfg) (ht : s'.tx = s.tx) (k : Nat) : payloadOf s' k = payloadOf s k :=
  payloadOf_congr hc (by rw [ht]) (by rw [ht]) (by rw [ht]) (by rw [ht]) k

theorem frameOf_of_agree (hc : s'.cfg = s.cfg) (ht : s'.tx = s.tx) (k : Nat) : frameOf s' k = frameOf s k := by
  rw [frameOf, payloadOf_of_agree hc ht, hc, frameOf]

theorem expectedCk_of_agree (hc : s'.cfg = s.cfg) (ht : s'.tx = s.tx) (k : Nat) :
    expectedCk s' k = expectedCk s k := by
  rw [expectedCk, payloadOf_of_agree hc ht, hc, expectedCk]

theorem sendFrame_of_agree (hc : s'.cfg = s.cfg) (ht : s'.tx = s.tx) (u : TxUnit) (k : Nat) (st : Status) :
    sendFrame s' u k st = onNext s'.withTxOf (sendFrame s u k st) := by
  rw [sendFrame, frameOf_of_agree hc ht, ht, sendFrame]
  split
  · rfl
  · exact complete_withTx_withTxOf _ _

theorem advanceWindow_of_agree (ht : s'.tx = s.tx) (seq : Nat) :
    advanceWindow s' seq = onNext s'.withTxOf (advanceWindow s seq) := by
  simp only [advanceWindow, ht]
  split
  · exact complete_withTx_withTxOf _ _
  · split <;> exact complete_withTx_withTxOf _ _

theorem execTxLoad_of_agree (hc : s'.cfg = s.cfg) (ht : s'.tx = s.tx) (payload : Bytes) (packetSize : Word) :
    execTxLoad payload packetSize s' = onNext s'.withTxOf (execTxLoad payload packetSize s) := by
  rw [execTxLoad, hc, ht, execTxLoad]
  have hrefuse := complete_withTxOf ht
  split
  · exact hrefuse _
  · split
    · exact hrefuse _
    · split
      · exact hrefuse _
      · split
        · rfl
        · exact complete_withTx_withTxOf _ _

theorem sendLimit_of_agree (hc : s'.cfg = s.cfg) (ht : s'.tx = s.tx) : sendLimit s' = sendLimit s := by
  rw [sendLimit, hc, ht, sendLimit]

theorem execTxNext_of_agree (hc : s'.cfg = s.cfg) (ht : s'.tx = s.tx) :
    execTxNext s' = onNext s'.withTxOf (execTxNext s) := by
  rw [execTxNext, sendLimit_of_agree hc ht, ht, execTxNext]
  have hidle := complete_withTxOf ht
  have hsend := sendFrame_of_agree hc ht
  split
  · exact hidle _
  · split
    · exact hsend _ _ _
    · split
      · exact hsend _ _ _
      · split <;> exact hidle _

theorem execTxAck_of_agree (hc : s'.cfg = s.cfg) (ht : s'.tx = s.tx) (raw : Bytes) :
    execTxAck raw s' = onNext s'.withTxOf (execTxAck raw s) := by
  simp only [execTxAck, hc, ht, expectedCk_of_agree hc ht]
  have hignore := complete_withTxOf ht
  split
  · exact hignore _
  · split
    · exact complete_withTx_withTxOf _ _
    · exact hignore _
    · split
      · exact hignore _
      · split
        · exact hignore _
        · split
          · rfl
          · split
            · exact hignore _
            · exact advanceWindow_of_agree ht _

theorem execTxTimeout_of_agree (ht : s'.tx = s.tx) :
    execTxTimeout s' = onNext s'.withTxOf (execTxTimeout s) := by
  rw [execTxTimeout, ht, execTxTimeout]
  split
  · exact complete_withTxOf ht _
  · exact complete_withTx_withTxOf _ _

/-- A TX operation reads the parameters and the TX unit only, and writes the TX unit and the response only (R74). -/
theorem exec_tx_of_agree {i : Instr} (hi : i.isTx = true) (hc : s'.cfg = s.cfg) (ht : s'.tx = s.tx) :
    exec i s' = onNext s'.withTxOf (exec i s) := by
  cases i <;> simp only [Instr.isTx, Bool.false_eq_true] at hi
  case txLoad payload packetSize => exact execTxLoad_of_agree hc ht payload packetSize
  case txNext => exact execTxNext_of_agree hc ht
  case txAck raw => exact execTxAck_of_agree hc ht raw
  case txTimeout => exact execTxTimeout_of_agree ht
  case txAbort =>
    simp only [exec, execTxAbort, ht]
    exact complete_withTx_withTxOf _ _

end

/-! ## The three families together -/

section
variable {i : Instr} {s s' t : State}

/-- What an operation leaves unchanged is the case `s' = s` of what it reads. -/
theorem eq_of_exec_eq_onNext {f : State → State} (h : exec i s = .next t) (hf : exec i s = onNext f (exec i s)) :
    t = f t := by
  rw [h, onNext_next] at hf
  exact Host.Outcome.next.inj hf

/-- An RX operation leaves everything but the RX unit and the response as it was. -/
theorem exec_rx_frame (hi : i.isRx = true) (h : exec i s = .next t) : t = s.withRxOf t :=
  eq_of_exec_eq_onNext h (exec_rx_of_agree hi rfl rfl)

/-- A TX operation leaves everything but the TX unit and the response as it was. -/
theorem exec_tx_frame (hi : i.isTx = true) (h : exec i s = .next t) : t = s.withTxOf t :=
  eq_of_exec_eq_onNext h (exec_tx_of_agree hi rfl rfl)

/-- A codec operation leaves everything but the response as it was. -/
theorem exec_codec_frame (hi : i.isCodec = true) (h : exec i s = .next t) : t = s.withResponseOf t :=
  eq_of_exec_eq_onNext h (exec_codec_of_agree hi rfl)

theorem exec_rx_next_of_agree (hi : i.isRx = true) (hc : s'.cfg = s.cfg) (hr : s'.rx = s.rx)
    (h : exec i s = .next t) : exec i s' = .next (s'.withRxOf t) := by
  rw [exec_rx_of_agree hi hc hr, h, onNext_next]

theorem exec_tx_next_of_agree (hi : i.isTx = true) (hc : s'.cfg = s.cfg) (ht : s'.tx = s.tx)
    (h : exec i s = .next t) : exec i s' = .next (s'.withTxOf t) := by
  rw [exec_tx_of_agree hi hc ht, h, onNext_next]

theorem exec_codec_next_of_agree (hi : i.isCodec = true) (hc : s'.cfg = s.cfg) (h : exec i s = .next t) :
    exec i s' = .next (s'.withResponseOf t) := by
  rw [exec_codec_of_agree hi hc, h, onNext_next]

end

/-- Settles O44: for each family, what the operation leaves unchanged, and its run on the second state. -/
theorem unitsShareNoState : Obligations.UnitsShareNoState := by
  intro i s s' t hc h
  refine ⟨fun hi hr => ?rx, fun hi ht => ?tx, fun hi => ?codec⟩
  case rx =>
    have hframe : t.tx = s.tx := by rw [exec_rx_frame hi h, State.withRxOf_tx]
    exact ⟨hframe, s'.withRxOf t, exec_rx_next_of_agree hi hc hr h, rfl, rfl, rfl⟩
  case tx =>
    have hframe : t.rx = s.rx := by rw [exec_tx_frame hi h, State.withTxOf_rx]
    exact ⟨hframe, s'.withTxOf t, exec_tx_next_of_agree hi hc ht h, rfl, rfl, rfl⟩
  case codec =>
    have hframe : sameUnits s t := by rw [exec_codec_frame hi h]; exact ⟨rfl, rfl⟩
    exact ⟨hframe, s'.withResponseOf t, exec_codec_next_of_agree hi hc h, ⟨rfl, rfl⟩, rfl⟩

end Sys2Proof.Machine
end

section
/-! SUPPORT. Order of operations across units (20_memory.md R74): what the TX and the codec operations have in common,
as seen from the RX unit, and the commutation that follows. -/

namespace Sys2Proof.Machine

section
variable {j : Instr} {s s' t : State}

/-- Neither a TX nor a codec operation reads or writes the RX unit: on a state with the same parameters and TX unit it
ends with the same TX unit and response. -/
theorem exec_tx_or_codec_next_of_agree (hj : j.isTx = true ∨ j.isCodec = true) (hc : s'.cfg = s.cfg)
    (ht : s'.tx = s.tx) (h : exec j s = .next t) : exec j s' = .next (s'.withTxOf t) := by
  rcases hj with htx | hcodec
  · exact exec_tx_next_of_agree htx hc ht h
  · have hkept : t.tx = s'.tx := by rw [exec_codec_frame hcodec h, State.withResponseOf_tx, ht]
    rw [exec_codec_next_of_agree hcodec hc h, State.withTxOf, hkept]
    rfl

theorem exec_tx_or_codec_frame (hj : j.isTx = true ∨ j.isCodec = true) (h : exec j s = .next t) :
    t = s.withTxOf t :=
  Host.Outcome.next.inj (h.symm.trans (exec_tx_or_codec_next_of_agree hj rfl rfl h))

end

/-- Settles O45: `i` leaves what `j` reads and `j` leaves what `i` reads, so each runs first as it runs second. -/
theorem operationsOfDifferentUnitsCommute : Obligations.OperationsOfDifferentUnitsCommute := by
  intro i j s s1 s2 hi hj h1 h2
  have hframe1 : s1 = s.withRxOf s1 := exec_rx_frame hi h1
  have hframe2 : s2 = s1.withTxOf s2 := exec_tx_or_codec_frame hj h2
  have hcfg : s.cfg = s1.cfg := by rw [hframe1]; rfl
  have htx : s.tx = s1.tx := by rw [hframe1, State.withRxOf_tx]
  have hjFirst : exec j s = .next (s.withTxOf s2) := exec_tx_or_codec_next_of_agree hj hcfg htx h2
  have hiSecond : exec i (s.withTxOf s2) = .next ((s.withTxOf s2).withRxOf s1) :=
    exec_rx_next_of_agree (s := s) hi rfl rfl h1
  have hrx : s1.rx = s2.rx := by rw [hframe2, State.withTxOf_rx]
  exact ⟨_, _, hjFirst, hiSecond, ⟨hrx, rfl⟩, rfl, rfl⟩

end Sys2Proof.Machine
end

section
/-! SUPPORT. Progress of a sending session (10_state.md R32, R33, R40): the two registers that fix the state of every
frame, what each operation inside a session does to them, and that a frame's state follows their order. -/

namespace Sys2Proof

/-- The families of the opcode map (R105). -/
theorem Instr.family_cases (i : Instr) :
    i.isCodec = true ∨ i.isRx = true ∨ i.isTx = true ∨ (∃ n, i = .rdReg n) ∨ i = .reset := by
  cases i <;> simp [Instr.isCodec, Instr.isRx, Instr.isTx]

/-- The sender operations that stay inside a session. -/
theorem Instr.tx_cases_of_not_changesSession {i : Instr} (htx : i.isTx = true) (hi : i.changesSession = false) :
    i = .txNext ∨ (∃ raw, i = .txAck raw) ∨ i = .txTimeout := by
  cases i <;> simp [Instr.isTx, Instr.changesSession] at htx hi ⊢

end Sys2Proof

namespace Sys2Proof.Machine

/-- The window of `v` has not gone back from that of `u`: neither its base nor its next sequence number is lower. -/
abbrev TxUnit.windowLe (u v : TxUnit) : Prop := u.windowBase ≤ v.windowBase ∧ u.nextSeq ≤ v.nextSeq

theorem TxUnit.windowLe_refl (u : TxUnit) : u.windowLe u := ⟨le_rfl, le_rfl⟩

/-! ## The state of a frame -/

theorem frameState_eq_done_iff (u : TxUnit) (k : Nat) : frameState u k = .done ↔ k < u.windowBase := by
  unfold frameState
  split
  · simp_all
  · split <;> simp_all

theorem frameState_eq_idle_iff (u : TxUnit) (k : Nat) :
    frameState u k = .idle ↔ u.windowBase ≤ k ∧ u.nextSeq ≤ k := by
  unfold frameState
  split
  · simp_all
  · split <;> simp_all

theorem frameState_done_of_windowLe {u v : TxUnit} (h : u.windowLe v) {k : Nat} (hk : frameState u k = .done) :
    frameState v k = .done := by
  rw [frameState_eq_done_iff] at hk ⊢
  exact hk.trans_le h.1

/-- An idle frame was idle before. -/
theorem frameState_idle_of_windowLe {u v : TxUnit} (h : u.windowLe v) {k : Nat} (hk : frameState v k = .idle) :
    frameState u k = .idle := by
  rw [frameState_eq_idle_iff] at hk ⊢
  exact ⟨h.1.trans hk.1, h.2.trans hk.2⟩

/-! ## What the operations do to the window -/

section
variable {s t : State}

theorem tx_of_sendFrame {u : TxUnit} {k : Nat} {st : Status} (h : sendFrame s u k st = .next t) :
    t.tx = { u with timerArmed := true } := by
  rcases sendFrame_cases s u k st with ⟨d, _, e⟩ | ⟨f, _, e⟩ <;> rw [e] at h <;> cases h
  rfl

theorem window_of_advanceWindow {seq : Nat} (h : advanceWindow s seq = .next t) :
    t.tx.windowBase = seq + 1 ∧ t.tx.nextSeq = s.tx.nextSeq := by
  rcases advanceWindow_cases s seq with ⟨_, e⟩ | ⟨_, _, e⟩ | ⟨_, _, e⟩ <;> rw [e] at h <;> cases h <;>
    exact ⟨rfl, rfl⟩

/-- `TX_NEXT` keeps the base; a new frame raises the next sequence number (R210). -/
theorem windowLe_of_execTxNext (h : execTxNext s = .next t) : s.tx.windowLe t.tx := by
  rcases execTxNext_cases s with ⟨st, n, e, _⟩ | ⟨_, _, e⟩ | ⟨_, _, _, e⟩ <;> rw [e] at h
  case inl =>
    cases h
    exact s.tx.windowLe_refl
  case inr.inl =>
    rw [tx_of_sendFrame h]
    exact s.tx.windowLe_refl
  case inr.inr =>
    rw [tx_of_sendFrame h]
    exact ⟨le_rfl, Nat.le_succ _⟩

/-- `TX_ACK` raises the base past a frame that was in flight, or keeps it (R212). -/
theorem windowLe_of_execTxAck {raw : Bytes} (h : execTxAck raw s = .next t) : s.tx.windowLe t.tx := by
  rcases execTxAck_cases raw s with ⟨st, n, e, _⟩ | ⟨_, _, e⟩ | ⟨_, seq, k, _, hbase, _, ⟨_, e⟩ | ⟨f, _, e⟩⟩ <;>
    rw [e] at h
  case inl =>
    cases h
    exact s.tx.windowLe_refl
  case inr.inl =>
    cases h
    exact s.tx.windowLe_refl
  case inr.inr.inl =>
    obtain ⟨hb, hn⟩ := window_of_advanceWindow h
    exact ⟨by omega, hn.ge⟩
  case inr.inr.inr => cases h

/-- `TX_TIMEOUT` moves the send cursor alone (R220). -/
theorem windowLe_of_execTxTimeout (h : execTxTimeout s = .next t) : s.tx.windowLe t.tx := by
  rcases execTxTimeout_cases s with ⟨_, e⟩ | ⟨_, _, e⟩ <;> rw [e] at h <;> cases h <;> exact s.tx.windowLe_refl

theorem tx_of_execRdReg {n : BitVec 24} (h : execRdReg n s = .next t) : t.tx = s.tx := by
  rcases execRdReg_cases n s with ⟨_, e⟩ | ⟨g, _, e⟩ <;> rw [e] at h <;> cases h <;> rfl

/-- Inside a session the window only goes forward. -/
theorem windowLe_of_exec {i : Instr} (hi : i.changesSession = false) (h : exec i s = .next t) :
    s.tx.windowLe t.tx := by
  have hkept (htx : t.tx = s.tx) : s.tx.windowLe t.tx := htx ▸ s.tx.windowLe_refl
  rcases i.family_cases with hcodec | hrx | htx | ⟨n, rfl⟩ | rfl
  · exact hkept (by rw [exec_codec_frame hcodec h, State.withResponseOf_tx])
  · exact hkept (by rw [exec_rx_frame hrx h, State.withRxOf_tx])
  · rcases Instr.tx_cases_of_not_changesSession htx hi with rfl | ⟨raw, rfl⟩ | rfl
    · exact windowLe_of_execTxNext h
    · exact windowLe_of_execTxAck h
    · exact windowLe_of_execTxTimeout h
  · exact hkept (tx_of_execRdReg h)
  · cases hi

end

/-- Settles O40: the window only goes forward, and every frame's state follows the window. -/
theorem sessionNeverGoesBackwards : Obligations.SessionNeverGoesBackwards := by
  intro i s t hi h
  have hle : s.tx.windowLe t.tx := windowLe_of_exec hi h
  refine ⟨hle.1, hle.2, fun k => ⟨frameState_done_of_windowLe hle, fun hawait hidle => ?_⟩⟩
  rw [frameState_idle_of_windowLe hle hidle] at hawait
  cases hawait

end Sys2Proof.Machine
end

section
/-! SUPPORT. The reset values (10_state.md R44): every register is at its reset value, and the two units' invariants
hold there. -/

namespace Sys2Proof.Machine

theorem RxUnit.reset_atReset (c : Config) : (RxUnit.reset c).atReset c :=
  ⟨rfl, rfl, rfl, rfl, rfl, rfl, rfl, rfl⟩

theorem TxUnit.reset_atReset : TxUnit.reset.atReset := ⟨rfl, rfl, rfl, rfl, rfl, rfl, rfl, rfl, rfl⟩

theorem step_of_resetIn {s : State} (h : s.resetIn = true) : step s = .next (State.resetWith s.cfg) := if_pos h

/-- Settles O8: the step is the reset state of the same parameters. -/
theorem hardwareResetPutsEveryRegisterAtReset : Obligations.HardwareResetPutsEveryRegisterAtReset :=
  fun s h => ⟨_, step_of_resetIn h, RxUnit.reset_atReset s.cfg, TxUnit.reset_atReset, rfl, rfl⟩

theorem fitsCap_zero (cap : Option Nat) : fitsCap cap 0 = true := by
  cases cap with
  | none => rfl
  | some n => exact decide_eq_true n.zero_le

/-- After reset the RX unit awaits the metadata frame, has no acknowledgment to resend and an empty buffer. -/
theorem rxInv_reset (c : Config) : RxInv c (RxUnit.reset c) := by
  refine ⟨?await, ?receiving, ?complete, ?lastAck, ?overflow, ?buffer, ?width⟩
  case await => exact fun _ => ⟨rfl, rfl, rfl⟩
  case receiving => exact fun h => nomatch h
  case complete => exact fun h => nomatch h
  case lastAck => exact fun h => nomatch h
  case overflow => exact fun h => nomatch h
  case buffer => exact ⟨fitsCap_zero c.rxCap, Memory.holdsExactly_nil⟩
  case width => exact ⟨Nat.zero_le _, Nat.zero_le _, List.length_replicate, Nat.zero_le _⟩

theorem txInv_reset (c : Config) : TxInv c TxUnit.reset := ⟨fun _ => rfl, fun h => absurd rfl h⟩

theorem invariant_resetWith {c : Config} (hc : c.wf) : Invariant (State.resetWith c) :=
  ⟨hc, rxInv_reset c, txInv_reset c⟩

/-- Settles O56: the units' invariants hold at reset for any parameters, and the defaults of R6 are legal. -/
theorem resetSatisfiesTheInvariant : Obligations.ResetSatisfiesTheInvariant :=
  ⟨fun _ hc => invariant_resetWith hc, invariant_resetWith (by decide : Config.defaults.wf)⟩

end Sys2Proof.Machine
end

section
/-! SUPPORT. What leaves the two byte memories as they are (20_memory.md R60, R61): each unit's operations the other
unit's memory, and the operations that store nothing both. Of the latter only those inside a sending session write the
unit of a memory, and they write its registers alone. -/

namespace Sys2Proof

/-- `RX_READ` is the one receiver operation that stores nothing. -/
theorem Instr.rxRead_of_not_mayStore {i : Instr} (hrx : i.isRx = true) (hi : i.mayStore = false) :
    ∃ offset n, i = .rxRead offset n := by
  cases i <;> simp [Instr.isRx, Instr.mayStore] at hrx hi ⊢

/-- An operation that begins or ends a sending session stores in TBUF or leaves it unspecified (R62). -/
theorem Instr.not_changesSession_of_not_mayStore {i : Instr} (hi : i.mayStore = false) : i.changesSession = false := by
  cases i <;> simp [Instr.mayStore, Instr.changesSession] at hi ⊢

end Sys2Proof

namespace Sys2Proof.Machine

section
variable {s t : State}

theorem sameMemory_of_mem_eq {sp : Space} (h : t.mem sp = s.mem sp) : sameMemory sp s t := fun a => by rw [h]

theorem tx_of_exec_rx {i : Instr} (hi : i.isRx = true) (h : exec i s = .next t) : t.tx = s.tx := by
  rw [exec_rx_frame hi h, State.withRxOf_tx]

theorem rx_of_exec_tx {i : Instr} (hi : i.isTx = true) (h : exec i s = .next t) : t.rx = s.rx := by
  rw [exec_tx_frame hi h, State.withTxOf_rx]

theorem sameUnits_of_execRdReg {n : BitVec 24} (h : execRdReg n s = .next t) : sameUnits s t := by
  rcases execRdReg_cases n s with ⟨_, e⟩ | ⟨g, _, e⟩ <;> rw [e] at h <;> cases h <;> exact ⟨rfl, rfl⟩

theorem sameUnits_of_execRxRead {offset : Word} {n : BitVec 24} (h : execRxRead offset n s = .next t) :
    sameUnits s t := by
  rcases execRxRead_cases offset n s with ⟨st, e, _⟩ | ⟨_, _, ⟨bs, _, e⟩ | ⟨f, _, e⟩⟩ <;> rw [e] at h <;> cases h <;>
    exact ⟨rfl, rfl⟩

/-! ## The operations inside a sending session leave TBUF as it is -/

theorem tbuf_of_advanceWindow {seq : Nat} (h : advanceWindow s seq = .next t) : t.tx.tbuf = s.tx.tbuf := by
  rcases advanceWindow_cases s seq with ⟨_, e⟩ | ⟨_, _, e⟩ | ⟨_, _, e⟩ <;> rw [e] at h <;> cases h <;> rfl

theorem tbuf_of_execTxNext (h : execTxNext s = .next t) : t.tx.tbuf = s.tx.tbuf := by
  rcases execTxNext_cases s with ⟨st, n, e, _⟩ | ⟨_, _, e⟩ | ⟨_, _, _, e⟩ <;> rw [e] at h
  case inl =>
    cases h
    rfl
  case inr.inl => rw [tx_of_sendFrame h]
  case inr.inr => rw [tx_of_sendFrame h]

theorem tbuf_of_execTxAck {raw : Bytes} (h : execTxAck raw s = .next t) : t.tx.tbuf = s.tx.tbuf := by
  rcases execTxAck_cases raw s with ⟨st, n, e, _⟩ | ⟨_, _, e⟩ | ⟨_, seq, k, _, _, _, ⟨_, e⟩ | ⟨f, _, e⟩⟩ <;>
    rw [e] at h
  case inl =>
    cases h
    rfl
  case inr.inl =>
    cases h
    rfl
  case inr.inr.inl => exact tbuf_of_advanceWindow h
  case inr.inr.inr => cases h

theorem tbuf_of_execTxTimeout (h : execTxTimeout s = .next t) : t.tx.tbuf = s.tx.tbuf := by
  rcases execTxTimeout_cases s with ⟨_, e⟩ | ⟨_, _, e⟩ <;> rw [e] at h <;> cases h <;> rfl

theorem tbuf_of_exec_tx {i : Instr} (htx : i.isTx = true) (hi : i.changesSession = false) (h : exec i s = .next t) :
    t.tx.tbuf = s.tx.tbuf := by
  rcases Instr.tx_cases_of_not_changesSession htx hi with rfl | ⟨raw, rfl⟩ | rfl
  · exact tbuf_of_execTxNext h
  · exact tbuf_of_execTxAck h
  · exact tbuf_of_execTxTimeout h

/-- An operation that does not store leaves both memories as they were, whatever its family. -/
theorem memories_of_exec_of_not_mayStore {i : Instr} (hi : i.mayStore = false) (h : exec i s = .next t) :
    t.tx.tbuf = s.tx.tbuf ∧ t.rx.rbuf = s.rx.rbuf := by
  have hkept (hu : sameUnits s t) : t.tx.tbuf = s.tx.tbuf ∧ t.rx.rbuf = s.rx.rbuf := by
    obtain ⟨hrx, htx⟩ := hu
    rw [hrx, htx]
    exact ⟨rfl, rfl⟩
  rcases i.family_cases with hcodec | hrx | htx | ⟨n, rfl⟩ | rfl
  · rw [exec_codec_frame hcodec h]
    exact ⟨rfl, rfl⟩
  · obtain ⟨offset, n, rfl⟩ := Instr.rxRead_of_not_mayStore hrx hi
    exact hkept (sameUnits_of_execRxRead h)
  · have htbuf := tbuf_of_exec_tx htx (Instr.not_changesSession_of_not_mayStore hi) h
    exact ⟨htbuf, by rw [rx_of_exec_tx htx h]⟩
  · exact hkept (sameUnits_of_execRdReg h)
  · cases hi

end

/-- Settles O54: what does not store keeps both memories, and each unit's operations keep the other unit whole. -/
theorem operationsStoreOnlyWhereTheyMay : Obligations.OperationsStoreOnlyWhereTheyMay := by
  intro i s t h
  refine ⟨fun hi => ?memories, fun hrx => ?tbuf, fun htx => ?rbuf⟩
  case memories =>
    obtain ⟨htbuf, hrbuf⟩ := memories_of_exec_of_not_mayStore hi h
    exact ⟨sameMemory_of_mem_eq htbuf, sameMemory_of_mem_eq hrbuf⟩
  case tbuf => exact sameMemory_of_mem_eq (congrArg TxUnit.tbuf (tx_of_exec_rx hrx h))
  case rbuf => exact sameMemory_of_mem_eq (congrArg RxUnit.rbuf (rx_of_exec_tx htx h))

end Sys2Proof.Machine
end

section
/-! SUPPORT. What has no value (20_memory.md R62, R63; log entry 9): an empty memory at every address, and a memory
written from empty at the addresses above its bytes. -/

namespace Sys2Proof.Machine

theorem Memory.read?_nil (a : Nat) : Memory.read? [] a = none := rfl

/-- Bytes written from address 0 of an empty memory leave every address above them without a value. -/
theorem read?_memWrite_nil_of_length_le {c : Config} {space : Space} {m : Memory} {v : Bytes} {a : Nat}
    (h : memWrite c space [] 0 v = .ok m) (ha : v.length ≤ a) : m.read? a = none := by
  obtain ⟨_, _, hread⟩ := memWrite_ok h
  rw [hread, if_neg (by omega), Memory.read?_nil]

/-- A `TX_LOAD` that answers `OK` has loaded its buffer into an empty memory (R205). -/
theorem tbuf_of_execTxLoad_ok {b : Bytes} {ps : Word} {s t : State} {r : Response} (h : execTxLoad b ps s = .next t)
    (hr : t.response = some r) (hok : r.status = .ok) : memWrite s.cfg .tbuf [] 0 b = .ok t.tx.tbuf := by
  rcases execTxLoad_cases b ps s with ⟨st, e, hst, _⟩ | ⟨_, _, _, _, _, m, hm, e⟩ <;> rw [e] at h <;> cases h
  case inl =>
    cases hr
    cases hok
    cases hst
  case inr => exact hm

/-- Settles O55: each reset leaves the empty memory, and `TX_LOAD` fills an empty one up to its buffer's length. -/
theorem discardedBytesHaveNoValue : Obligations.DiscardedBytesHaveNoValue := by
  intro s t
  refine ⟨fun h a => ?rxReset, fun h a => ?txAbort, fun h a => ?reset, fun hin h a => ?hardware, ?txLoad⟩
  case rxReset =>
    cases h
    exact Memory.read?_nil a
  case txAbort =>
    cases h
    exact Memory.read?_nil a
  case reset =>
    cases h
    exact ⟨Memory.read?_nil a, Memory.read?_nil a⟩
  case hardware =>
    rw [step_of_resetIn hin] at h
    cases h
    exact ⟨Memory.read?_nil a, Memory.read?_nil a⟩
  case txLoad =>
    rintro b ps h ⟨r, hr, hok⟩ a ha
    exact read?_memWrite_nil_of_length_le (tbuf_of_execTxLoad_ok h hr hok) ha

end Sys2Proof.Machine
end

section
/-! SUPPORT. The response is transient (20_memory.md R65): by the equations of what each family reads, two states that
differ in the response alone give the same outcome. -/

namespace Sys2Proof.Machine

/-- No register shows the response (R43). -/
theorem Register.value_of_response (g : Register) (s : State) (r : Option Response) :
    g.value { s with response := r } = g.value s := by
  cases g <;> rfl

theorem execRdReg_of_response (n : BitVec 24) (s : State) (r : Option Response) :
    execRdReg n { s with response := r } = execRdReg n s := by
  simp only [execRdReg, Register.value_of_response]
  split <;> rfl

/-- Settles O47: a family's operation reads and keeps the same of both states, and the response it leaves is its own. -/
theorem earlierResponsesHaveNoEffect : Obligations.EarlierResponsesHaveNoEffect := by
  intro i s r
  rcases i.family_cases with hcodec | hrx | htx | ⟨n, rfl⟩ | rfl
  · exact (exec_codec_of_agree hcodec rfl).trans (exec_codec_of_agree (s' := s) hcodec rfl).symm
  · exact (exec_rx_of_agree hrx rfl rfl).trans (exec_rx_of_agree (s' := s) hrx rfl rfl).symm
  · exact (exec_tx_of_agree htx rfl rfl).trans (exec_tx_of_agree (s' := s) htx rfl rfl).symm
  · exact execRdReg_of_response n s r
  · rfl

end Sys2Proof.Machine
end

section
/-! SUPPORT. The decoder read backwards (30_encoding.md R100 to R107): which words select which row, and what a port
content that decodes to an operation looks like. -/

namespace Sys2Proof

/-- Settles O1: the decoder reads an encoded operation back. -/
theorem decodeOfEncodeIsTheInstruction : Obligations.DecodeOfEncodeIsTheInstruction :=
  fun _ rest hi => decode_encode_append hi rest

/-! ## Which words select which row (R105, R106) -/

/-- The row found in the table selects the word, so the word has its opcode, and `A` 0 where its format asks for it. -/
theorem code_of_selectOp {x : Byte} {a : BitVec 24} {op : Opcode} (h : selectOp (x ++ a) = some op) :
    x = op.code ∧ (op.format = .N ∨ op.format = .W → a = 0#24) := by
  obtain ⟨row, hfound, rfl⟩ := Option.map_eq_some_iff.1 h
  have hsel : row.selects (x ++ a) = true := List.find?_some (p := fun r : Row => r.selects _) hfound
  exact (row.selects_iff (List.mem_of_find?_eq_some hfound) x a).1 hsel

/-- Settles O3: the row found has the word's opcode, and the row of the opcode is found. -/
theorem wordSelectsByOpcodeAndZeroA : Obligations.WordSelectsByOpcodeAndZeroA := by
  intro x a op
  refine ⟨code_of_selectOp, ?_⟩
  rintro ⟨rfl, ha⟩
  exact selectOp_code_append ha

theorem Opcode.code_mem (op : Opcode) : op.code.toNat ∈
    [0x01, 0x02, 0x03, 0x04, 0x05, 0x06, 0x10, 0x11, 0x12, 0x20, 0x21, 0x22, 0x23, 0x24, 0x30, 0x3F] := by
  cases op <;> decide

/-- The opcodes whose format has `A` 0 (R105). -/
theorem Opcode.format_of_code_mem {op : Opcode} (h : op.code.toNat ∈ [0x02, 0x12, 0x21, 0x23, 0x24, 0x3F]) :
    op.format = .N ∨ op.format = .W := by
  revert h
  cases op <;> decide

/-- An opcode that is not one of the sixteen, or that asks for `A` 0 where it is not, selects nothing (R106). -/
theorem selectOp_eq_none {x : Byte} {a : BitVec 24}
    (h : x.toNat ∉ [0x01, 0x02, 0x03, 0x04, 0x05, 0x06, 0x10, 0x11, 0x12, 0x20, 0x21, 0x22, 0x23, 0x24, 0x30, 0x3F] ∨
      (x.toNat ∈ [0x02, 0x12, 0x21, 0x23, 0x24, 0x3F] ∧ a ≠ 0#24)) :
    selectOp (x ++ a) = none := by
  refine Option.eq_none_iff_forall_ne_some.2 fun op hop => ?_
  obtain ⟨rfl, hzero⟩ := code_of_selectOp hop
  rcases h with hcode | ⟨hcode, ha⟩
  · exact hcode op.code_mem
  · exact ha (hzero (Opcode.format_of_code_mem hcode))

theorem decode_of_selectOp_none {p : Port} {w : Word} {ws : List Word} (hp : p.words = w :: ws)
    (hw : selectOp w = none) : decode p = .illegal w ⟨ws, p.din⟩ := by
  simp [decode, hp, hw]

/-! ## What the decoder has read -/

theorem op_assemble (op : Opcode) (a : BitVec 24) (w : Word) (d : Bytes) : (assemble op a w d).op = op := by
  cases op <;> rfl

/-- Assembled from bytes of the length its format declares, and from an `A` of 0 where the format asks for it, an
operation is encoded with that `A` (R102, R103). -/
theorem fieldA_assemble {op : Opcode} {a : BitVec 24} {w : Word} {d : Bytes}
    (ha : op.format = .N ∨ op.format = .W → a = 0#24) (hd : d.length = op.format.dinLen a) :
    (assemble op a w d).fieldA = a := by
  have hlen (h : d.length = a.toNat) : BitVec.ofNat 24 d.length = a := by rw [h, BitVec.ofNat_toNat, BitVec.setWidth_eq]
  cases op
  case encMeta => exact (ha (.inr rfl)).symm
  case rxReset | txNext | txTimeout | txAbort | reset => exact (ha (.inl rfl)).symm
  case rxRead | rdReg => rfl
  all_goals exact hlen hd

theorem din_assemble {op : Opcode} {a : BitVec 24} {w : Word} {d : Bytes} (hd : d.length = op.format.dinLen a) :
    (assemble op a w d).din = d := by
  cases op
  case encMeta | rxReset | txNext | txTimeout | txAbort | reset | rxRead | rdReg =>
    exact (List.eq_nil_of_length_eq_zero hd).symm
  all_goals rfl

theorem word1_assemble (op : Opcode) (a : BitVec 24) (w : Word) (d : Bytes) :
    (assemble op a w d).word1 = if op.format.hasWord1 then [w] else [] := by
  cases op <;> rfl

/-- The word taken stands before the words left, where the format has one. -/
theorem word1_assemble_append {op : Opcode} {a : BitVec 24} {w : Word} {d : Bytes} {ws rest : List Word}
    (h : takeWord1 op.format ws = some (w, rest)) : (assemble op a w d).word1 ++ rest = ws := by
  rw [word1_assemble]
  rcases takeWord1_cases op.format ws with ⟨hf, e⟩ | ⟨_, _, e⟩ | ⟨hf, w', rest', rfl, e⟩ <;> rw [e] at h <;> cases h
  · rw [hf]; rfl
  · rw [hf]; rfl

theorem dinLen_lt (f : Format) (a : BitVec 24) : f.dinLen a < 2 ^ 24 := by
  cases f
  case L | LW => exact a.isLt
  all_goals exact Nat.two_pow_pos 24

/-- What the decoder's reading of an operation tells of the port: its first word selects a row, and the format's word
and bytes follow. -/
theorem decode_instr {p rest : Port} {i : Instr} (h : decode p = .instr i rest) :
    ∃ w0 ws op w d, p.words = w0 :: ws ∧ selectOp w0 = some op ∧ takeWord1 op.format ws = some (w, rest.words) ∧
      d.length = op.format.dinLen (fieldA w0) ∧ p.din = d ++ rest.din ∧ i = assemble op (fieldA w0) w d := by
  unfold decode at h
  split at h
  · cases h
  · rename_i w0 ws hwords
    split at h
    · cases h
    · rename_i op hop
      unfold decodeOperands at h
      split at h
      · cases h
      · rename_i w ws' hw
        rcases takeDin_cases (op.format.dinLen (fieldA w0)) p.din with ⟨_, e⟩ | ⟨d, din', hd, hdin, e⟩ <;>
          rw [e] at h <;> cases h
        exact ⟨w0, ws, op, w, d, hwords, hop, hw, hd, hdin, rfl⟩

/-- Settles O2: the port is the first word, the word its format takes and the bytes, each where the encoder puts it. -/
theorem encodeOfDecodeIsThePort : Obligations.EncodeOfDecodeIsThePort := by
  intro p rest i h
  obtain ⟨w0, ws, op, w, d, hwords, hop, hw, hd, hdin, rfl⟩ := decode_instr h
  rw [← word_split w0] at hop
  obtain ⟨hcode, hzero⟩ := code_of_selectOp hop
  have hbytes := din_assemble (w := w) hd
  have hword0 : (assemble op (fieldA w0) w d).word0 = w0 := by
    rw [Instr.word0, op_assemble, fieldA_assemble hzero hd, ← hcode, word_split]
  refine ⟨?wf, ?port⟩
  case wf => rw [Instr.wf, hbytes, lenFits, hd]; exact dinLen_lt _ _
  case port =>
    rw [encode, Port.append, hword0, hbytes, ← hdin, List.cons_append, word1_assemble_append hw, ← hwords]

/-- Settles O4: the decoder runs on each of the seven. -/
theorem decodeReadsTheWorkedEncodings : Obligations.DecodeReadsTheWorkedEncodings := by
  unfold Obligations.DecodeReadsTheWorkedEncodings
  decide

end Sys2Proof

namespace Sys2Proof.Machine

theorem step_of_decode_illegal {s : State} {w : Word} {rest : Port} (hr : s.resetIn = false)
    (hd : decode s.port = .illegal w rest) : step s = illegalCommand (s.withPort rest) w := by
  simp [step, hr, hd]

/-- Settles O5: the word selects nothing, and the step answers it as an illegal command. -/
theorem illegalCommandTakesOneWordAndChangesNothing : Obligations.IllegalCommandTakesOneWordAndChangesNothing := by
  intro s x a ws hr hp hx
  exact step_of_decode_illegal hr (decode_of_selectOp_none hp (selectOp_eq_none hx))

end Sys2Proof.Machine
end

section
/-! SUPPORT. The response (30_encoding.md R104): every operation that completes leaves one, and what `RDATA` can be is
said once for all operations, so that its width follows from the ranges of what it is taken from. -/

namespace Sys2Proof.Machine

/-- What an operation `i` performed in state `s` can answer as `RDATA` (R251, R253): 0, a number from its operands, a
count or cursor of one of the units, the frame count of a session it starts, or what a register reads as. -/
inductive RdataOf (i : Instr) (s : State) : Nat → Prop
  | zero : RdataOf i s 0
  | length : RdataOf i s i.din.length
  | operand {n : BitVec 24} (h : i = .rdReg n) : RdataOf i s n.toNat
  | frameSeq {n : Nat} {k p : Bytes} (h : parseFrame s.cfg i.din = .frame n k p) : RdataOf i s n
  | ackSeq {n : Nat} {k : Bytes} (h : parseAck s.cfg i.din = .ack n k) : RdataOf i s n
  | expectedSeq : RdataOf i s s.rx.expectedSeq
  | rxLen : RdataOf i s s.rx.rxLen
  | windowBase : RdataOf i s s.tx.windowBase
  | sendPtr : RdataOf i s s.tx.sendPtr
  | nextSeq : RdataOf i s s.tx.nextSeq
  | total {b : Bytes} {ps : Word} (h : i = .txLoad b ps) (hle : totalFrames b.length ps.toNat ≤ s.cfg.maxFrames) :
      RdataOf i s (totalFrames b.length ps.toNat)
  | register (g : Register) : RdataOf i s (g.value s)

/-- The state `t` holds a response whose `RDATA` is one of those that `i` can answer in `s`. -/
abbrev Answers (i : Instr) (s t : State) : Prop := ∃ r, t.response = some r ∧ RdataOf i s r.rdata

/-! ## The response each operation leaves -/

section
variable {i : Instr} {s t : State}

theorem rdata_of_acceptFrame {u : RxUnit} {seq : Nat} {k : Bytes} (h : acceptFrame s u seq k = .next t) :
    ∃ r, t.response = some r ∧ r.rdata = seq := by
  rcases acceptFrame_cases s u seq k with ⟨_, e⟩ | ⟨_, e⟩ <;> rw [e] at h <;> cases h <;> exact ⟨_, rfl, rfl⟩

theorem rdata_of_sendFrame {u : TxUnit} {k : Nat} {st : Status} (h : sendFrame s u k st = .next t) :
    ∃ r, t.response = some r ∧ r.rdata = k := by
  rcases sendFrame_cases s u k st with ⟨d, _, e⟩ | ⟨f, _, e⟩ <;> rw [e] at h <;> cases h
  exact ⟨_, rfl, rfl⟩

theorem rdata_of_advanceWindow {seq : Nat} (h : advanceWindow s seq = .next t) :
    ∃ r, t.response = some r ∧ r.rdata = seq := by
  rcases advanceWindow_cases s seq with ⟨_, e⟩ | ⟨_, _, e⟩ | ⟨_, _, e⟩ <;> rw [e] at h <;> cases h <;>
    exact ⟨_, rfl, rfl⟩

theorem answers_of_exec_codec (hi : i.isCodec = true) (h : exec i s = .next t) : Answers i s t := by
  obtain ⟨st, n, dout, wire, e, _, hn⟩ := exec_codec_cases i s hi
  rw [e] at h
  cases h
  refine ⟨_, rfl, ?_⟩
  rcases hn with rfl | rfl | ⟨k, p, hp⟩ | ⟨k, hp⟩
  · exact .zero
  · exact .length
  · exact .frameSeq hp
  · exact .ackSeq hp

theorem answers_of_execRxFrame {raw : Bytes} (h : execRxFrame raw s = .next t) : Answers (.rxFrame raw) s t := by
  have haccept {u : RxUnit} {k : Bytes} (h : acceptFrame s u s.rx.expectedSeq k = .next t) :
      Answers (.rxFrame raw) s t := by
    obtain ⟨r, hr, hn⟩ := rdata_of_acceptFrame h
    exact ⟨r, hr, hn ▸ .expectedSeq⟩
  rcases execRxFrame_cases raw s with
    ⟨st, n, e, _, hn⟩ | ⟨_, _, e⟩ | ⟨_, k, p, _, _, _, _, e⟩ | ⟨_, k, p, m, _, _, _, _, e⟩ <;> rw [e] at h
  case inl =>
    cases h
    refine ⟨_, rfl, ?_⟩
    rcases hn with rfl | rfl | ⟨k, p, hp⟩
    · exact .expectedSeq
    · exact .length
    · exact .frameSeq hp
  case inr.inl =>
    cases h
    exact ⟨_, rfl, .expectedSeq⟩
  case inr.inr.inl => exact haccept h
  case inr.inr.inr => exact haccept h

theorem answers_of_execRxRead {offset : Word} {n : BitVec 24} (h : execRxRead offset n s = .next t) :
    Answers (.rxRead offset n) s t := by
  rcases execRxRead_cases offset n s with ⟨st, e, _⟩ | ⟨_, _, ⟨bs, _, e⟩ | ⟨f, _, e⟩⟩ <;> rw [e] at h <;> cases h <;>
    exact ⟨_, rfl, .rxLen⟩

theorem answers_of_execTxLoad {b : Bytes} {ps : Word} (h : execTxLoad b ps s = .next t) :
    Answers (.txLoad b ps) s t := by
  rcases execTxLoad_cases b ps s with ⟨st, e, _⟩ | ⟨_, _, _, _, htotal, m, _, e⟩ <;> rw [e] at h <;> cases h
  · exact ⟨_, rfl, .zero⟩
  · exact ⟨_, rfl, .total rfl htotal⟩

theorem answers_of_execTxNext (h : execTxNext s = .next t) : Answers .txNext s t := by
  rcases execTxNext_cases s with ⟨st, n, e, _, hn⟩ | ⟨_, _, e⟩ | ⟨_, _, _, e⟩ <;> rw [e] at h
  case inl =>
    cases h
    refine ⟨_, rfl, ?_⟩
    rcases hn with ⟨_, _, rfl⟩ | ⟨_, _, _, rfl, _⟩
    · exact .zero
    · exact .windowBase
  case inr.inl =>
    obtain ⟨r, hr, hn⟩ := rdata_of_sendFrame h
    exact ⟨r, hr, hn ▸ .sendPtr⟩
  case inr.inr =>
    obtain ⟨r, hr, hn⟩ := rdata_of_sendFrame h
    exact ⟨r, hr, hn ▸ .nextSeq⟩

theorem answers_of_execTxAck {raw : Bytes} (h : execTxAck raw s = .next t) : Answers (.txAck raw) s t := by
  rcases execTxAck_cases raw s with ⟨st, n, e, _, _, hn⟩ | ⟨_, _, e⟩ | ⟨_, seq, k, hp, _, _, ⟨_, e⟩ | ⟨f, _, e⟩⟩ <;>
    rw [e] at h
  case inl =>
    cases h
    refine ⟨_, rfl, ?_⟩
    rcases hn with rfl | rfl | ⟨k, hp⟩
    · exact .zero
    · exact .length
    · exact .ackSeq hp
  case inr.inl =>
    cases h
    exact ⟨_, rfl, .zero⟩
  case inr.inr.inl =>
    obtain ⟨r, hr, hn⟩ := rdata_of_advanceWindow h
    exact ⟨r, hr, hn ▸ .ackSeq hp⟩
  case inr.inr.inr => cases h

theorem answers_of_execTxTimeout (h : execTxTimeout s = .next t) : Answers .txTimeout s t := by
  rcases execTxTimeout_cases s with ⟨_, e⟩ | ⟨_, _, e⟩ <;> rw [e] at h <;> cases h
  · exact ⟨_, rfl, .zero⟩
  · exact ⟨_, rfl, .windowBase⟩

theorem answers_of_execRdReg {n : BitVec 24} (h : execRdReg n s = .next t) : Answers (.rdReg n) s t := by
  rcases execRdReg_cases n s with ⟨_, e⟩ | ⟨g, _, e⟩ <;> rw [e] at h <;> cases h
  · exact ⟨_, rfl, .operand rfl⟩
  · exact ⟨_, rfl, .register g⟩

/-- Every operation that completes leaves a response, and its `RDATA` is one of those `RdataOf` lists. -/
theorem answers_of_exec (h : exec i s = .next t) : Answers i s t := by
  cases i
  case rxFrame raw => exact answers_of_execRxFrame h
  case rxRead offset n => exact answers_of_execRxRead h
  case txLoad b ps => exact answers_of_execTxLoad h
  case txNext => exact answers_of_execTxNext h
  case txAck raw => exact answers_of_execTxAck h
  case txTimeout => exact answers_of_execTxTimeout h
  case rdReg n => exact answers_of_execRdReg h
  case rxReset | txAbort | reset =>
    cases h
    exact ⟨_, rfl, .zero⟩
  all_goals exact answers_of_exec_codec rfl h

/-- No operation touches the parameters, the port or the reset input. -/
theorem sameConnections_of_exec (h : exec i s = .next t) : sameConnections s t := by
  rcases i.family_cases with hcodec | hrx | htx | ⟨n, rfl⟩ | rfl
  · rw [exec_codec_frame hcodec h]
    exact ⟨rfl, rfl, rfl⟩
  · rw [exec_rx_frame hrx h]
    exact ⟨rfl, rfl, rfl⟩
  · rw [exec_tx_frame htx h]
    exact ⟨rfl, rfl, rfl⟩
  · change execRdReg n s = .next t at h
    rcases execRdReg_cases n s with ⟨_, e⟩ | ⟨g, _, e⟩ <;> rw [e] at h <;> cases h <;> exact ⟨rfl, rfl, rfl⟩
  · cases h
    exact ⟨rfl, rfl, rfl⟩

end

/-- Settles O46: what every operation leaves unchanged, and the response it leaves. -/
theorem everyOperationGivesOneResponse : Obligations.EveryOperationGivesOneResponse := by
  intro i s t h
  obtain ⟨r, hr, _⟩ := answers_of_exec h
  exact ⟨sameConnections_of_exec h, r, hr⟩

/-! ## The width of `RDATA` -/

section
variable {c : Config} {s : State}

theorem seqW_le (hc : c.wf) : c.seqW ≤ 32 := by
  obtain ⟨_, hseq, _⟩ := hc
  unfold Config.seqW
  omega

theorem lt_of_lt_two_pow_seqW (hc : c.wf) {n : Nat} (h : n < 2 ^ c.seqW) : n < 2 ^ 32 :=
  h.trans_le (Nat.pow_le_pow_right (by decide) (seqW_le hc))

theorem lt_of_le_maxFrames (hc : c.wf) {n : Nat} (h : n ≤ c.maxFrames) : n < 2 ^ 32 := by
  have hpos : 0 < 2 ^ c.seqW := Nat.two_pow_pos _
  unfold Config.maxFrames at h
  exact lt_of_lt_two_pow_seqW hc (by omega)

/-- The next expected number does not pass the frame count of the session (R29). -/
theorem RxInv.expectedSeq_le {u : RxUnit} (h : RxInv c u) : u.expectedSeq ≤ c.maxFrames := by
  obtain ⟨hawait, hreceiving, hcomplete, _, _, _, htotal, _⟩ := h
  cases hst : u.rxState with
  | awaitInit =>
    obtain ⟨h0, _⟩ := hawait hst
    omega
  | receiving =>
    obtain ⟨_, hlt, _⟩ := hreceiving hst
    omega
  | complete =>
    obtain ⟨heq, _⟩ := hcomplete hst
    omega

/-- None of the sender's cursors passes the frame count of the session (R39). -/
theorem TxInv.cursors_le {u : TxUnit} (h : TxInv c u) :
    u.windowBase ≤ c.maxFrames ∧ u.sendPtr ≤ c.maxFrames ∧ u.nextSeq ≤ c.maxFrames := by
  obtain ⟨hidle, hsession⟩ := h
  by_cases hst : u.txState = .idle
  · rw [hidle hst]
    exact ⟨Nat.zero_le _, Nat.zero_le _, Nat.zero_le _⟩
  · obtain ⟨⟨_, _, _, _⟩, _⟩ := hsession hst
    omega

theorem lt_rdata_of_lt {n : Nat} (h : n < 2 ^ 56) : n < 2 ^ max 128 (8 * c.ckBytes) :=
  h.trans_le (Nat.pow_le_pow_right (by decide) (by omega))

/-- Every register of the map fits `RDATA` (R43, R104). -/
theorem Register.width_le (hc : c.wf) (g : Register) : g.width c ≤ max 128 (8 * c.ckBytes) := by
  have hseq : c.seqW ≤ 32 := seqW_le hc
  cases g <;> simp only [Register.width, Config.ckW] <;> omega

theorem RdataOf.lt {i : Instr} {n : Nat} (h : RdataOf i s n) (hinv : Invariant s) (hi : i.wf) :
    n < 2 ^ max 128 (8 * s.cfg.ckBytes) := by
  obtain ⟨hc, hrx, htx⟩ := hinv
  have hseq {m : Nat} (hm : m < 2 ^ 32) : m < 2 ^ max 128 (8 * s.cfg.ckBytes) := lt_rdata_of_lt (hm.trans (by decide))
  have hexpected : s.rx.expectedSeq < 2 ^ 32 := lt_of_le_maxFrames hc hrx.expectedSeq_le
  obtain ⟨hbase, hptr, hnext⟩ := htx.cursors_le
  cases h with
  | zero => exact Nat.two_pow_pos _
  | length => exact hseq (hi.trans (by decide))
  | @operand n _ => exact hseq (n.isLt.trans (by decide))
  | frameSeq hp =>
    obtain ⟨_, hlt, _⟩ := parseFrame_frame hp
    exact hseq (lt_of_lt_two_pow_seqW hc hlt)
  | ackSeq hp =>
    obtain ⟨_, hlt, _⟩ := parseAck_ack hp
    exact hseq (lt_of_lt_two_pow_seqW hc hlt)
  | expectedSeq => exact hseq hexpected
  | rxLen =>
    obtain ⟨_, _, _, _, _, _, _, _, _, hlen⟩ := hrx
    exact lt_rdata_of_lt (by omega)
  | windowBase => exact hseq (lt_of_le_maxFrames hc hbase)
  | sendPtr => exact hseq (lt_of_le_maxFrames hc hptr)
  | nextSeq => exact hseq (lt_of_le_maxFrames hc hnext)
  | total _ hle => exact hseq (lt_of_le_maxFrames hc hle)
  | register g => exact (g.value_lt s).trans_le (Nat.pow_le_pow_right (by decide) (g.width_le hc))

end

/-- Settles O50: `RDATA` is one of the numbers an operation can answer, and each of them fits. -/
theorem rdataFitsItsField : Obligations.RdataFitsItsField := by
  intro i s t r hinv hi h hr
  obtain ⟨r', hr', hrdata⟩ := answers_of_exec h
  obtain rfl : r' = r := Option.some.inj (hr'.symm.trans hr)
  exact hrdata.lt hinv hi

end Sys2Proof.Machine
end

section
/-! SUPPORT. A sending session in which each frame is acknowledged as it is sent (30_encoding.md R115): the frames of a
session just loaded are the encoding of its buffer, and one round of `TX_NEXT` and `TX_ACK` emits the next of them. -/

namespace Sys2Proof.Machine

/-! ## The frames of a session just loaded (40_codec.md R139, R140) -/

/-- Every data frame's chunk begins inside the buffer (R139). -/
theorem chunk_start_lt {len ps k : Nat} (hps : 1 ≤ ps) (hk : k ≠ 0) (h : k < totalFrames len ps) :
    (k - 1) * ps < len := by
  have hdiv : k - 1 < (len + (ps - 1)) / ps := by
    unfold totalFrames ceilDiv at h
    omega
  have hmul := (Nat.lt_div_iff_mul_lt hps).1 hdiv
  omega

theorem chunk_length (b : Bytes) (ps k : Nat) :
    (chunk b ps k).length = min (k * ps) b.length - (k - 1) * ps := by
  rw [chunk, slice_length]
  omega

theorem chunk_getElem? {b : Bytes} {ps k j : Nat} (hj : j < (chunk b ps k).length) :
    (chunk b ps k)[j]? = b[(k - 1) * ps + j]? := by
  rw [chunk_length] at hj
  rw [chunk, slice, List.getElem?_take_of_lt hj, List.getElem?_drop]

section
variable {t : State} {b : Bytes} {m : Memory} {ps k : Nat}

/-- The payload of a data frame is its chunk of the buffer that was written to TBUF. -/
theorem payloadOf_loadedUnit (ht : t.tx = loadedUnit m b.length ps) (hm : memWrite t.cfg .tbuf [] 0 b = .ok m)
    (hb : b.length ≤ t.cfg.txCap) (hps : 1 ≤ ps) (hk : k ≠ 0) (hlt : k < totalFrames b.length ps) :
    payloadOf t k = .ok (chunk b ps k) := by
  obtain ⟨_, _, hread⟩ := memWrite_ok hm
  have hstart : (k - 1) * ps < b.length := chunk_start_lt hps hk hlt
  have hlen := chunk_length b ps k
  have hfits : fitsCap (Space.tbuf.cap t.cfg) ((k - 1) * ps + (chunk b ps k).length) = true := by
    rw [Space.cap_tbuf, fitsCap, decide_eq_true_eq]
    omega
  have hbytes (j : Nat) (hj : j < (chunk b ps k).length) :
      (t.mem .tbuf).read? ((k - 1) * ps + j) = (chunk b ps k)[j]? := by
    have htbuf : t.mem .tbuf = m := by rw [State.mem_tbuf, ht]; rfl
    rw [htbuf, hread, if_pos (by omega), Nat.sub_zero, chunk_getElem? hj]
  have hpayload := memRead_of_read? hfits hbytes
  rw [hlen] at hpayload
  rw [payloadOf, if_neg hk, ht]
  exact hpayload

theorem frameOf_loadedUnit (ht : t.tx = loadedUnit m b.length ps) (hm : memWrite t.cfg .tbuf [] 0 b = .ok m)
    (hb : b.length ≤ t.cfg.txCap) (hps : 1 ≤ ps) (hlt : k < totalFrames b.length ps) :
    frameOf t k = .ok (encodeFrame t.cfg b ps k) := by
  by_cases hk : k = 0
  · subst hk
    rw [frameOf, payloadOf, if_pos rfl, encodeFrame, if_pos rfl, ht]
    rfl
  · rw [frameOf, payloadOf_loadedUnit ht hm hb hps hk hlt, encodeFrame, if_neg hk]

end

/-! ## The matching acknowledgment (30_encoding.md R93) -/

theorem matchingAck_mkFrame (c : Config) (k : Nat) (p : Bytes) :
    matchingAck c (mkFrame c k p) = mkAck c k (ck c p) := by
  have hlen : (be c.seqBytes k ++ ck c p).length = c.hdrBytes := by
    rw [List.length_append, be_length, ck_length, Config.hdrBytes]
  exact List.take_left' hlen

/-- An acknowledgment is not taken for the marker, which is shorter, and parses as its fields (R95, R138). -/
theorem parseAck_mkAck {c : Config} (hc : c.wf) {q : Nat} {k : Bytes} (hq : q < 2 ^ c.seqW)
    (hk : k.length = c.ckBytes) : parseAck c (mkAck c q k) = .ack q k := by
  obtain ⟨_, _, _, _, _, _, _, hmarker, _⟩ := hc
  have hlen : (mkAck c q k).length = c.hdrBytes := by rw [mkAck_length, hk, Config.hdrBytes]
  have hne : mkAck c q k ≠ c.termMarker := fun h => by
    rw [← h, hlen] at hmarker
    exact lt_irrefl _ hmarker
  rw [parseAck_of_length hne hlen, seqField, mkAck, List.take_left' (be_length _ _), List.drop_left' (be_length _ _),
    ube_be (two_pow_seqW c ▸ hq)]

/-- The datagram of the frame in flight with the checksum the sender expects moves the window (R212, lines 6 to 8). -/
theorem execTxAck_of_expectedCk {s : State} {raw k : Bytes} {seq : Nat} (hst : s.tx.txState ≠ .idle)
    (hp : parseAck s.cfg raw = .ack seq k) (hbase : s.tx.windowBase ≤ seq) (hnext : seq < s.tx.nextSeq)
    (hk : expectedCk s seq = .ok k) : execTxAck raw s = advanceWindow s seq := by
  simp only [execTxAck, if_neg hst, hp, if_neg hbase.not_gt, if_neg hnext.not_ge, hk, ne_eq, not_true_eq_false, if_false]

/-! ## A round of `TX_NEXT` and `TX_ACK` -/

/-- The parameters, the RX unit and what fixes the frames of the session (R211) are as they were. -/
structure KeepsFrames (s t : State) : Prop where
  cfg : t.cfg = s.cfg
  rx : t.rx = s.rx
  txTotal : t.tx.txTotal = s.tx.txTotal
  packetSize : t.tx.packetSize = s.tx.packetSize
  txLen : t.tx.txLen = s.tx.txLen
  tbuf : t.tx.tbuf = s.tx.tbuf

/-- Every frame below `k` has been sent and acknowledged, and none from `k` up has been sent. -/
structure CaughtUp (s : State) (k : Nat) : Prop where
  windowBase : s.tx.windowBase = k
  nextSeq : s.tx.nextSeq = k
  sendPtr : s.tx.sendPtr = k
  txState : s.tx.txState = if k = s.tx.txTotal then .done else .active

section
variable {s t u : State} {k : Nat}

theorem KeepsFrames.refl (s : State) : KeepsFrames s s := ⟨rfl, rfl, rfl, rfl, rfl, rfl⟩

theorem KeepsFrames.trans (h : KeepsFrames s t) (h' : KeepsFrames t u) : KeepsFrames s u :=
  ⟨h'.cfg.trans h.cfg, h'.rx.trans h.rx, h'.txTotal.trans h.txTotal, h'.packetSize.trans h.packetSize,
    h'.txLen.trans h.txLen, h'.tbuf.trans h.tbuf⟩

theorem KeepsFrames.frameOf_eq (h : KeepsFrames s t) (k : Nat) : frameOf t k = frameOf s k :=
  frameOf_congr h.cfg h.txTotal h.packetSize h.txLen h.tbuf k

theorem perform_of_response {i : Instr} {r : Response} (h : exec i s = .next t) (hr : t.response = some r) :
    perform i s = some (r, t) := by
  simp [perform, h, hr]

/-- One operation that goes on can be performed, since it leaves a response (R104). -/
theorem performAll_singleton {i : Instr} (h : exec i s = .next t) : ∃ rs, performAll [i] s = some (rs, t) := by
  obtain ⟨r, hr, _⟩ := answers_of_exec h
  exact ⟨[r], by simp [performAll, perform_of_response h hr]⟩

theorem CaughtUp.done (h : CaughtUp s s.tx.txTotal) : s.tx.txState = .done := by rw [h.txState, if_pos rfl]

theorem CaughtUp.active (h : CaughtUp s k) (hk : k < s.tx.txTotal) : s.tx.txState = .active := by
  rw [h.txState, if_neg hk.ne]

/-- The unit of a sender after the frame at its cursor went out for the first time. -/
def TxUnit.sentNext (v : TxUnit) : TxUnit :=
  { v with nextSeq := v.nextSeq + 1, sendPtr := v.nextSeq + 1, timerArmed := true }

/-- A caught-up sender's `TX_NEXT` sends the next frame, since the window has room for one (R210). -/
theorem CaughtUp.execTxNext_eq (h : CaughtUp s k) (hw : 1 ≤ s.cfg.windowSize) (hk : k < s.tx.txTotal) {d : Bytes}
    (hd : frameOf s k = .ok d) :
    ∃ r, r.wire = [d] ∧ execTxNext s = .next ((s.withTx s.tx.sentNext).respond r) := by
  have hactive : s.tx.txState = .active := h.active hk
  obtain ⟨hbase, hnext, hptr, _⟩ := h
  have hlimit : k < sendLimit s := by
    unfold sendLimit
    omega
  rw [execTxNext, if_neg (not_not_intro hactive), if_neg (by omega), if_pos (by omega), sendFrame, hnext, hd]
  exact ⟨_, rfl, by rw [TxUnit.sentNext, hnext]; rfl⟩

/-- Past the one frame in flight the sender is caught up again, or done (R215). -/
theorem advanceWindow_of_oneInFlight (hst : s.tx.txState = .active) (hnext : s.tx.nextSeq = k + 1)
    (hptr : s.tx.sendPtr = k + 1) : ∃ t, advanceWindow s k = .next t ∧ CaughtUp t (k + 1) ∧ KeepsFrames s t := by
  have hmax : max s.tx.sendPtr (k + 1) = k + 1 := by rw [hptr, max_self]
  rcases advanceWindow_cases s k with ⟨htotal, e⟩ | ⟨_, hlt, _⟩ | ⟨htotal, _, e⟩
  · exact ⟨_, e, ⟨rfl, hnext, hmax, (if_pos htotal).symm⟩, ⟨rfl, rfl, rfl, rfl, rfl, rfl⟩⟩
  · omega
  · exact ⟨_, e, ⟨rfl, hnext, hmax, hst.trans (if_neg htotal).symm⟩, ⟨rfl, rfl, rfl, rfl, rfl, rfl⟩⟩

/-- The matching acknowledgment of the one frame in flight is accepted. -/
theorem execTxAck_matchingAck (hc : s.cfg.wf) (hst : s.tx.txState = .active) (hbase : s.tx.windowBase = k)
    (hnext : s.tx.nextSeq = k + 1) (hk : k < 2 ^ s.cfg.seqW) {d : Bytes} (hd : frameOf s k = .ok d) :
    execTxAck (matchingAck s.cfg d) s = advanceWindow s k := by
  rcases frameOf_cases s k with ⟨p, _, hframe, hck⟩ | ⟨f, _, hframe, _⟩ <;> rw [hframe] at hd <;> cases hd
  rw [matchingAck_mkFrame]
  refine execTxAck_of_expectedCk ?_ (parseAck_mkAck hc hk (ck_length _ _)) (by omega) (by omega) hck
  rw [hst]
  decide

/-- One round emits the next frame and leaves the sender caught up past it. -/
theorem CaughtUp.round (h : CaughtUp s k) (hc : s.cfg.wf) (hmax : s.tx.txTotal ≤ s.cfg.maxFrames)
    (hk : k < s.tx.txTotal) {d : Bytes} (hd : frameOf s k = .ok d) :
    ∃ r t rs u, perform .txNext s = some (r, t) ∧ r.wire = [d] ∧
      performAll [.txAck (matchingAck t.cfg d)] t = some (rs, u) ∧ CaughtUp u (k + 1) ∧ KeepsFrames s u := by
  have hw : 1 ≤ s.cfg.windowSize := by
    obtain ⟨_, _, _, _, hw, _⟩ := hc
    exact hw
  obtain ⟨r, hwire, hsend⟩ := h.execTxNext_eq hw hk hd
  have hsent : KeepsFrames s ((s.withTx s.tx.sentNext).respond r) := ⟨rfl, rfl, rfl, rfl, rfl, rfl⟩
  have hfits : k < 2 ^ s.cfg.seqW := by
    unfold Config.maxFrames at hmax
    omega
  have hnext : s.tx.nextSeq + 1 = k + 1 := by rw [h.nextSeq]
  obtain ⟨u, hadvance, hcaught, hkeep⟩ :=
    advanceWindow_of_oneInFlight (s := (s.withTx s.tx.sentNext).respond r) (h.active hk) hnext hnext
  have hack := execTxAck_matchingAck (s := (s.withTx s.tx.sentNext).respond r) hc (h.active hk) h.windowBase hnext hfits
    ((hsent.frameOf_eq k).trans hd)
  obtain ⟨rs, hrs⟩ := performAll_singleton (i := .txAck _) (hack.trans hadvance)
  exact ⟨r, _, rs, u, perform_of_response hsend rfl, hwire, hrs, hcaught, hsent.trans hkeep⟩

end

/-! ## The whole session -/

/-- As many rounds as frames are left emit these frames in order and end the session. -/
theorem ackedLoop_of_caughtUp (frame : Nat → Bytes) (n : Nat) :
    ∀ {s : State} {k : Nat}, CaughtUp s k → s.cfg.wf → s.tx.txTotal ≤ s.cfg.maxFrames → k + n = s.tx.txTotal →
      (∀ j, j < s.tx.txTotal → frameOf s j = .ok (frame j)) →
      ∃ t, ackedLoop n s = some ((List.range' k n).map frame, t) ∧ CaughtUp t t.tx.txTotal ∧ KeepsFrames s t := by
  induction n with
  | zero =>
    intro s k h _ _ hk _
    obtain rfl : k = s.tx.txTotal := hk
    exact ⟨s, by rw [ackedLoop, if_pos h.done]; rfl, h, .refl s⟩
  | succ n ih =>
    intro s k h hc hmax hk hframe
    have hlt : k < s.tx.txTotal := by omega
    obtain ⟨r, t, rs, u, hsend, hwire, hack, hcaught, hkeep⟩ := h.round hc hmax hlt (hframe k hlt)
    have hrest : ∃ v, ackedLoop n u = some ((List.range' (k + 1) n).map frame, v) ∧ CaughtUp v v.tx.txTotal ∧
        KeepsFrames u v :=
      ih hcaught (hkeep.cfg ▸ hc) (by rw [hkeep.txTotal, hkeep.cfg]; exact hmax) (by rw [hkeep.txTotal]; omega)
        fun j hj => (hkeep.frameOf_eq j).trans (hframe j (hkeep.txTotal ▸ hj))
    obtain ⟨v, hloop, hdone, hkeep'⟩ := hrest
    refine ⟨v, ?_, hdone, hkeep.trans hkeep'⟩
    have hnot : s.tx.txState ≠ .done := by rw [h.active hlt]; decide
    simp [ackedLoop, hnot, hsend, hwire, hack, hloop, List.range'_succ]

theorem encodeBuffer_eq_range' (c : Config) (b : Bytes) (ps : Nat) :
    encodeBuffer c b ps = (List.range' 0 (totalFrames b.length ps)).map (encodeFrame c b ps) := by
  rw [encodeBuffer, List.range_eq_range']

/-- A session just loaded has sent nothing, and its frame count is at least 1. -/
theorem caughtUp_loadedUnit {t : State} {m : Memory} {len ps : Nat} (ht : t.tx = loadedUnit m len ps) :
    CaughtUp t 0 := by
  have hne : 0 ≠ totalFrames len ps := by
    unfold totalFrames
    omega
  constructor <;> rw [ht]
  case txState => exact (if_neg hne).symm
  all_goals rfl

/-- The rounds of a session just loaded emit the encoding of its buffer. -/
theorem ackedLoop_of_loadedUnit {s : State} {b : Bytes} {m : Memory} {ps : Nat} (hs : s.tx = loadedUnit m b.length ps)
    (hm : memWrite s.cfg .tbuf [] 0 b = .ok m) (hc : s.cfg.wf) (hb : b.length ≤ s.cfg.txCap) (hps : 1 ≤ ps)
    (hmax : totalFrames b.length ps ≤ s.cfg.maxFrames) :
    ∃ t, ackedLoop s.tx.txTotal s = some (encodeBuffer s.cfg b ps, t) ∧ CaughtUp t t.tx.txTotal ∧ KeepsFrames s t := by
  have htotal : s.tx.txTotal = totalFrames b.length ps := by rw [hs]; rfl
  rw [encodeBuffer_eq_range', ← htotal]
  refine ackedLoop_of_caughtUp _ _ (caughtUp_loadedUnit hs) hc (htotal.trans_le hmax) (Nat.zero_add _) fun j hj => ?_
  exact frameOf_loadedUnit hs hm hb hps (htotal ▸ hj)

/-- `TX_LOAD` with legal operands starts a session over the loaded buffer (R205). -/
theorem execTxLoad_of_legal {s : State} {b : Bytes} {ps : Word} (hst : s.tx.txState ≠ .active) (hps : 1 ≤ ps.toNat)
    (hmax : ps.toNat ≤ s.cfg.maxPayload) (hcap : b.length ≤ s.cfg.txCap)
    (htotal : totalFrames b.length ps.toNat ≤ s.cfg.maxFrames) :
    ∃ m, memWrite s.cfg .tbuf [] 0 b = .ok m ∧ execTxLoad b ps s =
      .next ((s.withTx (loadedUnit m b.length (heldPacketSize b.length ps.toNat))).respond
        { status := .ok, rdata := totalFrames b.length ps.toNat }) := by
  have hfits : fitsCap (Space.tbuf.cap s.cfg) (0 + b.length) = true := by
    rw [Space.cap_tbuf, fitsCap, decide_eq_true_eq, Nat.zero_add]
    exact hcap
  obtain ⟨m, hm⟩ := memWrite_of_fits [] hfits
  have hlegal : ¬ (ps.toNat = 0 || decide (s.cfg.maxPayload < ps.toNat) || decide (s.cfg.txCap < b.length)) = true := by
    simp only [Bool.or_eq_true, decide_eq_true_eq]
    omega
  exact ⟨m, hm, by rw [execTxLoad, if_neg hst, if_neg hlegal, if_neg htotal.not_gt, hm]; rfl⟩

theorem one_le_heldPacketSize {len w : Nat} (hw : 1 ≤ w) : 1 ≤ heldPacketSize len w := by
  by_cases hl : len < 2 ^ 24
  · rcases heldPacketSize_cases (w := w) hl with ⟨_, e⟩ | ⟨_, hpos, _⟩
    · rwa [e]
    · exact hpos
  · rwa [heldPacketSize_of_le (by omega)]

/-- Settles O39: the load starts a session whose frames are the encoding, and the rounds emit them all. -/
theorem senderEmitsTheEncodingAndFinishes : Obligations.SenderEmitsTheEncodingAndFinishes := by
  intro s b ps hc hst hps hmax hcap htotal
  have hcount := totalFrames_heldPacketSize (len := b.length) hps
  obtain ⟨m, hm, hload⟩ := execTxLoad_of_legal hst hps hmax hcap htotal
  obtain ⟨t, hrun, hdone, hkeep⟩ :=
    ackedLoop_of_loadedUnit (s := (s.withTx (loadedUnit m b.length (heldPacketSize b.length ps.toNat))).respond
      { status := .ok, rdata := totalFrames b.length ps.toNat })
      rfl hm hc hcap (one_le_heldPacketSize hps) (hcount.trans_le htotal)
  have hperform := perform_of_response (i := .txLoad b ps) hload rfl
  have hbase : t.tx.windowBase = totalFrames b.length ps.toNat := (hdone.windowBase.trans hkeep.txTotal).trans hcount
  rw [encodeBuffer_heldPacketSize _ _ hps] at hrun
  exact ⟨t, by rw [encodeOps, hperform]; exact hrun, hdone.done, hbase, hkeep.rx⟩

end Sys2Proof.Machine
end

section
/-! SUPPORT. The datagrams by their fields (30_encoding.md R90 to R93; 40_codec.md R132 to R135): what a frame and an
acknowledgment that the CODEC makes hold in each field, and that parsing one gives these fields back. -/

namespace Sys2Proof.Machine

section
variable {c : Config} {q : Nat} {k p : Bytes}

theorem seqField_mkAck (hq : q < 2 ^ c.seqW) : seqField c (mkAck c q k) = q := by
  rw [seqField, mkAck, List.take_left' (be_length _ _), ube_be (two_pow_seqW c ▸ hq)]

theorem drop_seqBytes_mkAck (c : Config) (q : Nat) (k : Bytes) : (mkAck c q k).drop c.seqBytes = k :=
  List.drop_left' (be_length _ _)

theorem drop_seqBytes_mkFrame (c : Config) (q : Nat) (p : Bytes) :
    (mkFrame c q p).drop c.seqBytes = ck c p ++ p := by
  rw [mkFrame, List.append_assoc, List.drop_left' (be_length _ _)]

theorem seqField_mkFrame (hq : q < 2 ^ c.seqW) : seqField c (mkFrame c q p) = q := by
  rw [seqField, mkFrame, List.append_assoc, List.take_left' (be_length _ _), ube_be (two_pow_seqW c ▸ hq)]

theorem ckField_mkFrame (c : Config) (q : Nat) (p : Bytes) :
    ((mkFrame c q p).drop c.seqBytes).take c.ckBytes = ck c p := by
  rw [drop_seqBytes_mkFrame, List.take_left' (ck_length _ _)]

theorem payload_mkFrame (c : Config) (q : Nat) (p : Bytes) : (mkFrame c q p).drop c.hdrBytes = p := by
  rw [Config.hdrBytes, ← List.drop_drop, drop_seqBytes_mkFrame, List.drop_left' (ck_length _ _)]

theorem checksumGood_mkFrame (c : Config) (q : Nat) (p : Bytes) : checksumGood c (mkFrame c q p) := by
  rw [checksumGood, payload_mkFrame, ckField_mkFrame]

theorem verifies_ck (c : Config) (p : Bytes) : verifies c (ck c p) p = true := beq_self_eq_true _

theorem frameLength_mkFrame (hp : p.length ≤ c.maxPayload) : frameLength c (mkFrame c q p) := by
  rw [frameLength, mkFrame_length, Config.maxRaw]
  omega

theorem parseFrame_mkFrame (hq : q < 2 ^ c.seqW) (hp : p.length ≤ c.maxPayload) :
    parseFrame c (mkFrame c q p) = .frame q (ck c p) p := by
  rw [parseFrame_of_frameLength (frameLength_mkFrame hp), seqField_mkFrame hq, ckField_mkFrame, payload_mkFrame]

/-- Building a parsed frame again gives the datagram exactly when its checksum field is the payload's checksum: the
other two fields are the datagram's own. -/
theorem mkFrame_eq_iff_verifies {raw : Bytes} (h : parseFrame c raw = .frame q k p) :
    mkFrame c q p = raw ↔ verifies c k p = true := by
  obtain ⟨rfl, _⟩ := parseFrame_frame h
  rw [mkFrame, List.append_left_inj, List.append_right_inj, verifies, beq_iff_eq]

end

end Sys2Proof.Machine
end

section
/-! SUPPORT. The six codec operations (40_codec.md R141 to R146, R150): what each answers, by the datagram's fields. -/

namespace Sys2Proof.Machine

/-- Settles O11: the frame of legal operands has their fields; `BAD_PARAM` answers the rest. -/
theorem encFrameEmitsTheFrame : Obligations.EncFrameEmitsTheFrame := by
  intro s seq p
  have hguard : (!seqFits s.cfg seq.toNat || decide (s.cfg.maxPayload < p.length)) = true ↔
      ¬ (seq.toNat < 2 ^ s.cfg.seqW ∧ p.length ≤ s.cfg.maxPayload) := by
    simp [seqFits, imp_iff_not_or]
  refine ⟨fun h => ?legal, fun h => ?bad⟩
  case legal =>
    obtain ⟨hq, hp⟩ := h
    exact ⟨mkFrame s.cfg seq.toNat p, if_neg fun hb => hguard.1 hb ⟨hq, hp⟩, mkFrame_length .., seqField_mkFrame hq,
      ckField_mkFrame .., payload_mkFrame ..⟩
  case bad => exact if_pos (hguard.2 h)

/-- Settles O12: the frame of number 0 whose payload is the total; `BAD_PARAM` answers a total out of range. -/
theorem encMetaEmitsTheMetadataFrame : Obligations.EncMetaEmitsTheMetadataFrame := by
  intro s total
  have hguard : (decide (total.toNat = 0) || decide (s.cfg.maxFrames < total.toNat)) = true ↔
      ¬ (1 ≤ total.toNat ∧ total.toNat ≤ 2 ^ s.cfg.seqW - 1) := by
    rw [Config.maxFrames, Bool.or_eq_true, decide_eq_true_eq, decide_eq_true_eq]
    omega
  refine ⟨fun h => ?legal, fun h => ?bad⟩
  case legal =>
    have hlt : total.toNat < 256 ^ s.cfg.seqBytes := by
      rw [← two_pow_seqW]
      omega
    refine ⟨mkMeta s.cfg total.toNat, if_neg fun hb => hguard.1 hb h, ?_,
      seqField_mkFrame (Nat.two_pow_pos _), checksumGood_mkFrame .., ?_⟩
    · rw [mkMeta, mkFrame_length, be_length]
    · rw [mkMeta, payload_mkFrame, ube_be hlt]
  case bad => exact if_pos (hguard.2 h)

/-- Settles O13: the acknowledgment of legal operands has their fields; `BAD_PARAM` answers the rest. -/
theorem encAckEmitsTheAcknowledgment : Obligations.EncAckEmitsTheAcknowledgment := by
  intro s seq k
  have hguard : (!seqFits s.cfg seq.toNat || decide (k.length ≠ s.cfg.ckBytes)) = true ↔
      ¬ (seq.toNat < 2 ^ s.cfg.seqW ∧ k.length = s.cfg.ckBytes) := by
    simp [seqFits, imp_iff_not_or]
  refine ⟨fun h => ?legal, fun h => ?bad⟩
  case legal =>
    obtain ⟨hq, hk⟩ := h
    refine ⟨mkAck s.cfg seq.toNat k, if_neg fun hb => hguard.1 hb ⟨hq, hk⟩, ?_, seqField_mkAck hq,
      drop_seqBytes_mkAck ..⟩
    rw [mkAck_length, hk, Config.hdrBytes]
  case bad => exact if_pos (hguard.2 h)

/-- The checksum field and the payload are what follows the sequence number (R90). -/
theorem ckField_append_payload (c : Config) (raw : Bytes) :
    (raw.drop c.seqBytes).take c.ckBytes ++ raw.drop c.hdrBytes = raw.drop c.seqBytes := by
  rw [Config.hdrBytes, ← List.drop_drop, List.take_append_drop]

/-- Settles O14: the three lengths of a datagram give the three parses. -/
theorem decFrameSplitsTheDatagram : Obligations.DecFrameSplitsTheDatagram := by
  intro s raw
  refine ⟨fun h => ?short, fun h => ?oversize, fun h => ?frame⟩ <;> simp only [exec, execDecFrame]
  case short => rw [parseFrame_of_short h]; rfl
  case oversize => rw [parseFrame_of_oversize h]; rfl
  case frame => simp only [parseFrame_of_frameLength h, ckField_append_payload, complete_eq]

/-- Settles O16: the three lengths give the three parses, and a frame is compared with its payload's checksum. -/
theorem verifyComparesTheChecksum : Obligations.VerifyComparesTheChecksum := by
  intro s raw
  refine ⟨fun h => ?short, fun h => ?oversize, fun h hgood => ?good, fun h hbad => ?bad⟩ <;>
    simp only [exec, execVerify]
  case short => rw [parseFrame_of_short h]; rfl
  case oversize => rw [parseFrame_of_oversize h]; rfl
  case good =>
    rw [parseFrame_of_frameLength h]
    exact if_pos ((verifies_iff_checksumGood ..).2 hgood)
  case bad =>
    rw [parseFrame_of_frameLength h]
    exact if_neg (mt (verifies_iff_checksumGood ..).1 hbad)

/-- Settles O15: the marker, the acknowledgment's length and the rest give the three parses. -/
theorem decAckClassifiesTheDatagram : Obligations.DecAckClassifiesTheDatagram := by
  intro s raw
  refine ⟨fun h => ?term, fun hm hlen => ?invalid, fun hm hlen => ?ack⟩ <;> simp only [exec, execDecAck]
  case term => rw [parseAck, if_pos h]; rfl
  case invalid => rw [parseAck, if_neg hm, if_neg hlen]; rfl
  case ack => rw [parseAck_of_length hm hlen]; rfl

/-- Settles O17: the response is the one given right after reset, since the operation reads the parameters alone. -/
theorem codecOperationsTouchNoState : Obligations.CodecOperationsTouchNoState := by
  intro i c hi
  obtain ⟨st, n, dout, wire, hreset, _⟩ := exec_codec_cases i (State.resetWith c) hi
  refine ⟨{ status := st, rdata := n, dout := dout, wire := wire }, rfl, fun s hs => ?_⟩
  exact exec_codec_next_of_agree hi hs hreset

end Sys2Proof.Machine
end

section
/-! SUPPORT. The chunks of an encoded buffer (40_codec.md R139): how many there are, and that each is what stands next
in the buffer. -/

namespace Sys2Proof.Machine

theorem ceilDiv_le_iff {a b q : Nat} (hb : 1 ≤ b) : ceilDiv a b ≤ q ↔ a ≤ q * b := by
  rw [ceilDiv, ← Nat.lt_succ_iff, Nat.div_lt_iff_lt_mul hb, Nat.succ_mul]
  omega

/-- That many chunks hold the whole buffer. -/
theorem le_ceilDiv_mul (a : Nat) {b : Nat} (hb : 1 ≤ b) : a ≤ ceilDiv a b * b := (ceilDiv_le_iff hb).1 le_rfl

theorem ceilDiv_of_leastPieces {len ps n : Nat} (hps : 1 ≤ ps) (h : leastPieces len ps n) : ceilDiv len ps = n := by
  obtain ⟨hholds, hleast⟩ := h
  exact le_antisymm ((ceilDiv_le_iff hps).2 hholds) (hleast _ (le_ceilDiv_mul len hps))

theorem chunk_succ_eq_take (b : Bytes) (ps j : Nat) : chunk b ps (j + 1) = (b.drop (j * ps)).take ps := by
  have hmul : (j + 1) * ps = j * ps + ps := Nat.succ_mul j ps
  rw [chunk, slice, Nat.add_sub_cancel, List.take_eq_take_iff, List.length_drop]
  omega

theorem chunk_append_drop (b : Bytes) (ps j : Nat) :
    chunk b ps (j + 1) ++ b.drop ((j + 1) * ps) = b.drop (j * ps) := by
  rw [chunk_succ_eq_take, Nat.succ_mul, ← List.drop_drop, List.take_append_drop]

theorem chunk_length_le (b : Bytes) (ps j : Nat) : (chunk b ps (j + 1)).length ≤ ps := by
  rw [chunk_succ_eq_take]
  exact List.length_take_le _ _

theorem totalFrames_eq_succ (len ps : Nat) : totalFrames len ps = ceilDiv len ps + 1 := Nat.add_comm _ _

/-- The metadata frame, then the data frames. -/
theorem encodeBuffer_eq_cons (c : Config) (b : Bytes) (ps : Nat) :
    encodeBuffer c b ps =
      encodeFrame c b ps 0 :: (List.range' 1 (ceilDiv b.length ps)).map (encodeFrame c b ps) := by
  rw [encodeBuffer_eq_range', totalFrames_eq_succ, List.range'_succ, List.map_cons]

theorem encodeBuffer_length (c : Config) (b : Bytes) (ps : Nat) :
    (encodeBuffer c b ps).length = totalFrames b.length ps := by
  rw [encodeBuffer, List.length_map, List.length_range]

theorem encodeBuffer_getElem? {c : Config} {b : Bytes} {ps k : Nat} (hk : k < totalFrames b.length ps) :
    (encodeBuffer c b ps)[k]? = some (encodeFrame c b ps k) := by
  rw [encodeBuffer, List.getElem?_map, List.getElem?_range hk, Option.map_some]

end Sys2Proof.Machine
end

section
/-! SUPPORT. The laws of the codec (40_codec.md section 2): what parsing gives back of each frame of an encoded buffer,
and that the stream of them decodes to the buffer. -/

namespace Sys2Proof.Machine

/-- The encoding of `b` in chunks of `ps` bytes is one that a block with parameters `c` can send: the chunks fit a
frame, and the frames' numbers the sequence field (R139, R203). -/
structure LegalEncoding (c : Config) (b : Bytes) (ps : Nat) : Prop where
  wf : c.wf
  pos : 1 ≤ ps
  le_maxPayload : ps ≤ c.maxPayload
  total_le : totalFrames b.length ps ≤ c.maxFrames

section
variable {c : Config} {b : Bytes} {ps : Nat}

theorem LegalEncoding.total_lt (h : LegalEncoding c b ps) : totalFrames b.length ps < 2 ^ c.seqW := by
  have hpos : 0 < 2 ^ c.seqW := Nat.two_pow_pos _
  have hle := h.total_le
  unfold Config.maxFrames at hle
  omega

/-- The receiver reads the total back from the metadata frame's payload (R133). -/
theorem LegalEncoding.ube_total (h : LegalEncoding c b ps) :
    ube (be c.seqBytes (totalFrames b.length ps)) = totalFrames b.length ps :=
  ube_be (two_pow_seqW c ▸ h.total_lt)

theorem LegalEncoding.parseFrame_metadata (h : LegalEncoding c b ps) :
    parseFrame c (encodeFrame c b ps 0) =
      .frame 0 (ck c (be c.seqBytes (totalFrames b.length ps))) (be c.seqBytes (totalFrames b.length ps)) := by
  obtain ⟨_, _, _, hseq, _⟩ := h.wf
  rw [encodeFrame, if_pos rfl, mkMeta]
  exact parseFrame_mkFrame (Nat.two_pow_pos _) (by rwa [be_length])

theorem LegalEncoding.parseFrame_data (h : LegalEncoding c b ps) {j : Nat} (hj : j + 1 < totalFrames b.length ps) :
    parseFrame c (encodeFrame c b ps (j + 1)) = .frame (j + 1) (ck c (chunk b ps (j + 1))) (chunk b ps (j + 1)) := by
  rw [encodeFrame, if_neg j.succ_ne_zero]
  exact parseFrame_mkFrame (hj.trans h.total_lt) ((chunk_length_le b ps j).trans h.le_maxPayload)

/-- The data frames from the `j`-th chunk on decode to what is left of the buffer there. -/
theorem LegalEncoding.decodeStream_data (h : LegalEncoding c b ps) (n : Nat) :
    ∀ j, j + n = ceilDiv b.length ps →
      decodeStream c ((List.range' (j + 1) n).map (encodeFrame c b ps)) = some (b.drop (j * ps)) := by
  induction n with
  | zero =>
    intro j hj
    have hend : b.length ≤ j * ps := (ceilDiv_le_iff h.pos).1 hj.ge
    rw [List.drop_eq_nil_of_le hend]
    rfl
  | succ n ih =>
    intro j hj
    have hlt : j + 1 < totalFrames b.length ps := by
      rw [totalFrames_eq_succ]
      omega
    rw [List.range'_succ, List.map_cons, decodeStream, h.parseFrame_data hlt, ih (j + 1) (by omega)]
    simp only [j.succ_ne_zero, if_false, chunk_append_drop]

/-- The metadata frame is skipped, and the data frames decode to the whole buffer (R148). -/
theorem LegalEncoding.decodeStream_encodeBuffer (h : LegalEncoding c b ps) :
    decodeStream c (encodeBuffer c b ps) = some b := by
  have hdata := h.decodeStream_data (ceilDiv b.length ps) 0 (Nat.zero_add _)
  rw [Nat.zero_mul, List.drop_zero] at hdata
  rw [encodeBuffer_eq_cons, decodeStream, h.parseFrame_metadata, hdata]
  rfl

end

/-- Settles O9: a frame and an acknowledgment parse to their fields, a frame built from a parsed one is the datagram
when its checksum is good, and the frames of a buffer decode to it. -/
theorem codecLaws : Obligations.CodecLaws := by
  intro c hc
  refine ⟨fun q p hq hp => ?parse, fun q p hq hp => ?verify, fun q k hq hk => ?ack, ?marker,
    fun raw q k p h => ?rebuild, fun b ps hpos hle htotal => ?stream⟩
  case parse => exact parseFrame_mkFrame hq hp
  case verify => exact ⟨q, ck c p, p, parseFrame_mkFrame hq hp, verifies_ck c p⟩
  case ack => exact parseAck_mkAck hc hq hk
  case marker => exact if_pos rfl
  case rebuild => exact mkFrame_eq_iff_verifies h
  case stream => exact LegalEncoding.decodeStream_encodeBuffer ⟨hc, hpos, hle, htotal⟩

end Sys2Proof.Machine
end

section
/-! SUPPORT. The receiver given the frames of an encoded buffer in order (40_codec.md R139; 41_receiver.md R163): it
accepts each of them, and its buffer grows by one chunk at a time. -/

namespace Sys2Proof.Machine

/-! ## What an accepted frame does -/

/-- The unit after a frame with checksum field `k` is accepted, `u` being the unit with the frame's payload taken in
(R168, R170). -/
def RxUnit.acknowledged (u : RxUnit) (k : Bytes) : RxUnit :=
  { u with
    lastAckSeq := u.expectedSeq
    lastAckCk := k
    lastAckValid := true
    expectedSeq := u.expectedSeq + 1
    rxState := if u.expectedSeq + 1 = u.rxTotal then .complete else u.rxState }

theorem acceptFrame_acknowledged (s : State) (u : RxUnit) (seq : Nat) (k : Bytes) :
    ∃ r, acceptFrame s u seq k = .next ((s.withRx (u.acknowledged k)).respond r) := by
  rcases acceptFrame_cases s u seq k with ⟨h, e⟩ | ⟨h, e⟩
  · exact ⟨_, by rw [e, RxUnit.acknowledged, if_pos h]⟩
  · exact ⟨_, by rw [e, RxUnit.acknowledged, if_neg h]⟩

/-- The frame expected next, with a good checksum, passes the checks of R161. -/
theorem execRxFrame_of_good {s : State} {raw k p : Bytes} (hst : s.rx.rxState ≠ .complete)
    (hp : parseFrame s.cfg raw = .frame s.rx.expectedSeq k p) (hv : verifies s.cfg k p = true) :
    execRxFrame raw s = if s.rx.rxState = .awaitInit then acceptMetadata s s.rx.expectedSeq k p
      else acceptData s s.rx.expectedSeq k p := by
  simp [execRxFrame, hst, hp, hv]

/-- The first frame of a session is its metadata frame (R166). -/
theorem execRxFrame_metadata {s : State} {raw k p : Bytes} (hst : s.rx.rxState = .awaitInit)
    (hp : parseFrame s.cfg raw = .frame s.rx.expectedSeq k p) (hv : verifies s.cfg k p = true)
    (hlen : p.length = s.cfg.seqBytes) (hpos : ube p ≠ 0) :
    ∃ r, execRxFrame raw s =
      .next ((s.withRx ({ s.rx with rxTotal := ube p, rxState := .receiving }.acknowledged k)).respond r) := by
  have hgood := execRxFrame_of_good (by rw [hst]; decide) hp hv
  rw [if_pos hst] at hgood
  rcases acceptMetadata_cases s s.rx.expectedSeq k p with ⟨hbad, _⟩ | ⟨_, _, e⟩
  · exact absurd hbad (by tauto)
  · rw [hgood, e]
    exact acceptFrame_acknowledged ..

/-- Every later frame is a data frame, and is appended to RBUF when it fits (R167). -/
theorem execRxFrame_data {s : State} {raw k p : Bytes} (hst : s.rx.rxState = .receiving)
    (hp : parseFrame s.cfg raw = .frame s.rx.expectedSeq k p) (hv : verifies s.cfg k p = true)
    (hfits : fitsCap s.cfg.rxCap (s.rx.rxLen + p.length) = true) :
    ∃ m r, memWrite s.cfg .rbuf s.rx.rbuf s.rx.rxLen p = .ok m ∧ execRxFrame raw s =
      .next ((s.withRx ({ s.rx with rbuf := m, rxLen := s.rx.rxLen + p.length }.acknowledged k)).respond r) := by
  have hgood := execRxFrame_of_good (by rw [hst]; decide) hp hv
  rw [if_neg (by rw [hst]; decide)] at hgood
  rcases acceptData_cases s s.rx.expectedSeq k p with ⟨hfull, _⟩ | ⟨_, m, hm, e⟩
  · rw [hfits] at hfull
    cases hfull
  · obtain ⟨r, hr⟩ := acceptFrame_acknowledged s { s.rx with rbuf := m, rxLen := s.rx.rxLen + p.length }
      s.rx.expectedSeq k
    exact ⟨m, r, hm, by rw [hgood, e, hr]⟩

theorem fitsCap_of_forall {cap : Option Nat} {n : Nat} (h : ∀ m, cap = some m → n ≤ m) : fitsCap cap n = true := by
  cases cap with
  | none => rfl
  | some m => exact decide_eq_true (h m rfl)

/-- Operations one after another, the first of which goes on. -/
theorem performAll_cons_of_exec {i : Instr} {is : List Instr} {s t u : State} {rs : List Response}
    (h : exec i s = .next t) (hrest : performAll is t = some (rs, u)) :
    ∃ rs', performAll (i :: is) s = some (rs', u) := by
  obtain ⟨r, hr, _⟩ := answers_of_exec h
  exact ⟨r :: rs, by simp [performAll, perform_of_response h hr, hrest]⟩

/-- `RX_READ` inside the length of a complete session answers what RBUF holds there (R172). -/
theorem execRxRead_of_memRead {s : State} {offset : Word} {n : BitVec 24} {bs : Bytes}
    (hst : s.rx.rxState = .complete) (hlen : offset.toNat + n.toNat ≤ s.rx.rxLen)
    (hread : memRead s .rbuf offset.toNat n.toNat = .ok bs) :
    execRxRead offset n s = .next (s.respond { status := .ok, rdata := s.rx.rxLen, dout := bs }) := by
  rw [execRxRead, if_neg (not_not_intro hst), if_neg hlen.not_gt, hread]
  rfl

/-! ## The buffer, chunk by chunk -/

/-- `t` is `s` but for an RX unit that has accepted the metadata frame of `encode(b, ps)` and its first `j` data frames,
and holds their payloads. -/
structure Assembled (s : State) (b : Bytes) (ps j : Nat) (t : State) : Prop where
  cfg : t.cfg = s.cfg
  tx : t.tx = s.tx
  rxTotal : t.rx.rxTotal = totalFrames b.length ps
  expectedSeq : t.rx.expectedSeq = j + 1
  rxState : t.rx.rxState = if j + 1 = totalFrames b.length ps then .complete else .receiving
  rxLen : t.rx.rxLen = min (j * ps) b.length
  rbuf : ∀ a, a < t.rx.rxLen → t.rx.rbuf.read? a = b[a]?

section
variable {s t : State} {b : Bytes} {ps j : Nat}

/-- The metadata frame starts the session of a reset receiver, which has no chunk yet (R166). -/
theorem LegalEncoding.assembled_zero (h : LegalEncoding s.cfg b ps) (hrx : s.rx = RxUnit.reset s.cfg) :
    ∃ t, exec (.rxFrame (encodeFrame s.cfg b ps 0)) s = .next t ∧ Assembled s b ps 0 t := by
  have hpos : totalFrames b.length ps ≠ 0 := by
    rw [totalFrames_eq_succ]
    exact Nat.succ_ne_zero _
  obtain ⟨r, hr⟩ := execRxFrame_metadata (s := s) (by rw [hrx]; rfl) (by rw [hrx]; exact h.parseFrame_metadata)
    (verifies_ck _ _) (be_length _ _) (h.ube_total.trans_ne hpos)
  rw [h.ube_total, hrx] at hr
  exact ⟨_, hr, rfl, rfl, rfl, rfl, rfl, by rw [Nat.zero_mul, Nat.zero_min]; rfl, fun a ha => absurd ha a.not_lt_zero⟩

/-- The chunk appended to the first `j` gives the first `j + 1`. -/
theorem min_add_chunk_length (b : Bytes) (ps j : Nat) :
    min (j * ps) b.length + (chunk b ps (j + 1)).length = min ((j + 1) * ps) b.length := by
  have hmul : (j + 1) * ps = j * ps + ps := Nat.succ_mul j ps
  rw [chunk_length, Nat.add_sub_cancel]
  omega

/-- The next data frame is accepted, and its chunk appended (R167). -/
theorem Assembled.next (h : Assembled s b ps j t) (hlegal : LegalEncoding s.cfg b ps)
    (hcap : ∀ cap, s.cfg.rxCap = some cap → b.length ≤ cap) (hj : j + 1 < totalFrames b.length ps) :
    ∃ u, exec (.rxFrame (encodeFrame s.cfg b ps (j + 1))) t = .next u ∧ Assembled s b ps (j + 1) u := by
  obtain ⟨hcfg, htx, htotal, hexpected, hst, hlen, hread⟩ := h
  rw [if_neg hj.ne] at hst
  have hgrown : t.rx.rxLen + (chunk b ps (j + 1)).length = min ((j + 1) * ps) b.length := by
    rw [hlen, min_add_chunk_length]
  have hfits : fitsCap t.cfg.rxCap (t.rx.rxLen + (chunk b ps (j + 1)).length) = true := by
    rw [hgrown, hcfg]
    exact fitsCap_of_forall fun cap h => (min_le_right _ _).trans (hcap cap h)
  obtain ⟨m, r, hm, hr⟩ := execRxFrame_data hst
    (by rw [hcfg, hexpected]; exact hlegal.parseFrame_data hj) (by rw [hcfg]; exact verifies_ck _ _) hfits
  refine ⟨_, hr, hcfg, htx, htotal, congrArg (· + 1) hexpected, ?rxState, hgrown, fun a ha => ?rbuf⟩
  case rxState => rw [State.respond_rx, State.withRx_rx, RxUnit.acknowledged, hexpected, htotal, hst]
  case rbuf =>
    obtain ⟨_, _, hwritten⟩ := memWrite_ok hm
    have ha' : a < t.rx.rxLen + (chunk b ps (j + 1)).length := ha
    refine (hwritten a).trans ?_
    by_cases hold : a < t.rx.rxLen
    · rw [if_neg (by omega), hread a hold]
    · have hstart : j * ps < b.length := chunk_start_lt hlegal.pos j.succ_ne_zero hj
      rw [if_pos (by omega), chunk_getElem? (by omega), Nat.add_sub_cancel]
      congr 1
      omega

/-- The remaining data frames, one after another, complete the session. -/
theorem Assembled.performAll_data (hlegal : LegalEncoding s.cfg b ps)
    (hcap : ∀ cap, s.cfg.rxCap = some cap → b.length ≤ cap) (n : Nat) :
    ∀ {j : Nat} {t : State}, Assembled s b ps j t → j + n = ceilDiv b.length ps →
      ∃ rs u, performAll (((List.range' (j + 1) n).map (encodeFrame s.cfg b ps)).map .rxFrame) t = some (rs, u) ∧
        Assembled s b ps (ceilDiv b.length ps) u := by
  induction n with
  | zero =>
    intro j t h hj
    obtain rfl : j = ceilDiv b.length ps := hj
    exact ⟨[], t, rfl, h⟩
  | succ n ih =>
    intro j t h hj
    obtain ⟨u, hexec, hu⟩ := h.next hlegal hcap (by rw [totalFrames_eq_succ]; omega)
    obtain ⟨rs, v, hrest, hv⟩ := ih hu (by omega)
    obtain ⟨rs', hall⟩ := performAll_cons_of_exec hexec hrest
    exact ⟨rs', v, by rw [List.range'_succ]; exact hall, hv⟩

/-- A reset receiver accepts all the frames of the encoding (R163). -/
theorem LegalEncoding.performAll_encodeBuffer (h : LegalEncoding s.cfg b ps) (hrx : s.rx = RxUnit.reset s.cfg)
    (hcap : ∀ cap, s.cfg.rxCap = some cap → b.length ≤ cap) :
    ∃ rs t, performAll ((encodeBuffer s.cfg b ps).map .rxFrame) s = some (rs, t) ∧
      Assembled s b ps (ceilDiv b.length ps) t := by
  obtain ⟨t, hmeta, ht⟩ := h.assembled_zero hrx
  obtain ⟨_, u, hdata, hu⟩ := ht.performAll_data h hcap (ceilDiv b.length ps) (Nat.zero_add _)
  obtain ⟨rs, hframes⟩ := performAll_cons_of_exec hmeta hdata
  rw [encodeBuffer_eq_cons]
  exact ⟨rs, u, hframes, hu⟩

/-- A receiver that has every chunk is complete, and reads the buffer back. -/
theorem Assembled.read (h : Assembled s b ps (ceilDiv b.length ps) t) (hps : 1 ≤ ps)
    (hcap : ∀ cap, s.cfg.rxCap = some cap → b.length ≤ cap) (hb : b.length < 2 ^ 24) :
    t.rx.rxState = .complete ∧ t.rx.rxLen = b.length ∧
      exec (.rxRead 0 (BitVec.ofNat 24 b.length)) t =
        .next (t.respond { status := .ok, rdata := b.length, dout := b }) := by
  have hst : t.rx.rxState = .complete := by rw [h.rxState, if_pos (totalFrames_eq_succ _ _).symm]
  have hlen : t.rx.rxLen = b.length := by rw [h.rxLen, min_eq_right (le_ceilDiv_mul _ hps)]
  have hn : (BitVec.ofNat 24 b.length).toNat = b.length := by rw [BitVec.toNat_ofNat, Nat.mod_eq_of_lt hb]
  have hfits : fitsCap (Space.rbuf.cap t.cfg) (0 + b.length) = true := by
    rw [Nat.zero_add, Space.cap_rbuf, h.cfg]
    exact fitsCap_of_forall hcap
  have hread : memRead t .rbuf 0 b.length = .ok b := memRead_of_read? hfits fun a ha => by
    rw [Nat.zero_add]
    exact h.rbuf a (hlen ▸ ha)
  refine ⟨hst, hlen, ?_⟩
  rw [← hlen] at hn ⊢
  exact execRxRead_of_memRead hst (by rw [hn]; simp) (by rw [hn, hlen]; exact hread)

end

/-- Settles O26: after `RX_RESET` the metadata frame and then each data frame is accepted, and `RX_READ` answers the
chunks they carried, which are the buffer. -/
theorem encodedBufferIsReassembledExactly : Obligations.EncodedBufferIsReassembledExactly := by
  intro s b ps hc hpos hle htotal hcap hb
  have hlegal : LegalEncoding s.cfg b ps := ⟨hc, hpos, hle, htotal⟩
  obtain ⟨_, u, hframes, hu⟩ := LegalEncoding.performAll_encodeBuffer
    (s := (s.withRx (RxUnit.reset s.cfg)).respond { status := .ok }) hlegal rfl hcap
  have hall : ∃ rs, performAll (.rxReset :: (encodeBuffer s.cfg b ps).map .rxFrame) s = some (rs, u) :=
    performAll_cons_of_exec rfl hframes
  obtain ⟨rs, hall⟩ := hall
  obtain ⟨hst, hlen, hread⟩ := hu.read hpos hcap hb
  refine ⟨u.respond { status := .ok, rdata := b.length, dout := b }, ?_, hst, hu.tx⟩
  simp only [decodeStreamOps, hall, hlen, if_pos hb, perform_of_response hread rfl, Option.map_some]

end Sys2Proof.Machine
end

section
/-! SUPPORT. The frames of a sending session (40_codec.md R139, R140): those of a session just loaded are the encoding
of its buffer, and in every session frame 0 carries the total and each other frame its chunk of TBUF. -/

namespace Sys2Proof.Machine

/-- What a `TX_LOAD` that answers `OK` has done (R205). -/
theorem execTxLoad_ok {b : Bytes} {ps : Word} {s t : State} {r : Response} (h : execTxLoad b ps s = .next t)
    (hr : t.response = some r) (hok : r.status = .ok) :
    1 ≤ ps.toNat ∧ b.length ≤ s.cfg.txCap ∧ t.cfg = s.cfg ∧
      ∃ m, memWrite s.cfg .tbuf [] 0 b = .ok m ∧ t.tx = loadedUnit m b.length (heldPacketSize b.length ps.toNat) := by
  rcases execTxLoad_cases b ps s with ⟨st, e, hst, _⟩ | ⟨_, hpos, _, hcap, _, m, hm, e⟩ <;> rw [e] at h <;> cases h
  case inl =>
    cases hr
    cases hok
    cases hst
  case inr => exact ⟨hpos, hcap, rfl, m, hm, rfl⟩

/-- The frames of a session just loaded are `encode(b, W)`, whatever `packet_size` holds of `W`. -/
theorem frameOf_execTxLoad {b : Bytes} {ps : Word} {s t : State} {r : Response} (h : execTxLoad b ps s = .next t)
    (hr : t.response = some r) (hok : r.status = .ok) :
    (encodeBuffer s.cfg b ps.toNat).length = t.tx.txTotal ∧
      ∀ k, k < t.tx.txTotal → ∃ d, frameOf t k = .ok d ∧ (encodeBuffer s.cfg b ps.toNat)[k]? = some d := by
  obtain ⟨hpos, hcap, hcfg, m, hm, htx⟩ := execTxLoad_ok h hr hok
  have htotal : t.tx.txTotal = totalFrames b.length (heldPacketSize b.length ps.toNat) := by rw [htx]; rfl
  rw [← encodeBuffer_heldPacketSize _ _ hpos, htotal, ← hcfg]
  refine ⟨encodeBuffer_length .., fun k hk => ⟨_, ?_, encodeBuffer_getElem? hk⟩⟩
  exact frameOf_loadedUnit htx (hcfg ▸ hm) (hcfg ▸ hcap) (one_le_heldPacketSize hpos) hk

/-- Settles O28: the load has written the buffer and holds a packet size that cuts it as `W` does; past 24 bits that is
one that holds the whole buffer. -/
theorem loadedFramesAreTheEncoding : Obligations.LoadedFramesAreTheEncoding := by
  refine ⟨fun s t b ps h hr => frameOf_execTxLoad h hr rfl, fun s b ps n hst hps hmax hcap hb hn htotal => ?_⟩
  have hpos : 1 ≤ ps.toNat := by omega
  have hcount : totalFrames b.length ps.toNat = 1 + n := by rw [totalFrames, ceilDiv_of_leastPieces hpos hn]
  obtain ⟨m, hm, hload⟩ := execTxLoad_of_legal hst hpos hmax hcap (hcount.trans_le htotal)
  rcases heldPacketSize_cases (w := ps.toNat) hb with ⟨hsmall, _⟩ | ⟨_, hheld, hlen, hlt⟩
  · omega
  · obtain ⟨_, _, hread⟩ := memWrite_ok hm
    refine ⟨heldPacketSize b.length ps.toNat, m, hheld, hlen, hlt, fun k hk => ?bytes, ?load⟩
    case bytes => rw [hread, if_pos (by omega), Nat.sub_zero]
    case load =>
      rw [loadedUnit, totalFrames_heldPacketSize hpos, hcount] at hload
      exact hload

/-- In a session the payload of frame `k` is the bytes of TBUF at its chunk's addresses (R139, R140). -/
theorem payloadOf_of_invariant {s : State} {k : Nat} (hinv : Invariant s) (hst : s.tx.txState ≠ .idle) (hk : k ≠ 0)
    (hlt : k < s.tx.txTotal) :
    ∃ p, payloadOf s k = .ok p ∧ 1 ≤ p.length ∧
      p.length = min s.tx.packetSize (s.tx.txLen - (k - 1) * s.tx.packetSize) ∧
      ∀ j, j < p.length → p[j]? = s.tx.tbuf.read? ((k - 1) * s.tx.packetSize + j) := by
  obtain ⟨_, _, _, hsession⟩ := hinv
  obtain ⟨_, _, htotal, _, _, hps, _, _, hcap, hbuf⟩ := hsession hst
  have hstart : (k - 1) * s.tx.packetSize < s.tx.txLen := chunk_start_lt hps hk (htotal ▸ hlt)
  have hmul : k * s.tx.packetSize = (k - 1) * s.tx.packetSize + s.tx.packetSize := by
    rw [← Nat.succ_mul, Nat.succ_eq_add_one, Nat.sub_add_cancel (Nat.one_le_iff_ne_zero.2 hk)]
  obtain ⟨p, hp, hlen, hbytes⟩ := memRead_of_holdsExactly (s := s) (space := .tbuf) (addr := (k - 1) * s.tx.packetSize)
    (n := min (k * s.tx.packetSize) s.tx.txLen - (k - 1) * s.tx.packetSize) hbuf (decide_eq_true hcap) (by omega)
  exact ⟨p, by rw [payloadOf, if_neg hk, hp], by omega, by omega, fun j hj => hbytes j (hlen ▸ hj)⟩

/-- Settles O29: every payload exists, and the frame and the expected checksum are made of it. -/
theorem frameOfReadsItsChunk : Obligations.FrameOfReadsItsChunk := by
  intro s k hinv hst hlt
  have hframe {p : Bytes} (hp : payloadOf s k = .ok p) :
      frameOf s k = .ok (be s.cfg.seqBytes k ++ ck s.cfg p ++ p) ∧ expectedCk s k = .ok (ck s.cfg p) := by
    rw [frameOf, expectedCk, hp]
    exact ⟨rfl, rfl⟩
  by_cases hk : k = 0
  · obtain ⟨hf, hc⟩ := hframe (if_pos hk)
    exact ⟨_, hf, hc, fun _ => rfl, fun h => absurd hk (by omega)⟩
  · obtain ⟨p, hp, hpos, hlen, hbytes⟩ := payloadOf_of_invariant hinv hst hk hlt
    obtain ⟨hf, hc⟩ := hframe hp
    exact ⟨p, hf, hc, fun h => absurd h hk, fun _ => ⟨hpos, hlen, hbytes⟩⟩

end Sys2Proof.Machine
end

section
/-! SUPPORT. `RX_FRAME` by the datagram's fields (41_receiver.md R161 to R174): which datagram the receiver expects
next, what taking its payload in does to the unit, and the three ways the operation can end. -/

namespace Sys2Proof.Machine

/-- The checksum field of a datagram (R90). -/
abbrev ckField (c : Config) (raw : Bytes) : Bytes := (raw.drop c.seqBytes).take c.ckBytes

/-- The datagram passes the checks of R161 that do not depend on the unit's state: it is a frame, it has the number
expected next, and its checksum is good. -/
structure Expected (s : State) (raw : Bytes) : Prop where
  length : frameLength s.cfg raw
  seq : seqField s.cfg raw = s.rx.expectedSeq
  checksum : checksumGood s.cfg raw

/-- The unit `u` is that of `s` with the payload of `raw` taken in: as the total of the session (R166), or at the end of
RBUF (R167). -/
inductive TakesIn (s : State) (raw : Bytes) : RxUnit → Prop
  | metadata (hst : s.rx.rxState = .awaitInit) (hlen : (raw.drop s.cfg.hdrBytes).length = s.cfg.seqBytes)
      (hpos : ube (raw.drop s.cfg.hdrBytes) ≠ 0) :
      TakesIn s raw { s.rx with rxTotal := ube (raw.drop s.cfg.hdrBytes), rxState := .receiving }
  | data {m : Memory} (hst : s.rx.rxState = .receiving)
      (hfits : fitsCap s.cfg.rxCap (s.rx.rxLen + (raw.drop s.cfg.hdrBytes).length) = true)
      (hm : memWrite s.cfg .rbuf s.rx.rbuf s.rx.rxLen (raw.drop s.cfg.hdrBytes) = .ok m) :
      TakesIn s raw { s.rx with rbuf := m, rxLen := s.rx.rxLen + (raw.drop s.cfg.hdrBytes).length }

/-- The answer to an accepted frame with checksum field `k`, `u` being the unit with its payload taken in: its
acknowledgment, followed by the marker when the count is reached (R168, R170). -/
def acceptResponse (c : Config) (u : RxUnit) (k : Bytes) : Response :=
  if u.expectedSeq + 1 = u.rxTotal then
    { status := .done, rdata := u.expectedSeq, wire := [mkAck c u.expectedSeq k, c.termMarker] }
  else { status := .ok, rdata := u.expectedSeq, wire := [mkAck c u.expectedSeq k] }

/-- The ways `RX_FRAME raw` can end in state `s`. -/
inductive RxOutcome (s : State) (raw : Bytes) : State → Prop
  | rejected {st : Status} {n : Nat} (hst : st.writesNothing = true) :
      RxOutcome s raw (s.respond { status := st, rdata := n, wire := lastAckAgain s })
  | overflowed (hst : s.rx.rxState = .receiving) (hexp : Expected s raw)
      (hfull : fitsCap s.cfg.rxCap (s.rx.rxLen + (raw.drop s.cfg.hdrBytes).length) = false) :
      RxOutcome s raw ((s.withRx { s.rx with overflow := true }).respond
        { status := .overflow, rdata := s.rx.expectedSeq, wire := lastAckAgain s })
  | acknowledged {u : RxUnit} (hexp : Expected s raw) (hu : TakesIn s raw u) :
      RxOutcome s raw ((s.withRx (u.acknowledged (ckField s.cfg raw))).respond
        (acceptResponse s.cfg u (ckField s.cfg raw)))

section
variable {s t : State} {raw : Bytes} {u : RxUnit}

/-! ## The datagram's fields -/

/-- The acknowledgment of a frame is its own first `HDR_BYTES` bytes (R93, R168). -/
theorem mkAck_of_frameLength {c : Config} (h : frameLength c raw) :
    mkAck c (seqField c raw) (ckField c raw) = raw.take c.hdrBytes := by
  obtain ⟨hhdr, _⟩ := h
  have hseq : (raw.take c.seqBytes).length = c.seqBytes := by
    rw [List.length_take]
    unfold Config.hdrBytes at hhdr
    omega
  rw [mkAck, be_ube_of_length hseq, Config.hdrBytes, List.take_add]

theorem Expected.mkAck_eq (h : Expected s raw) :
    mkAck s.cfg s.rx.expectedSeq (ckField s.cfg raw) = raw.take s.cfg.hdrBytes := by
  rw [← h.seq, mkAck_of_frameLength h.length]

theorem Expected.parseFrame_eq (h : Expected s raw) :
    parseFrame s.cfg raw = .frame s.rx.expectedSeq (ckField s.cfg raw) (raw.drop s.cfg.hdrBytes) := by
  rw [parseFrame_of_frameLength h.length, h.seq]

theorem Expected.verifies_eq (h : Expected s raw) :
    verifies s.cfg (ckField s.cfg raw) (raw.drop s.cfg.hdrBytes) = true :=
  (verifies_iff_checksumGood _ _).2 h.checksum

/-- A datagram that parses to the number expected next, with its payload's checksum, is expected. -/
theorem expected_of_parseFrame {k p : Bytes} (hp : parseFrame s.cfg raw = .frame s.rx.expectedSeq k p)
    (hv : verifies s.cfg k p = true) :
    Expected s raw ∧ k = ckField s.cfg raw ∧ p = raw.drop s.cfg.hdrBytes := by
  obtain ⟨_, _, _, hpl, hlen⟩ := parseFrame_frame hp
  have hl : frameLength s.cfg raw := by
    rw [frameLength, Config.maxRaw]
    omega
  rw [parseFrame_of_frameLength hl] at hp
  injection hp with hseq hk hpay
  subst hk hpay
  exact ⟨⟨hl, hseq, (verifies_iff_checksumGood _ _).1 hv⟩, rfl, rfl⟩

/-! ## The checks in their order (R161) -/

theorem execRxFrame_of_complete (hst : s.rx.rxState = .complete) :
    execRxFrame raw s = rejectFrame s .alreadyComplete s.rx.expectedSeq := if_pos hst

theorem execRxFrame_of_short (hst : s.rx.rxState ≠ .complete) (h : raw.length < s.cfg.hdrBytes) :
    execRxFrame raw s = rejectFrame s .malformedFrame raw.length := by
  rw [execRxFrame, if_neg hst, parseFrame_of_short h]

theorem execRxFrame_of_oversize (hst : s.rx.rxState ≠ .complete) (h : s.cfg.maxRaw < raw.length) :
    execRxFrame raw s = rejectFrame s .oversizeFrame raw.length := by
  rw [execRxFrame, if_neg hst, parseFrame_of_oversize h]

theorem execRxFrame_of_seqField_ne (hst : s.rx.rxState ≠ .complete) (hl : frameLength s.cfg raw)
    (h : seqField s.cfg raw ≠ s.rx.expectedSeq) :
    execRxFrame raw s = rejectFrame s .sequenceMismatch (seqField s.cfg raw) := by
  rw [execRxFrame, if_neg hst, parseFrame_of_frameLength hl]
  exact if_pos h

theorem execRxFrame_of_not_checksumGood (hst : s.rx.rxState ≠ .complete) (hl : frameLength s.cfg raw)
    (hseq : seqField s.cfg raw = s.rx.expectedSeq) (h : ¬ checksumGood s.cfg raw) :
    execRxFrame raw s = rejectFrame s .checksumMismatch (seqField s.cfg raw) := by
  rw [execRxFrame, if_neg hst, parseFrame_of_frameLength hl]
  simp only
  rw [if_neg (not_not_intro hseq), if_pos (by simpa using mt (verifies_iff_checksumGood _ _).1 h)]

theorem Expected.execRxFrame_await (h : Expected s raw) (hst : s.rx.rxState = .awaitInit) :
    execRxFrame raw s =
      acceptMetadata s s.rx.expectedSeq (ckField s.cfg raw) (raw.drop s.cfg.hdrBytes) := by
  rw [execRxFrame_of_good (by rw [hst]; decide) h.parseFrame_eq h.verifies_eq, if_pos hst]

theorem Expected.execRxFrame_receiving (h : Expected s raw) (hst : s.rx.rxState = .receiving) :
    execRxFrame raw s = acceptData s s.rx.expectedSeq (ckField s.cfg raw) (raw.drop s.cfg.hdrBytes) := by
  rw [execRxFrame_of_good (by rw [hst]; decide) h.parseFrame_eq h.verifies_eq, if_neg (by rw [hst]; decide)]

/-! ## Accepting a frame -/

/-- Taking a payload in leaves the cursor where it was. -/
theorem TakesIn.expectedSeq_eq (h : TakesIn s raw u) : u.expectedSeq = s.rx.expectedSeq := by
  cases h <;> rfl

/-- The unit is, or has become, receiving. -/
theorem TakesIn.rxState_eq (h : TakesIn s raw u) : u.rxState = .receiving := by
  cases h with
  | metadata => rfl
  | data hst => exact hst

theorem acceptFrame_eq (s : State) (u : RxUnit) (k : Bytes) :
    acceptFrame s u u.expectedSeq k = .next ((s.withRx (u.acknowledged k)).respond (acceptResponse s.cfg u k)) := by
  rcases acceptFrame_cases s u u.expectedSeq k with ⟨h, e⟩ | ⟨h, e⟩
  · rw [e, RxUnit.acknowledged, acceptResponse, if_pos h, if_pos h, mkAck]
  · rw [e, RxUnit.acknowledged, acceptResponse, if_neg h, if_neg h, mkAck]

theorem acceptResponse_accepted (c : Config) (u : RxUnit) (k : Bytes) : accepted (acceptResponse c u k) := by
  unfold acceptResponse
  split
  · exact .inr rfl
  · exact .inl rfl

theorem acceptResponse_head? (c : Config) (u : RxUnit) (k : Bytes) :
    (acceptResponse c u k).wire.head? = some (mkAck c u.expectedSeq k) := by
  unfold acceptResponse
  split <;> rfl

/-- An operation that wrote nothing has accepted no frame. -/
theorem not_accepted_of_writesNothing {r : Response} (h : r.status.writesNothing = true) : ¬ accepted r := by
  rintro (hok | hdone)
  · rw [hok] at h
    cases h
  · rw [hdone] at h
    cases h

/-- An expected datagram whose payload can be taken in is accepted. -/
theorem Expected.execRxFrame_eq (h : Expected s raw) (hu : TakesIn s raw u) :
    execRxFrame raw s = .next ((s.withRx (u.acknowledged (ckField s.cfg raw))).respond
      (acceptResponse s.cfg u (ckField s.cfg raw))) := by
  rw [← acceptFrame_eq, hu.expectedSeq_eq]
  cases hu with
  | metadata hst hlen hpos =>
    rw [h.execRxFrame_await hst]
    rcases acceptMetadata_cases s s.rx.expectedSeq (ckField s.cfg raw) (raw.drop s.cfg.hdrBytes) with
      ⟨hbad, _⟩ | ⟨_, _, e⟩
    · exact absurd hbad (not_or.2 ⟨not_not_intro hlen, hpos⟩)
    · exact e
  | @data m hst hfits hm =>
    rw [h.execRxFrame_receiving hst]
    rcases acceptData_cases s s.rx.expectedSeq (ckField s.cfg raw) (raw.drop s.cfg.hdrBytes) with
      ⟨hfull, _⟩ | ⟨_, m', hm', e⟩
    · rw [hfits] at hfull
      cases hfull
    · obtain rfl : m = m' := Except.ok.inj (hm.symm.trans hm')
      exact e

/-- `RX_FRAME` always ends in one of the three ways. -/
theorem exists_rxOutcome (raw : Bytes) (s : State) : ∃ t, execRxFrame raw s = .next t ∧ RxOutcome s raw t := by
  rcases execRxFrame_cases raw s with ⟨st, n, e, hst, _⟩ | ⟨hst, ⟨k, p, hp, hv, hfull⟩, e⟩ |
    ⟨hst, k, p, hp, hv, hlen, hpos, _⟩ | ⟨hst, k, p, m, hp, hv, hfits, hm, _⟩
  case inl => exact ⟨_, e, .rejected hst⟩
  all_goals obtain ⟨hexp, rfl, rfl⟩ := expected_of_parseFrame hp hv
  case inr.inl => exact ⟨_, e, .overflowed hst hexp hfull⟩
  case inr.inr.inl =>
    have hu : TakesIn s raw _ := .metadata hst hlen hpos
    exact ⟨_, hexp.execRxFrame_eq hu, .acknowledged hexp hu⟩
  case inr.inr.inr =>
    have hu : TakesIn s raw _ := .data hst hfits hm
    exact ⟨_, hexp.execRxFrame_eq hu, .acknowledged hexp hu⟩

theorem rxOutcome_of_exec (h : exec (.rxFrame raw) s = .next t) : RxOutcome s raw t := by
  obtain ⟨t', ht', hout⟩ := exists_rxOutcome raw s
  obtain rfl : t' = t := Host.Outcome.next.inj (ht'.symm.trans h)
  exact hout

end

/-! ## The receiver's rules -/

/-- Settles O18: one lemma per failing check, and the two of the accepting half that refuse. -/
theorem rxFrameRejectsInOrder : Obligations.RxFrameRejectsInOrder := by
  intro s raw
  refine ⟨execRxFrame_of_complete, execRxFrame_of_short, execRxFrame_of_oversize, execRxFrame_of_seqField_ne,
    execRxFrame_of_not_checksumGood, fun hst hl hseq hgood hbad => ?metadata,
    fun cap hcap hst hl hseq hgood hfull => ?overflow⟩
  case metadata =>
    have hexp : Expected s raw := ⟨hl, hseq, hgood⟩
    refine (hexp.execRxFrame_await hst).trans ?_
    rcases acceptMetadata_cases s s.rx.expectedSeq (ckField s.cfg raw) (raw.drop s.cfg.hdrBytes) with
      ⟨_, e⟩ | ⟨hlen, hpos, _⟩
    · rw [e, hseq]
      rfl
    · obtain ⟨hhdr, _⟩ := hl
      rw [List.length_drop] at hlen
      exact absurd hbad (not_or.2 ⟨by omega, hpos⟩)
  case overflow =>
    have hexp : Expected s raw := ⟨hl, hseq, hgood⟩
    refine (hexp.execRxFrame_receiving hst).trans ?_
    rcases acceptData_cases s s.rx.expectedSeq (ckField s.cfg raw) (raw.drop s.cfg.hdrBytes) with
      ⟨_, e⟩ | ⟨hfits, _⟩
    · rw [e, hseq]
      rfl
    · rw [hcap, List.length_drop] at hfits
      exact absurd (of_decide_eq_true hfits) (by omega)

/-- Settles O19: the metadata frame's payload is taken in as the total, and the frame is accepted. -/
theorem rxFrameAcceptsTheMetadataFrame : Obligations.RxFrameAcceptsTheMetadataFrame := by
  intro s raw hst hl hlen hseq hgood hpos total u
  have hexp : Expected s raw := ⟨hl, hseq, hgood⟩
  have hexec := hexp.execRxFrame_eq (.metadata hst (by rw [List.length_drop]; omega) hpos)
  rw [RxUnit.acknowledged, acceptResponse, hexp.mkAck_eq] at hexec
  refine ⟨fun h => ?more, fun h => ?last⟩ <;> refine hexec.trans ?_ <;> rw [hseq]
  case more => rw [if_neg h, if_neg h]
  case last => rw [if_pos h, if_pos h]

/-- Settles O20: the payload is written at the end of RBUF, and the frame is accepted. -/
theorem rxFrameAppendsTheDataFrame : Obligations.RxFrameAppendsTheDataFrame := by
  intro s raw hst _ hl hseq hgood hcap
  have hexp : Expected s raw := ⟨hl, hseq, hgood⟩
  have hfits : fitsCap s.cfg.rxCap (s.rx.rxLen + (raw.drop s.cfg.hdrBytes).length) = true := by
    rw [List.length_drop]
    exact fitsCap_of_forall hcap
  obtain ⟨m, hm⟩ := memWrite_of_fits (c := s.cfg) (space := .rbuf) s.rx.rbuf hfits
  have hexec := hexp.execRxFrame_eq (.data hst hfits hm)
  rw [RxUnit.acknowledged, acceptResponse, hexp.mkAck_eq] at hexec
  obtain ⟨_, _, hread⟩ := memWrite_ok hm
  rw [List.length_drop] at hexec hread
  refine ⟨m, fun k hk => ?stored, fun a ha => ?kept, fun h => ?more, fun h => ?last⟩
  case stored => rw [hread, if_pos (by omega), Nat.add_sub_cancel_left]
  case kept => rw [hread, if_neg (by omega)]
  case more =>
    refine hexec.trans ?_
    rw [if_neg h, if_neg h, hseq]
  case last =>
    refine hexec.trans ?_
    rw [if_pos h, if_pos h, hseq]

/-- Settles O23: outside a complete session and past its end the read is refused; inside, RBUF holds every byte. -/
theorem rxReadReturnsTheAssembledBytes : Obligations.RxReadReturnsTheAssembledBytes := by
  intro s offset n
  refine ⟨fun hst => if_pos hst, fun hst hpast => ?past, fun hinv hst hin => ?inside⟩
  case past => exact (if_neg (not_not_intro hst)).trans (if_pos hpast)
  case inside =>
    obtain ⟨_, ⟨_, _, _, _, _, ⟨hcap, hholds⟩, _⟩, _⟩ := hinv
    obtain ⟨bs, hread, hlen, hbytes⟩ := memRead_of_holdsExactly (s := s) (space := .rbuf) hholds hcap hin
    exact ⟨bs, hlen, hbytes, execRxRead_of_memRead hst hin hread⟩

/-- Settles O24: the unit is the one after reset. -/
theorem rxResetStartsANewSession : Obligations.RxResetStartsANewSession :=
  fun s => ⟨RxUnit.reset s.cfg, RxUnit.reset_atReset s.cfg, rfl⟩

end Sys2Proof.Machine
end

section
/-! SUPPORT. Every operation keeps the two units' invariants (10_state.md R28, R29, R36, R39): a frame whose payload is
taken in leaves the receiver ready to acknowledge it, and each sender operation moves the cursors in their order. -/

namespace Sys2Proof.Machine

/-! ## The receiver -/

/-- A unit of a session that holds the payload of a frame it has not acknowledged yet: that frame is one of the
session's, and the buffer, the total and the flag are within their ranges (R28, R29). -/
structure ReadyToAcknowledge (c : Config) (u : RxUnit) : Prop where
  receiving : u.rxState = .receiving
  seq_lt : u.expectedSeq < u.rxTotal
  total_le : u.rxTotal ≤ c.maxFrames
  overflow : u.overflow = true → c.rxCap ≠ none
  buffer : u.bufferInv c
  len_le : u.rxLen ≤ (u.expectedSeq + 1) * 2 ^ 24

section
variable {c : Config} {s t : State} {raw : Bytes} {u : RxUnit}

/-- The last acknowledgment's number is one less than the cursor, and the session is complete when the cursor has
reached the total. -/
theorem ReadyToAcknowledge.rxInv {k : Bytes} (h : ReadyToAcknowledge c u) (hk : k.length = c.ckBytes) :
    RxInv c (u.acknowledged k) := by
  obtain ⟨hst, hlt, htotal, hoverflow, hbuffer, hlen⟩ := h
  have hstate : (u.acknowledged k).rxState = if u.expectedSeq + 1 = u.rxTotal then .complete else .receiving := by
    rw [RxUnit.acknowledged, hst]
  have hne : (u.acknowledged k).rxState ≠ .awaitInit := by
    rw [hstate]
    split <;> decide
  refine ⟨fun h => absurd h hne, fun h => ?receiving, fun h => ?complete, fun _ => rfl,
    fun h => ⟨hne, hoverflow h⟩, hbuffer, htotal, ?ackSeq, hk, hlen⟩
  case receiving =>
    rw [hstate] at h
    split at h
    · cases h
    · rename_i hmore
      exact ⟨Nat.succ_pos _, lt_of_le_of_ne hlt hmore, rfl⟩
  case complete =>
    rw [hstate] at h
    split at h
    · rename_i hlast
      exact ⟨hlast, (Nat.succ_pos _).trans_le hlt, rfl⟩
    · cases h
  case ackSeq =>
    change u.expectedSeq ≤ c.maxFrames
    omega

/-- The frame taken in is one of its session's: the first, or one below the total (R29). -/
theorem TakesIn.expectedSeq_lt (h : TakesIn s raw u) (hinv : RxInv s.cfg s.rx) : u.expectedSeq < u.rxTotal := by
  obtain ⟨hawait, hreceiving, _⟩ := hinv
  cases h with
  | metadata hst _ hpos =>
    obtain ⟨h0, _⟩ := hawait hst
    change s.rx.expectedSeq < ube (raw.drop s.cfg.hdrBytes)
    omega
  | data hst =>
    obtain ⟨_, hlt, _⟩ := hreceiving hst
    exact hlt

/-- A datagram that a command can carry, taken in, leaves the unit ready to acknowledge it. -/
theorem TakesIn.ready (h : TakesIn s raw u) (hinv : RxInv s.cfg s.rx) (hraw : raw.length < 2 ^ 24) :
    ReadyToAcknowledge s.cfg u := by
  have hlt := h.expectedSeq_lt hinv
  have hst := h.rxState_eq
  obtain ⟨hawait, _, _, _, hoverflow, hbuffer, htotal, _, _, hlen⟩ := hinv
  cases h with
  | metadata hst' hlen' _ =>
    obtain ⟨_, _, hempty⟩ := hawait hst'
    have hube := ube_lt_of_length hlen'
    rw [← two_pow_seqW] at hube
    refine ⟨hst, hlt, Nat.le_sub_one_of_lt hube, fun h => absurd hst' (hoverflow h).1, hbuffer, ?_⟩
    exact hempty.trans_le (Nat.zero_le _)
  | data _ hfits hm =>
    obtain ⟨_, hholds⟩ := hbuffer
    refine ⟨hst, hlt, htotal, fun h => (hoverflow h).2, ⟨hfits, memWrite_holdsExactly hholds hm⟩, ?_⟩
    rw [List.length_drop]
    change s.rx.rxLen + (raw.length - s.cfg.hdrBytes) ≤ (s.rx.expectedSeq + 1) * 2 ^ 24
    omega

/-- A frame is refused for want of room only where RBUF is bounded (R169). -/
theorem rxCap_ne_none_of_full {cap : Option Nat} {n : Nat} (h : fitsCap cap n = false) : cap ≠ none := by
  rintro rfl
  cases h

theorem RxOutcome.rxInv (h : RxOutcome s raw t) (hinv : RxInv s.cfg s.rx) (hraw : raw.length < 2 ^ 24) :
    RxInv s.cfg t.rx := by
  cases h with
  | rejected => exact hinv
  | overflowed hst _ hfull =>
    obtain ⟨hawait, hreceiving, hcomplete, hlast, _, hbuffer, hwidth⟩ := hinv
    have hne : s.rx.rxState ≠ .awaitInit := by
      rw [hst]
      decide
    exact ⟨hawait, hreceiving, hcomplete, hlast, fun _ => ⟨hne, rxCap_ne_none_of_full hfull⟩, hbuffer, hwidth⟩
  | acknowledged hexp hu =>
    obtain ⟨_, _, hk, _⟩ := parseFrame_frame hexp.parseFrame_eq
    exact (hu.ready hinv hraw).rxInv hk

theorem rxInv_of_exec_rx {i : Instr} (hi : i.isRx = true) (hwf : i.wf) (hinv : RxInv s.cfg s.rx)
    (h : exec i s = .next t) : RxInv s.cfg t.rx := by
  cases i <;> simp only [Instr.isRx, Bool.false_eq_true] at hi
  case rxFrame raw => exact (rxOutcome_of_exec h).rxInv hinv hwf
  case rxRead offset n =>
    obtain ⟨hrx, _⟩ := sameUnits_of_execRxRead h
    rwa [hrx]
  case rxReset =>
    cases h
    exact rxInv_reset s.cfg

end

/-! ## The sender -/

section
variable {c : Config} {s t : State} {u v : TxUnit}

/-- Inside a session the buffer and the counts stay, so that only what the cursors, the state and the timer do has to be
shown. -/
theorem TxInv.of_cursors (h : TxInv c u) (hst : u.txState ≠ .idle) (hst' : v.txState ≠ .idle)
    (hbuffer : v.txLen = u.txLen ∧ v.packetSize = u.packetSize ∧ v.tbuf = u.tbuf) (htotal : v.txTotal = u.txTotal)
    (horder : v.windowBase ≤ v.sendPtr ∧ v.sendPtr ≤ v.nextSeq ∧ v.nextSeq ≤ u.txTotal)
    (hwindow : v.windowInv c) (hdone : v.doneInv) (harmed : v.armedInv) : TxInv c v := by
  obtain ⟨_, hsession⟩ := h
  obtain ⟨⟨_, _, _, hmax⟩, _, hcount, _, _, hbuf⟩ := hsession hst
  obtain ⟨hlen, hps, htbuf⟩ := hbuffer
  obtain ⟨hbase, hptr, hnext⟩ := horder
  refine ⟨fun h => absurd h hst', fun _ => ⟨⟨hbase, hptr, ?_, ?_⟩, hwindow, ?_, hdone, harmed, ?_⟩⟩
  · rwa [htotal]
  · rwa [htotal]
  · rw [TxUnit.totalInv, htotal, hlen, hps, hcount]
  · rwa [TxUnit.bufferInv, hlen, hps, htbuf]

/-- In an active session the base is below the total (R39 (d)). -/
theorem TxInv.windowBase_lt (h : TxInv c u) (hst : u.txState = .active) : u.windowBase < u.txTotal := by
  obtain ⟨_, hsession⟩ := h
  obtain ⟨⟨_, _, _, _⟩, _, _, hdone, _⟩ := hsession (by rw [hst]; decide)
  have : u.windowBase ≠ u.txTotal := fun h => by
    have := hdone.2 h
    rw [hst] at this
    cases this
  omega

/-- A session with a frame outstanding is active (R39 (d)). -/
theorem TxInv.active_of_outstanding (h : TxInv c u) (hst : u.txState ≠ .idle) (hout : u.windowBase < u.nextSeq) :
    u.txState = .active := by
  obtain ⟨_, hsession⟩ := h
  obtain ⟨⟨_, _, _, _⟩, _, _, hdone, _⟩ := hsession hst
  cases hu : u.txState with
  | idle => exact absurd hu hst
  | active => rfl
  | done =>
    have := hdone.1 hu
    omega

/-- The range of `packet_size` after a load (R35; log entry 24). -/
theorem heldPacketSize_range {len w max : Nat} (hl : len < 2 ^ 24) (hw : 1 ≤ w) (hmax : w ≤ max) :
    1 ≤ heldPacketSize len w ∧ heldPacketSize len w ≤ max ∧ heldPacketSize len w < 2 ^ 24 := by
  rcases heldPacketSize_cases (w := w) hl with ⟨_, h⟩ | ⟨_, _, _, _⟩ <;> omega

/-- A session just loaded (R205). -/
theorem txInv_loadedUnit {m : Memory} {len ps : Nat} (hps : 1 ≤ ps ∧ ps ≤ c.maxPayload ∧ ps < 2 ^ 24)
    (hcap : len ≤ c.txCap) (htotal : totalFrames len ps ≤ c.maxFrames) (hm : m.holdsExactly len) :
    TxInv c (loadedUnit m len ps) := by
  obtain ⟨hpos, hmax, hlt⟩ := hps
  have hcount : 0 < totalFrames len ps := by
    rw [totalFrames_eq_succ]
    exact Nat.succ_pos _
  refine ⟨fun h => (nomatch h), fun _ => ⟨⟨le_rfl, le_rfl, hcount.le, htotal⟩, Nat.zero_le _, rfl, ?done, ?armed,
    hpos, hmax, hlt, hcap, hm⟩⟩
  case done => exact ⟨fun h => (nomatch h), fun h => absurd h hcount.ne⟩
  case armed => exact ⟨fun h => (nomatch h), fun h => absurd h.2 (Nat.lt_irrefl 0)⟩

theorem txInv_of_execTxLoad {b : Bytes} {ps : Word} (hc : s.cfg.wf) (hinv : TxInv s.cfg s.tx)
    (h : execTxLoad b ps s = .next t) : TxInv s.cfg t.tx := by
  rcases execTxLoad_cases b ps s with ⟨st, e, _⟩ | ⟨_, hpos, hmax, hcap, htotal, m, hm, e⟩ <;> rw [e] at h <;> cases h
  case inl => exact hinv
  case inr =>
    obtain ⟨_, _, _, _, _, hcap24, _⟩ := hc
    have hholds : m.holdsExactly (0 + b.length) := memWrite_holdsExactly Memory.holdsExactly_nil hm
    rw [Nat.zero_add] at hholds
    refine txInv_loadedUnit (heldPacketSize_range (by omega) hpos hmax) hcap ?_ hholds
    rwa [totalFrames_heldPacketSize hpos]

/-- A frame sent leaves the session active and the timer armed: with it at least one frame is outstanding. -/
theorem txInv_of_sendFrame {k : Nat} {st : Status} (hinv : TxInv s.cfg s.tx) (hst : s.tx.txState = .active)
    (hv : v = { s.tx with nextSeq := v.nextSeq, sendPtr := v.sendPtr })
    (horder : s.tx.windowBase ≤ v.sendPtr ∧ v.sendPtr ≤ v.nextSeq ∧ v.nextSeq ≤ s.tx.txTotal)
    (hwindow : v.nextSeq ≤ s.tx.windowBase + s.cfg.windowSize) (hout : s.tx.windowBase < v.nextSeq)
    (h : sendFrame s v k st = .next t) : TxInv s.cfg t.tx := by
  have hlt := hinv.windowBase_lt hst
  have hne : s.tx.txState ≠ .idle := by
    rw [hst]
    decide
  rw [tx_of_sendFrame h, hv]
  refine hinv.of_cursors hne hne ⟨rfl, rfl, rfl⟩ rfl horder ?window ?done ?armed
  case window =>
    change v.nextSeq - s.tx.windowBase ≤ s.cfg.windowSize
    omega
  case done => exact ⟨fun h => absurd (hst.symm.trans h) (by decide), fun h => absurd h hlt.ne⟩
  case armed => exact ⟨fun _ => ⟨hst, hout⟩, fun _ => rfl⟩

theorem txInv_of_execTxNext (hinv : TxInv s.cfg s.tx) (h : execTxNext s = .next t) : TxInv s.cfg t.tx := by
  rcases execTxNext_cases s with ⟨st, n, e, _⟩ | ⟨hst, hptr, e⟩ | ⟨hst, hptr, hlimit, e⟩ <;> rw [e] at h
  case inl =>
    cases h
    exact hinv
  all_goals
    have ⟨_, hsession⟩ := hinv
    obtain ⟨⟨_, _, _, _⟩, hwindow, _⟩ := hsession (by rw [hst]; decide)
    unfold TxUnit.windowInv at hwindow
  case inr.inl =>
    refine txInv_of_sendFrame hinv hst rfl ?_ ?_ ?_ h <;> simp only <;> omega
  case inr.inr =>
    unfold sendLimit at hlimit
    refine txInv_of_sendFrame hinv hst rfl ?_ ?_ ?_ h <;> simp only <;> omega

/-- The acknowledgment of a frame in flight moves the base past it: the session is done when that was the last frame,
and the timer stays armed while a frame is outstanding (R215). -/
theorem txInv_of_advanceWindow {seq : Nat} (hinv : TxInv s.cfg s.tx) (hst : s.tx.txState ≠ .idle)
    (hbase : s.tx.windowBase ≤ seq) (hseq : seq < s.tx.nextSeq) (h : advanceWindow s seq = .next t) :
    TxInv s.cfg t.tx := by
  have hactive := hinv.active_of_outstanding hst (by omega)
  have ⟨_, hsession⟩ := hinv
  obtain ⟨⟨_, _, _, _⟩, hwindow, _, _, harmed, _⟩ := hsession hst
  have horder : seq + 1 ≤ max s.tx.sendPtr (seq + 1) ∧ max s.tx.sendPtr (seq + 1) ≤ s.tx.nextSeq ∧
      s.tx.nextSeq ≤ s.tx.txTotal := by omega
  have hwindow' : s.tx.nextSeq - (seq + 1) ≤ s.cfg.windowSize := by
    unfold TxUnit.windowInv at hwindow
    omega
  have hnotDone (hmore : seq + 1 ≠ s.tx.txTotal) : s.tx.txState = .done ↔ seq + 1 = s.tx.txTotal :=
    ⟨fun h => absurd (hactive.symm.trans h) (by decide), fun h => absurd h hmore⟩
  rcases advanceWindow_cases s seq with ⟨hlast, e⟩ | ⟨hmore, hout, e⟩ | ⟨hmore, hnone, e⟩ <;> rw [e] at h <;> cases h
  case inl =>
    exact hinv.of_cursors hst (fun h => nomatch h) ⟨rfl, rfl, rfl⟩ rfl horder hwindow' ⟨fun _ => hlast, fun _ => rfl⟩
      ⟨fun h => (nomatch h), fun h => nomatch h.1⟩
  case inr.inl =>
    exact hinv.of_cursors hst hst ⟨rfl, rfl, rfl⟩ rfl horder hwindow' (hnotDone hmore)
      ⟨fun _ => ⟨hactive, hout⟩, fun _ => harmed.2 ⟨hactive, by omega⟩⟩
  case inr.inr =>
    exact hinv.of_cursors hst hst ⟨rfl, rfl, rfl⟩ rfl horder hwindow' (hnotDone hmore)
      ⟨fun h => (nomatch h), fun h => absurd h.2 hnone.not_gt⟩

theorem txInv_of_execTxAck {raw : Bytes} (hinv : TxInv s.cfg s.tx) (h : execTxAck raw s = .next t) :
    TxInv s.cfg t.tx := by
  rcases execTxAck_cases raw s with ⟨st, n, e, _⟩ | ⟨hst, _, e⟩ |
    ⟨hst, seq, k, _, hbase, hseq, ⟨_, e⟩ | ⟨f, _, e⟩⟩ <;> rw [e] at h
  case inl =>
    cases h
    exact hinv
  case inr.inl =>
    cases h
    have ⟨_, hsession⟩ := hinv
    exact ⟨fun h => absurd h hst, fun _ => hsession hst⟩
  case inr.inr.inl => exact txInv_of_advanceWindow hinv hst hbase hseq h
  case inr.inr.inr => cases h

theorem txInv_of_execTxTimeout (hinv : TxInv s.cfg s.tx) (h : execTxTimeout s = .next t) : TxInv s.cfg t.tx := by
  rcases execTxTimeout_cases s with ⟨_, e⟩ | ⟨hst, _, e⟩ <;> rw [e] at h <;> cases h
  case inl => exact hinv
  case inr =>
    have hne : s.tx.txState ≠ .idle := by
      rw [hst]
      decide
    have ⟨_, hsession⟩ := hinv
    obtain ⟨⟨hbase, hptr, hnext, _⟩, hwindow, _, hdone, harmed, _⟩ := hsession hne
    exact hinv.of_cursors hne hne ⟨rfl, rfl, rfl⟩ rfl ⟨le_rfl, hbase.trans hptr, hnext⟩ hwindow hdone harmed

theorem txInv_of_exec_tx {i : Instr} (hi : i.isTx = true) (hc : s.cfg.wf) (hinv : TxInv s.cfg s.tx)
    (h : exec i s = .next t) : TxInv s.cfg t.tx := by
  cases i <;> simp only [Instr.isTx, Bool.false_eq_true] at hi
  case txLoad b ps => exact txInv_of_execTxLoad hc hinv h
  case txNext => exact txInv_of_execTxNext hinv h
  case txAck raw => exact txInv_of_execTxAck hinv h
  case txTimeout => exact txInv_of_execTxTimeout hinv h
  case txAbort =>
    cases h
    exact txInv_reset s.cfg

end

/-! ## The machine -/

/-- An operation that a command can carry keeps the invariant, whatever its family. -/
theorem invariant_of_exec {i : Instr} {s t : State} (hwf : i.wf) (hinv : Invariant s) (h : exec i s = .next t) :
    Invariant t := by
  obtain ⟨hcfg, _⟩ := sameConnections_of_exec h
  have ⟨hc, hrx, htx⟩ := hinv
  rw [Invariant, hcfg]
  rcases i.family_cases with hcodec | hi | hi | ⟨n, rfl⟩ | rfl
  · rw [exec_codec_frame hcodec h]
    exact hinv
  · rw [tx_of_exec_rx hi h]
    exact ⟨hc, rxInv_of_exec_rx hi hwf hrx h, htx⟩
  · rw [rx_of_exec_tx hi h]
    exact ⟨hc, hrx, txInv_of_exec_tx hi hc htx h⟩
  · obtain ⟨hrx', htx'⟩ := sameUnits_of_execRdReg h
    rw [hrx', htx']
    exact hinv
  · cases h
    exact ⟨hc, rxInv_reset s.cfg, txInv_reset s.cfg⟩

/-- Settles O57: hardware reset establishes the invariant, and an operation the decoder has read keeps it. -/
theorem stepKeepsTheInvariant : Obligations.StepKeepsTheInvariant := by
  intro s t hinv h
  by_cases hreset : s.resetIn = true
  · obtain ⟨hc, _⟩ := hinv
    rw [step_of_resetIn hreset] at h
    cases h
    exact invariant_resetWith hc
  · rw [step, if_neg hreset] at h
    cases hd : decode s.port with
    | idle | incomplete =>
      rw [hd] at h
      cases h
      exact hinv
    | illegal word0 rest =>
      rw [hd] at h
      cases h
      exact hinv
    | instr i rest =>
      rw [hd] at h
      obtain ⟨hwf, _⟩ := encodeOfDecodeIsThePort _ _ _ hd
      exact invariant_of_exec (s := s.withPort rest) hwf hinv h

end Sys2Proof.Machine
end

section
/-! SUPPORT. What follows of the receiver's three outcomes (41_receiver.md R164 to R176): the state it goes to, its
answer to a frame it has already accepted, and what it answers while nothing it is given can be accepted. -/

namespace Sys2Proof.Machine

section
variable {s t : State} {raw : Bytes}

/-! ## The unit's state (R176) -/

/-- What `RX_FRAME` does to the state and the cursor, by whether it accepts: an accepted frame moves the cursor by one
and completes the session when it reaches the total. -/
theorem RxOutcome.rxState_cases {r : Response} (h : RxOutcome s raw t) (hr : t.response = some r) :
    (¬ accepted r ∧ t.rx.rxState = s.rx.rxState) ∨
    (accepted r ∧ t.rx.expectedSeq = s.rx.expectedSeq + 1 ∧ (RxInv s.cfg s.rx → t.rx.expectedSeq ≤ t.rx.rxTotal) ∧
      s.rx.rxState ≠ .complete ∧
      t.rx.rxState = if t.rx.expectedSeq = t.rx.rxTotal then .complete else .receiving) := by
  cases h with
  | rejected hst =>
    cases hr
    exact .inl ⟨not_accepted_of_writesNothing hst, rfl⟩
  | overflowed =>
    cases hr
    exact .inl ⟨by simp [accepted], rfl⟩
  | @acknowledged u _ hu =>
    cases hr
    have hne : s.rx.rxState ≠ .complete := by
      cases hu with
      | metadata hst => rw [hst]; decide
      | data hst => rw [hst]; decide
    refine .inr ⟨acceptResponse_accepted .., congrArg (· + 1) hu.expectedSeq_eq, hu.expectedSeq_lt, hne, ?_⟩
    simp only [State.respond_rx, State.withRx_rx, RxUnit.acknowledged, hu.rxState_eq]

/-- The operations that are none of the three of R176 leave the RX unit as it was. -/
theorem rx_of_exec {i : Instr} (hframe : ∀ raw, i ≠ .rxFrame raw) (hrxReset : i ≠ .rxReset) (hreset : i ≠ .reset)
    (h : exec i s = .next t) : t.rx = s.rx := by
  rcases i.family_cases with hcodec | hrx | htx | ⟨n, rfl⟩ | rfl
  · rw [exec_codec_frame hcodec h, State.withResponseOf_rx]
  · cases i <;> simp only [Instr.isRx, Bool.false_eq_true] at hrx
    case rxFrame raw => exact absurd rfl (hframe raw)
    case rxRead offset n => exact (sameUnits_of_execRxRead h).1
    case rxReset => exact absurd rfl hrxReset
  · exact rx_of_exec_tx htx h
  · exact (sameUnits_of_execRdReg h).1
  · exact absurd rfl hreset

end

/-- Settles O52: the two outcomes of `RX_FRAME`, the two resets, and what leaves the unit as it was. -/
theorem rxStateFollowsItsTable : Obligations.RxStateFollowsItsTable := by
  intro i s t r hinv h hr
  refine ⟨?frame, ?reset, fun hframe hrxReset hreset => congrArg _ (rx_of_exec hframe hrxReset hreset h)⟩
  case reset =>
    rintro (rfl | rfl) <;> cases h <;> rfl
  case frame =>
    rintro raw rfl
    obtain ⟨_, hrx, _⟩ := hinv
    have ⟨hawait, _⟩ := hrx
    rcases (rxOutcome_of_exec h).rxState_cases hr with ⟨hrej, hst⟩ | ⟨hacc, hseq, hle, hne, hst⟩
    case inl =>
      refine ⟨?_, ?_, ?_, fun h _ => hst.trans h, ?_, ?_, ?_, fun h _ => hst.trans h, fun h => hst.trans h⟩ <;>
        exact fun _ hacc => absurd hacc hrej
    case inr =>
      have hle := hle hrx
      refine ⟨fun h _ hmore => ?_, fun h _ hone => ?_, fun _ _ => by omega, fun _ hrej => absurd hacc hrej,
        fun _ _ hlt => by rw [hst, if_neg hlt.ne], fun _ _ heq => by rw [hst, if_pos heq], fun _ _ => hle,
        fun _ hrej => absurd hacc hrej, fun h => absurd h hne⟩ <;> obtain ⟨h0, _⟩ := hawait h
      · rw [hst, if_neg (by omega)]
      · rw [hst, if_pos (by omega)]

/-! ## A frame delivered again -/

section
variable {s t : State} {raw : Bytes}

/-- An accepted datagram is the one that was expected, and the unit that has accepted it holds its acknowledgment and
has moved past its number (R168). -/
theorem RxOutcome.of_accepted {r : Response} (h : RxOutcome s raw t) (hr : t.response = some r) (hacc : accepted r) :
    Expected s raw ∧ r.wire.head? = some (raw.take s.cfg.hdrBytes) ∧ t.rx.expectedSeq = s.rx.expectedSeq + 1 ∧
      lastAckAgain t = [raw.take s.cfg.hdrBytes] := by
  cases h with
  | rejected hst =>
    cases hr
    exact absurd hacc (not_accepted_of_writesNothing hst)
  | overflowed =>
    cases hr
    exact absurd hacc (by simp [accepted])
  | @acknowledged u hexp hu =>
    cases hr
    have hack : mkAck s.cfg u.expectedSeq (ckField s.cfg raw) = raw.take s.cfg.hdrBytes := by
      rw [hu.expectedSeq_eq, hexp.mkAck_eq]
    refine ⟨hexp, ?_, congrArg (· + 1) hu.expectedSeq_eq, ?_⟩
    · rw [acceptResponse_head?, hack]
    · rw [← hack]
      rfl

/-- A frame whose number the unit has passed is rejected, with the last acknowledgment again (R164, R171). -/
theorem execRxFrame_of_passed (hl : frameLength s.cfg raw) (hne : seqField s.cfg raw ≠ s.rx.expectedSeq) :
    ∃ st n, st.writesNothing = true ∧ execRxFrame raw s = rejectFrame s st n := by
  by_cases hst : s.rx.rxState = .complete
  · exact ⟨_, _, rfl, execRxFrame_of_complete hst⟩
  · exact ⟨_, _, rfl, execRxFrame_of_seqField_ne hst hl hne⟩

end

/-- Settles O21: the second delivery carries a number the unit has passed, and its last acknowledgment is the
frame's. -/
theorem rxDuplicateDeliveryIsIdempotent : Obligations.RxDuplicateDeliveryIsIdempotent := by
  intro s t raw r h hr hacc
  obtain ⟨hexp, hhead, hnext, hagain⟩ := (rxOutcome_of_exec h).of_accepted hr hacc
  obtain ⟨hcfg, _⟩ := sameConnections_of_exec h
  have hl : frameLength t.cfg raw := hcfg ▸ hexp.length
  have hpassed : seqField t.cfg raw ≠ t.rx.expectedSeq := by
    rw [hcfg, hexp.seq, hnext]
    exact (Nat.lt_succ_self _).ne
  obtain ⟨st, n, hst, e⟩ := execRxFrame_of_passed hl hpassed
  exact ⟨hhead, _, _, e, ⟨rfl, rfl⟩, rfl, hagain, not_accepted_of_writesNothing hst⟩

/-! ## Datagrams that leave the unit as it is -/

theorem forall_mem_right_of_forall₂ {α β : Type} {p : β → Prop} {xs : List α} {ys : List β}
    (h : List.Forall₂ (fun _ y => p y) xs ys) : ∀ y ∈ ys, p y := by
  induction h with
  | nil => simp
  | cons hy _ ih => exact List.forall_mem_cons.2 ⟨hy, ih⟩

/-- Where each of the datagrams, given alone, leaves the unit as it is, so does any number of them one after another,
and each is answered as if it were the first. -/
theorem performAll_of_rx_unchanged {Q : Bytes → Response → Prop} {raws : List Bytes} {s : State}
    (h : ∀ raw ∈ raws, ∃ t r, exec (.rxFrame raw) s = .next t ∧ t.rx = s.rx ∧ t.response = some r ∧ Q raw r) :
    ∃ rs t, performAll (raws.map .rxFrame) s = some (rs, t) ∧ sameUnits s t ∧ List.Forall₂ Q raws rs := by
  induction raws generalizing s with
  | nil => exact ⟨[], s, rfl, ⟨rfl, rfl⟩, .nil⟩
  | cons raw raws ih =>
    obtain ⟨t, r, hexec, hrx, hr, hq⟩ := h raw List.mem_cons_self
    obtain ⟨hcfg, _⟩ := sameConnections_of_exec hexec
    obtain ⟨rs, u, hall, ⟨hrx', htx'⟩, hqs⟩ := ih (s := t) fun raw' hraw' => by
      obtain ⟨t', r', hexec', hrx', hr', hq'⟩ := h raw' (List.mem_cons_of_mem _ hraw')
      exact ⟨_, r', exec_rx_next_of_agree rfl hcfg hrx hexec', hrx'.trans hrx.symm, hr', hq'⟩
    refine ⟨r :: rs, u, ?_, ⟨hrx'.trans hrx, htx'.trans (tx_of_exec_rx rfl hexec)⟩, .cons hq hqs⟩
    simp [performAll, perform_of_response hexec hr, hall]

/-- While the frame expected next is missing, a frame of another number is answered with the last acknowledgment. -/
theorem ahead_of_gap_rejected {s : State} {raws : List Bytes} (hst : s.rx.rxState = .receiving)
    (h : ∀ raw ∈ raws, frameLength s.cfg raw ∧ s.rx.expectedSeq < seqField s.cfg raw) :
    ∃ rs t, performAll (raws.map .rxFrame) s = some (rs, t) ∧ sameUnits s t ∧
      rs = raws.map fun raw =>
        { status := .sequenceMismatch, rdata := seqField s.cfg raw, wire := lastAckAgain s } := by
  obtain ⟨rs, t, hall, hsame, hrs⟩ := performAll_of_rx_unchanged (s := s) (raws := raws)
    (Q := fun raw r => ({ status := .sequenceMismatch, rdata := seqField s.cfg raw, wire := lastAckAgain s } : Response)
      = r) fun raw hraw => by
    obtain ⟨hl, hlt⟩ := h raw hraw
    exact ⟨_, _, execRxFrame_of_seqField_ne (by rw [hst]; decide) hl hlt.ne', rfl, rfl, rfl⟩
  refine ⟨rs, t, hall, hsame, ?_⟩
  rw [← List.forall₂_map_left_iff, List.forall₂_eq_eq_eq] at hrs
  exact hrs.symm

/-- A frame refused for want of room was expected, did not fit, and has only set the flag (R169). -/
theorem RxOutcome.of_overflow {s t : State} {raw : Bytes} {r : Response} (h : RxOutcome s raw t)
    (hr : t.response = some r) (hover : r.status = .overflow) :
    s.rx.rxState = .receiving ∧ Expected s raw ∧
      fitsCap s.cfg.rxCap (s.rx.rxLen + (raw.drop s.cfg.hdrBytes).length) = false ∧
      t.rx = { s.rx with overflow := true } := by
  cases h with
  | rejected hst =>
    cases hr
    cases hover
    cases hst
  | overflowed hst hexp hfull => exact ⟨hst, hexp, hfull, rfl⟩
  | acknowledged =>
    cases hr
    rcases acceptResponse_accepted _ _ _ with h | h <;> cases hover.symm.trans h

/-- After a frame is refused for want of room, nothing is accepted while no other good frame of its number arrives: what
is not expected is rejected, and the frame itself is refused again (R169). -/
theorem rxOutcome_after_overflow {s t : State} {raw : Bytes} (hst : s.rx.rxState = .receiving)
    (hflag : s.rx.overflow = true)
    (hfull : Expected s raw → fitsCap s.cfg.rxCap (s.rx.rxLen + (raw.drop s.cfg.hdrBytes).length) = false)
    (h : RxOutcome s raw t) :
    ∃ r, t.rx = s.rx ∧ t.response = some r ∧ ¬ accepted r ∧ r.wire = lastAckAgain s := by
  cases h with
  | rejected hst => exact ⟨_, rfl, rfl, not_accepted_of_writesNothing hst, rfl⟩
  | overflowed =>
    refine ⟨_, ?_, rfl, by simp [accepted], rfl⟩
    rw [State.respond_rx, State.withRx_rx, ← hflag]
  | acknowledged hexp hu =>
    cases hu with
    | metadata hst' =>
      rw [hst] at hst'
      cases hst'
    | data _ hfits =>
      rw [hfull hexp] at hfits
      cases hfits

/-! ## The flag only reports (R258) -/

/-- Two outcomes that go on to states equal but for what the `overflow` flag holds. -/
def EqualButOverflow (o o' : Host.Outcome State Fault Refusal) : Prop :=
  ∃ t u, o = .next t ∧ o' = .next u ∧ u.response = t.response ∧ u.tx = t.tx ∧
    { u.rx with overflow := t.rx.overflow } = t.rx

theorem EqualButOverflow.ite {p : Prop} [Decidable p] {o₁ o₂ o₁' o₂' : Host.Outcome State Fault Refusal}
    (h₁ : p → EqualButOverflow o₁ o₁') (h₂ : ¬ p → EqualButOverflow o₂ o₂') :
    EqualButOverflow (if p then o₁ else o₂) (if p then o₁' else o₂') := by
  by_cases h : p
  · rw [if_pos h, if_pos h]
    exact h₁ h
  · rw [if_neg h, if_neg h]
    exact h₂ h

theorem rejectFrame_overflow (s : State) (flag : Bool) (st : Status) (n : Nat) :
    EqualButOverflow (rejectFrame s st n) (rejectFrame (s.withRx { s.rx with overflow := flag }) st n) :=
  ⟨_, _, rfl, rfl, rfl, rfl, rfl⟩

theorem acceptFrame_overflow (s : State) (u : RxUnit) (flag : Bool) (seq : Nat) (k : Bytes) :
    EqualButOverflow (acceptFrame s u seq k)
      (acceptFrame (s.withRx { s.rx with overflow := flag }) { u with overflow := flag } seq k) :=
  .ite (fun _ => ⟨_, _, rfl, rfl, rfl, rfl, rfl⟩) (fun _ => ⟨_, _, rfl, rfl, rfl, rfl, rfl⟩)

theorem acceptMetadata_overflow (s : State) (flag : Bool) (seq : Nat) (k p : Bytes) :
    EqualButOverflow (acceptMetadata s seq k p)
      (acceptMetadata (s.withRx { s.rx with overflow := flag }) seq k p) :=
  .ite (fun _ => rejectFrame_overflow ..)
    (fun _ => acceptFrame_overflow s { s.rx with rxTotal := ube p, rxState := .receiving } ..)

/-- Where the frame does not fit, the flag is set whatever it held. -/
theorem acceptData_overflow (s : State) (flag : Bool) (seq : Nat) (k p : Bytes) :
    EqualButOverflow (acceptData s seq k p) (acceptData (s.withRx { s.rx with overflow := flag }) seq k p) := by
  unfold acceptData
  simp only [State.withRx_cfg, State.withRx_rx]
  refine .ite (fun _ => ⟨_, _, rfl, rfl, rfl, rfl, rfl⟩) (fun hroom => ?_)
  obtain ⟨m, hm⟩ := memWrite_of_fits (c := s.cfg) (space := .rbuf) s.rx.rbuf (by simpa using hroom)
  rw [hm]
  exact acceptFrame_overflow s { s.rx with rbuf := m, rxLen := s.rx.rxLen + p.length } ..

/-- No check of `RX_FRAME` looks at the flag. -/
theorem execRxFrame_overflow (raw : Bytes) (s : State) (flag : Bool) :
    EqualButOverflow (execRxFrame raw s) (execRxFrame raw (s.withRx { s.rx with overflow := flag })) := by
  unfold execRxFrame
  simp only [State.withRx_cfg, State.withRx_rx]
  refine .ite (fun _ => rejectFrame_overflow ..) fun _ => ?_
  cases parseFrame s.cfg raw with
  | short => exact rejectFrame_overflow ..
  | oversize => exact rejectFrame_overflow ..
  | frame =>
    exact .ite (fun _ => rejectFrame_overflow ..) fun _ => .ite (fun _ => rejectFrame_overflow ..) fun _ =>
      .ite (fun _ => acceptMetadata_overflow ..) fun _ => acceptData_overflow ..

/-- Settles O22: of the datagrams of the first two parts each leaves the unit as it is, so that they do so one after
another; for the third, no check looks at the flag. -/
theorem rxDiscardsEverythingAheadOfTheGap : Obligations.RxDiscardsEverythingAheadOfTheGap := by
  refine ⟨fun s raws hinv hst hahead => ?gap, fun s t f r raws h hr hover hothers => ?full,
    fun s raw flag => execRxFrame_overflow raw s flag⟩
  case gap =>
    obtain ⟨_, ⟨_, hreceiving, _, hlast, _⟩, _⟩ := hinv
    obtain ⟨_, _, hvalid⟩ := hreceiving hst
    have hagain : lastAckAgain s = [be s.cfg.seqBytes (s.rx.expectedSeq - 1) ++ s.rx.lastAckCk] := by
      rw [lastAckAgain, if_pos hvalid, hlast hvalid]
    rw [← hagain]
    exact ahead_of_gap_rejected hst hahead
  case full =>
    obtain ⟨hst, hexp, hfull, ht⟩ := (rxOutcome_of_exec h).of_overflow hr hover
    have hcfg : t.cfg = s.cfg := (sameConnections_of_exec h).1
    have hagain : lastAckAgain t = lastAckAgain s := by rw [lastAckAgain, hcfg, ht]
    have hst' : t.rx.rxState = .receiving := by rw [ht, hst]
    have hflag : t.rx.overflow = true := by rw [ht]
    refine ⟨hst', hflag, ?_⟩
    have hfull' (raw : Bytes) (hraw : raw ∈ raws) (hexp' : Expected t raw) :
        fitsCap t.cfg.rxCap (t.rx.rxLen + (raw.drop t.cfg.hdrBytes).length) = false := by
      obtain ⟨hl, hseq, hgood⟩ := hexp'
      rw [hcfg] at hl hseq hgood
      rw [ht] at hseq
      obtain rfl := hothers raw hraw hl (hseq.trans hexp.seq.symm) hgood
      rw [hcfg, ht]
      exact hfull
    obtain ⟨rs, u, hall, hsame, hrs⟩ := performAll_of_rx_unchanged (s := t) (raws := raws)
      (Q := fun _ r => ¬ accepted r ∧ r.wire = lastAckAgain s) fun raw hraw => by
      obtain ⟨u, hexec, hout⟩ := exists_rxOutcome raw t
      obtain ⟨q, hrx, hq, hrej, hwire⟩ := rxOutcome_after_overflow hst' hflag (hfull' raw hraw) hout
      exact ⟨u, q, hexec, hrx, hq, hrej, hwire.trans hagain⟩
    exact ⟨rs, u, hall, hsame, hrs.length_eq.symm, forall_mem_right_of_forall₂ hrs⟩

end Sys2Proof.Machine
end

section
/-! SUPPORT. In-order delivery (41_receiver.md section 5): what the receiver keeps from datagram to datagram of a
session, and what each of them adds to the numbers it has accepted and to the bytes it has assembled. -/

namespace Sys2Proof.Machine

/-- The bytes below the end are read back as they are when bytes are appended (R167). -/
theorem readBytes_append {c : Config} {space : Space} {m m' : Memory} {len : Nat} {b v : Bytes}
    (hb : m.readBytes 0 len = .ok b) (hw : memWrite c space m len v = .ok m') :
    m'.readBytes 0 (len + v.length) = .ok (b ++ v) := by
  obtain ⟨hlen, hread⟩ := Memory.readBytes_ok hb
  obtain ⟨_, _, hwritten⟩ := memWrite_ok hw
  rw [← hlen, ← List.length_append]
  refine Memory.readBytes_of_read? fun k hk => ?_
  rw [List.length_append] at hk
  rw [hwritten, Nat.zero_add]
  by_cases hold : k < len
  · rw [if_neg (by omega), List.getElem?_append_left (by omega), ← hread k hold, Nat.zero_add]
  · rw [if_pos (by omega), List.getElem?_append_right (by omega), hlen]

/-- Of a unit whose session is not complete the cursor tells whether the metadata frame has been accepted; RBUF holds
the bytes `b`. -/
structure Delivered (u : RxUnit) (b : Bytes) : Prop where
  await : u.rxState = .awaitInit → u.expectedSeq = 0
  receiving : u.rxState = .receiving → u.expectedSeq ≠ 0
  bytes : u.rbuf.readBytes 0 u.rxLen = .ok b

theorem delivered_reset (c : Config) : Delivered (RxUnit.reset c) [] :=
  ⟨fun _ => rfl, fun h => (nomatch h), rfl⟩

section
variable {s t : State} {raw : Bytes} {u : RxUnit} {b : Bytes} {r : Response}

/-- The metadata frame adds no byte to RBUF, a data frame its payload (R166, R167). -/
theorem Delivered.takesIn (h : Delivered s.rx b) (hu : TakesIn s raw u) :
    u.rbuf.readBytes 0 u.rxLen = .ok (b ++ if s.rx.expectedSeq ≠ 0 then raw.drop s.cfg.hdrBytes else []) := by
  obtain ⟨hawait, hreceiving, hbytes⟩ := h
  cases hu with
  | metadata hst =>
    rw [if_neg (not_not_intro (hawait hst)), List.append_nil]
    exact hbytes
  | data hst _ hm =>
    rw [if_pos (hreceiving hst)]
    exact readBytes_append hbytes hm

/-- An accepted datagram carries the number of the cursor, moves the cursor by one, and adds its payload unless it is
the metadata frame. -/
theorem Delivered.of_accepted (h : Delivered s.rx b) (hout : RxOutcome s raw t) (hr : t.response = some r)
    (hacc : accepted r) :
    seqField s.cfg raw = s.rx.expectedSeq ∧ t.rx.expectedSeq = s.rx.expectedSeq + 1 ∧
      Delivered t.rx (b ++ if s.rx.expectedSeq ≠ 0 then raw.drop s.cfg.hdrBytes else []) := by
  obtain ⟨hexp, _, hnext, _⟩ := hout.of_accepted hr hacc
  refine ⟨hexp.seq, hnext, ?await, fun _ => by omega, ?bytes⟩
  case await =>
    rcases hout.rxState_cases hr with ⟨hrej, _⟩ | ⟨_, _, _, _, hst⟩
    · exact absurd hacc hrej
    · intro hawait
      rw [hst] at hawait
      split at hawait <;> cases hawait
  case bytes =>
    cases hout with
    | rejected hst =>
      cases hr
      exact absurd hacc (not_accepted_of_writesNothing hst)
    | overflowed =>
      cases hr
      exact absurd hacc (by simp [accepted])
    | acknowledged _ hu => exact (h.takesIn hu :)

/-- A datagram that is not accepted changes neither the cursor nor the bytes. -/
theorem Delivered.of_not_accepted (h : Delivered s.rx b) (hout : RxOutcome s raw t) (hr : t.response = some r)
    (hrej : ¬ accepted r) : t.rx.expectedSeq = s.rx.expectedSeq ∧ Delivered t.rx b := by
  cases hout with
  | rejected => exact ⟨rfl, h⟩
  | overflowed => exact ⟨rfl, h.await, h.receiving, h.bytes⟩
  | acknowledged =>
    cases hr
    exact absurd (acceptResponse_accepted ..) hrej

end

/-- Whatever datagrams follow, the accepted ones carry on the numbers and the bytes the receiver has so far. -/
theorem Delivered.performAll_frames {s : State} {b : Bytes} (h : Delivered s.rx b) (raws : List Bytes) :
    ∃ rs t, performAll (raws.map .rxFrame) s = some (rs, t) ∧
      List.range s.rx.expectedSeq ++ acceptedSeqs s.cfg raws rs = List.range t.rx.expectedSeq ∧
      t.rx.rbuf.readBytes 0 t.rx.rxLen = .ok (b ++ acceptedPayloads s.cfg raws rs) := by
  induction raws generalizing s b with
  | nil => exact ⟨[], s, rfl, List.append_nil _, by rw [acceptedPayloads, List.append_nil, h.bytes]⟩
  | cons raw raws ih =>
    obtain ⟨t, hexec, hout⟩ := exists_rxOutcome raw s
    obtain ⟨r, hr, _⟩ := answers_of_execRxFrame hexec
    obtain ⟨hcfg, _⟩ := sameConnections_of_exec (i := .rxFrame raw) hexec
    have hcons {rs : List Response} {u : State} (hall : performAll (raws.map .rxFrame) t = some (rs, u)) :
        performAll ((raw :: raws).map .rxFrame) s = some (r :: rs, u) := by
      simp [performAll, perform_of_response (i := .rxFrame raw) hexec hr, hall]
    by_cases hacc : accepted r
    case pos =>
      obtain ⟨hseq, hnext, ht⟩ := h.of_accepted hout hr hacc
      obtain ⟨rs, u, hall, hseqs, hbytes⟩ := ih ht
      rw [hcfg] at hseqs hbytes
      refine ⟨r :: rs, u, hcons hall, ?_, ?_⟩
      · rw [acceptedSeqs, if_pos hacc, ← hseqs, hnext, hseq, List.range_succ, List.append_assoc, List.singleton_append]
      · rw [hbytes, acceptedPayloads, hseq, List.append_assoc]
        by_cases h0 : s.rx.expectedSeq ≠ 0
        · rw [if_pos h0, if_pos ⟨hacc, h0⟩]
        · rw [if_neg h0, if_neg fun h => h0 h.2, List.nil_append]
    case neg =>
      obtain ⟨hnext, ht⟩ := h.of_not_accepted hout hr hacc
      obtain ⟨rs, u, hall, hseqs, hbytes⟩ := ih ht
      rw [hcfg] at hseqs hbytes
      refine ⟨r :: rs, u, hcons hall, ?_, ?_⟩
      · rw [acceptedSeqs, if_neg hacc, ← hseqs, hnext]
      · rw [hbytes, acceptedPayloads, if_neg fun h => hacc h.1]

/-- Settles O25: a reset receiver has accepted no number and holds no byte. -/
theorem receiverDeliversInOrder : Obligations.ReceiverDeliversInOrder := by
  intro s raws _ hrx
  obtain ⟨rs, t, hall, hseqs, hbytes⟩ := Delivered.performAll_frames (hrx ▸ delivered_reset s.cfg) raws
  refine ⟨rs, t, hall, ?_, hbytes⟩
  rw [hrx] at hseqs
  exact hseqs

end Sys2Proof.Machine
end

section
/-! SUPPORT. Acknowledgments at the sender (42_sender.md R212 to R216): a datagram moves the window exactly when it is a
valid acknowledgment, what that does to the unit, and what becomes of every other datagram. -/

namespace Sys2Proof.Machine

section
variable {c : Config} {s t : State} {raw k : Bytes} {a : Nat}

/-! ## Which datagrams are valid acknowledgments -/

/-- The marker is shorter than an acknowledgment (R6). -/
theorem ne_termMarker_of_length (hc : c.wf) (hlen : raw.length = c.hdrBytes) : raw ≠ c.termMarker := by
  rintro rfl
  obtain ⟨_, _, _, _, _, _, _, hmarker, _⟩ := hc
  omega

theorem parseAck_of_validAck (hc : s.cfg.wf) (h : validAck s raw a) :
    parseAck s.cfg raw = .ack a (raw.drop s.cfg.seqBytes) := by
  obtain ⟨hlen, hseq, _⟩ := h
  rw [parseAck_of_length (ne_termMarker_of_length hc hlen) hlen, hseq]

/-- What passes the tests of R212 is a valid acknowledgment. -/
theorem validAck_of_parseAck (hp : parseAck s.cfg raw = .ack a k) (hbase : s.tx.windowBase ≤ a)
    (hnext : a < s.tx.nextSeq) (hk : expectedCk s a = .ok k) : validAck s raw a := by
  obtain ⟨_, _, _, hlen, hne⟩ := parseAck_ack hp
  obtain ⟨hseq, hfield⟩ := ParsedAck.ack.inj (hp.symm.trans (parseAck_of_length hne hlen))
  exact ⟨hlen, hseq.symm, hbase, hnext, hfield ▸ hk⟩

/-- A valid acknowledgment passes the tests of R212. -/
theorem execTxAck_of_validAck (hc : s.cfg.wf) (hst : s.tx.txState ≠ .idle) (h : validAck s raw a) :
    execTxAck raw s = advanceWindow s a := by
  have hp := parseAck_of_validAck hc h
  obtain ⟨_, _, hbase, hnext, hk⟩ := h
  exact execTxAck_of_expectedCk hst hp hbase hnext hk

/-! ## The window base -/

theorem windowBase_of_execTxNext (h : execTxNext s = .next t) : t.tx.windowBase = s.tx.windowBase := by
  rcases execTxNext_cases s with ⟨st, n, e, _⟩ | ⟨_, _, e⟩ | ⟨_, _, _, e⟩ <;> rw [e] at h
  case inl =>
    cases h
    rfl
  case inr.inl => rw [tx_of_sendFrame h]
  case inr.inr => rw [tx_of_sendFrame h]

theorem windowBase_of_execTxTimeout (h : execTxTimeout s = .next t) : t.tx.windowBase = s.tx.windowBase := by
  rcases execTxTimeout_cases s with ⟨_, e⟩ | ⟨_, _, e⟩ <;> rw [e] at h <;> cases h <;> rfl

theorem windowBase_of_execTxAck (h : execTxAck raw s = .next t) :
    t.tx.windowBase = s.tx.windowBase ∨
      ∃ a, s.tx.txState ≠ .idle ∧ validAck s raw a ∧ t.tx.windowBase = a + 1 := by
  rcases execTxAck_cases raw s with ⟨st, n, e, _⟩ | ⟨_, _, e⟩ | ⟨hst, a, k, hp, hbase, hnext, ⟨hk, e⟩ | ⟨f, _, e⟩⟩ <;>
    rw [e] at h
  case inl =>
    cases h
    exact .inl rfl
  case inr.inl =>
    cases h
    exact .inl rfl
  case inr.inr.inl => exact .inr ⟨a, hst, validAck_of_parseAck hp hbase hnext hk, (window_of_advanceWindow h).1⟩
  case inr.inr.inr => cases h

/-- Inside a session the window base stays, or the operation is the `TX_ACK` of a valid acknowledgment. -/
theorem windowBase_of_exec {i : Instr} (hi : i.changesSession = false) (h : exec i s = .next t) :
    t.tx.windowBase = s.tx.windowBase ∨
      ∃ raw a, i = .txAck raw ∧ s.tx.txState ≠ .idle ∧ validAck s raw a ∧ t.tx.windowBase = a + 1 := by
  rcases i.family_cases with hcodec | hrx | htx | ⟨n, rfl⟩ | rfl
  · exact .inl (by rw [exec_codec_frame hcodec h, State.withResponseOf_tx])
  · exact .inl (by rw [tx_of_exec_rx hrx h])
  · rcases Instr.tx_cases_of_not_changesSession htx hi with rfl | ⟨raw, rfl⟩ | rfl
    · exact .inl (windowBase_of_execTxNext h)
    · exact (windowBase_of_execTxAck h).imp_right fun ⟨a, hmove⟩ => ⟨raw, a, rfl, hmove⟩
    · exact .inl (windowBase_of_execTxTimeout h)
  · exact .inl (by rw [tx_of_execRdReg h])
  · cases hi

end

/-- Settles O35: every other operation of a session keeps the base, and so does a datagram that is not valid. -/
theorem onlyAValidAckMovesTheWindow : Obligations.OnlyAValidAckMovesTheWindow :=
  fun _ _ _ hi h hmoved => (windowBase_of_exec hi h).resolve_left hmoved

/-- Settles O33: the valid acknowledgment is accepted, and the frames still outstanding say which way the window's
advance ends. -/
theorem txAckAdvancesTheWindow : Obligations.TxAckAdvancesTheWindow := by
  intro s raw a ⟨hc, _, _, hsession⟩ hst hack u
  obtain ⟨⟨_, _, htotal, _⟩, _⟩ := hsession hst
  have hexec : exec (.txAck raw) s = advanceWindow s a := execTxAck_of_validAck hc hst hack
  refine ⟨fun hlast => ?done, fun hout => ?outstanding, fun hmore hnone => ?drained⟩
  case done => exact hexec.trans (if_pos hlast)
  case outstanding =>
    have hmore : a + 1 ≠ s.tx.txTotal := by omega
    exact hexec.trans ((if_neg hmore).trans (if_pos (decide_eq_true hout)))
  case drained =>
    have hnot : ¬ outstanding u = true := by
      simp only [u, outstanding, decide_eq_true_eq]
      omega
    exact hexec.trans ((if_neg hmore).trans (if_neg hnot))

/-- Settles O34: the tests of R212 in their order, each on the datagram's fields. -/
theorem txAckIgnoresWhatIsNotValid : Obligations.TxAckIgnoresWhatIsNotValid := by
  intro s raw
  refine ⟨fun hst => if_pos hst, fun hst hm => ?marker, fun hst hm hlen => ?neither, fun hst hm hlen hstale => ?stale,
    fun hst hm hlen hbase hunsent => ?unsent, fun e hst hm hlen hbase hsent hck hne => ?mismatch⟩
  case marker =>
    have hp : parseAck s.cfg raw = .term := if_pos hm
    simp only [exec, execTxAck, if_neg hst, hp, complete_eq]
  case neither =>
    have hp : parseAck s.cfg raw = .invalid := (if_neg hm).trans (if_neg hlen)
    simp only [exec, execTxAck, if_neg hst, hp, complete_eq]
  case stale => simp only [exec, execTxAck, if_neg hst, parseAck_of_length hm hlen, if_pos hstale, complete_eq]
  case unsent =>
    simp only [exec, execTxAck, if_neg hst, parseAck_of_length hm hlen, if_neg hbase.not_gt, if_pos hunsent,
      complete_eq]
  case mismatch =>
    simp only [exec, execTxAck, if_neg hst, parseAck_of_length hm hlen, if_neg hbase.not_gt, if_neg hsent.not_ge, hck,
      if_pos hne, complete_eq]

end Sys2Proof.Machine
end

section
/-! SUPPORT. The retransmission timer and the end of a session (42_sender.md R220 to R225): a timer expiry sets the send
cursor back to the base, and a valid acknowledgment carries both past its frame, so that their order does not matter. -/

namespace Sys2Proof.Machine

/-- Settles O36: the two outcomes exclude each other. -/
theorem txTimeoutRewindsTheCursor : Obligations.TxTimeoutRewindsTheCursor := by
  intro s
  rcases execTxTimeout_cases s with ⟨hspurious, e⟩ | ⟨hst, hout, e⟩
  · exact ⟨fun hst hout => absurd hspurious (by simp [hst, hout]), fun _ => e⟩
  · exact ⟨fun _ _ => e, fun hspurious => absurd hspurious (by simp [hst, hout])⟩

/-- Settles O38: the unit is the one after reset. -/
theorem txAbortEndsTheSession : Obligations.TxAbortEndsTheSession :=
  fun _ => ⟨TxUnit.reset, TxUnit.reset_atReset, rfl⟩

/-! ## An acknowledgment and a timer expiry in either order -/

/-- The unit with its send cursor back at the window base (R220). -/
def TxUnit.rewound (u : TxUnit) : TxUnit := { u with sendPtr := u.windowBase }

/-- The unit with every frame below `q` acknowledged (R215). -/
def TxUnit.advanced (u : TxUnit) (q : Nat) : TxUnit :=
  { u with
    windowBase := q
    sendPtr := max u.sendPtr q
    txState := if q = u.txTotal then .done else u.txState
    timerArmed := if q = u.txTotal ∨ u.nextSeq ≤ q then false else u.timerArmed }

theorem TxUnit.rewound_of_sendPtr_eq {u : TxUnit} (h : u.sendPtr = u.windowBase) : u.rewound = u := by
  cases u
  cases h
  rfl

/-- Once rewound after the acknowledgment, the unit is what it is when it was rewound before. -/
theorem TxUnit.rewound_advanced {u : TxUnit} {q : Nat} (h : u.windowBase ≤ q) :
    (u.advanced q).rewound = u.rewound.advanced q := by
  simp only [rewound, advanced, max_eq_right h]
  rfl

section
variable {s : State} {raw : Bytes} {a : Nat}

theorem advanceWindow_eq_advanced (s : State) (a : Nat) :
    ∃ r, advanceWindow s a = .next ((s.withTx (s.tx.advanced (a + 1))).respond r) := by
  rcases advanceWindow_cases s a with ⟨hlast, e⟩ | ⟨hmore, hout, e⟩ | ⟨hmore, hnone, e⟩
  · exact ⟨_, by rw [e, TxUnit.advanced, if_pos hlast, if_pos (.inl hlast)]⟩
  · exact ⟨_, by rw [e, TxUnit.advanced, if_neg hmore, if_neg (by omega)]⟩
  · exact ⟨_, by rw [e, TxUnit.advanced, if_neg hmore, if_pos (.inr hnone)]⟩

/-- A timer expiry rewinds the cursor, also where it is spurious because the cursor is there already. -/
theorem execTxTimeout_eq_rewound
    (h : (s.tx.txState = .active ∧ s.tx.windowBase ≠ s.tx.nextSeq) ∨ s.tx.sendPtr = s.tx.windowBase) :
    ∃ r, execTxTimeout s = .next ((s.withTx s.tx.rewound).respond r) := by
  rcases execTxTimeout_cases s with ⟨hspurious, e⟩ | ⟨_, _, e⟩
  · have hptr : s.tx.sendPtr = s.tx.windowBase := h.resolve_left (by tauto)
    exact ⟨_, by rw [e, TxUnit.rewound_of_sendPtr_eq hptr]; rfl⟩
  · exact ⟨_, e⟩

theorem performAll_pair {i j : Instr} {t u : State} {r q : Response} (h1 : exec i s = .next (t.respond r))
    (h2 : exec j (t.respond r) = .next (u.respond q)) : performAll [i, j] s = some ([r, q], u.respond q) := by
  simp [performAll, perform_of_response h1 rfl, perform_of_response h2 rfl]

/-- Rewinding does not touch what makes an acknowledgment valid (R212). -/
theorem validAck_rewound (h : validAck s raw a) (r : Response) :
    validAck ((s.withTx s.tx.rewound).respond r) raw a := by
  obtain ⟨hlen, hseq, hbase, hnext, hk⟩ := h
  have hpayload : payloadOf ((s.withTx s.tx.rewound).respond r) a = payloadOf s a :=
    payloadOf_congr rfl rfl rfl rfl rfl a
  refine ⟨hlen, hseq, hbase, hnext, ?_⟩
  rw [expectedCk, hpayload]
  exact hk

/-- After the acknowledgment of a sender with nothing to retransmit, the cursor is at the base or the timer's expiry
finds a frame outstanding. -/
theorem rewindable_advanced {u : TxUnit} (hst : u.txState = .active) (hptr : u.sendPtr = u.nextSeq)
    (hnext : a < u.nextSeq) (htotal : u.nextSeq ≤ u.txTotal) :
    ((u.advanced (a + 1)).txState = .active ∧ (u.advanced (a + 1)).windowBase ≠ (u.advanced (a + 1)).nextSeq) ∨
      (u.advanced (a + 1)).sendPtr = (u.advanced (a + 1)).windowBase := by
  by_cases hout : a + 1 < u.nextSeq
  · have hmore : a + 1 ≠ u.txTotal := by omega
    exact .inl ⟨(if_neg hmore).trans hst, hout.ne⟩
  · right
    change max u.sendPtr (a + 1) = a + 1
    omega

/-- The acknowledgment first: the cursor follows the base, or the expiry takes it back there. -/
theorem performAll_ack_timeout (hinv : Invariant s) (hst : s.tx.txState = .active) (hptr : s.tx.sendPtr = s.tx.nextSeq)
    (hack : validAck s raw a) :
    ∃ rs t, performAll [.txAck raw, .txTimeout] s = some (rs, t) ∧ t.rx = s.rx ∧
      t.tx = s.tx.rewound.advanced (a + 1) := by
  obtain ⟨hc, _, _, hsession⟩ := hinv
  have hidle : s.tx.txState ≠ .idle := by
    rw [hst]
    decide
  obtain ⟨⟨_, _, htotal, _⟩, _⟩ := hsession hidle
  have hfirst := execTxAck_of_validAck hc hidle hack
  obtain ⟨_, _, hbase, hnext, _⟩ := hack
  obtain ⟨r, hadvance⟩ := advanceWindow_eq_advanced s a
  obtain ⟨q, htimeout⟩ := execTxTimeout_eq_rewound (s := (s.withTx (s.tx.advanced (a + 1))).respond r)
    (rewindable_advanced hst hptr hnext htotal)
  exact ⟨_, _, performAll_pair (i := .txAck raw) (hfirst.trans hadvance) htimeout, rfl,
    TxUnit.rewound_advanced (by omega)⟩

/-- The expiry first: the acknowledgment is as valid as before, and takes the cursor past its frame. -/
theorem performAll_timeout_ack (hc : s.cfg.wf) (hst : s.tx.txState = .active) (hack : validAck s raw a) :
    ∃ rs t, performAll [.txTimeout, .txAck raw] s = some (rs, t) ∧ t.rx = s.rx ∧
      t.tx = s.tx.rewound.advanced (a + 1) := by
  have hout : s.tx.windowBase ≠ s.tx.nextSeq := by
    obtain ⟨_, _, hbase, hnext, _⟩ := hack
    omega
  have hidle : s.tx.rewound.txState ≠ .idle := by
    rw [TxUnit.rewound, hst]
    decide
  obtain ⟨r, htimeout⟩ := execTxTimeout_eq_rewound (.inl ⟨hst, hout⟩)
  have hsecond := execTxAck_of_validAck (s := (s.withTx s.tx.rewound).respond r) hc hidle (validAck_rewound hack r)
  obtain ⟨q, hadvance⟩ := advanceWindow_eq_advanced ((s.withTx s.tx.rewound).respond r) a
  exact ⟨_, _, performAll_pair (j := .txAck raw) htimeout (hsecond.trans hadvance), rfl, rfl⟩

/-- An armed timer stays armed exactly while a frame is outstanding past `q` (R215). -/
theorem TxUnit.advanced_timerArmed_iff {u : TxUnit} {q : Nat} (harmed : u.timerArmed = true)
    (htotal : u.nextSeq ≤ u.txTotal) : (u.advanced q).timerArmed = true ↔ q < u.nextSeq := by
  change (if q = u.txTotal ∨ u.nextSeq ≤ q then false else u.timerArmed) = true ↔ q < u.nextSeq
  rw [harmed]
  split
  · simp only [Bool.false_eq_true, false_iff]
    omega
  · simp only [true_iff]
    omega

end

/-- Settles O37: both orders end in the unit that is rewound and then advanced past `a`. -/
theorem ackAndTimeoutRaceEndsTheSame : Obligations.AckAndTimeoutRaceEndsTheSame := by
  intro s raw a hinv hst hptr hack
  obtain ⟨rs, t, hrun, hrx, htx⟩ := performAll_ack_timeout hinv hst hptr hack
  obtain ⟨rs', t', hrun', hrx', htx'⟩ := performAll_timeout_ack hinv.1 hst hack
  obtain ⟨_, _, hbase, hnext, _⟩ := hack
  obtain ⟨_, _, _, hsession⟩ := hinv
  obtain ⟨⟨_, _, htotal, _⟩, _, _, _, harmed, _⟩ := hsession (by rw [hst]; decide)
  refine ⟨rs, t, rs', t', hrun, hrun', ⟨hrx'.trans hrx.symm, htx'.trans htx.symm⟩, hrx, ?_⟩
  rw [htx]
  have hptr : max s.tx.windowBase (a + 1) = a + 1 := by omega
  exact ⟨rfl, hptr, rfl, TxUnit.advanced_timerArmed_iff (u := s.tx.rewound) (harmed.2 ⟨hst, by omega⟩) htotal⟩

end Sys2Proof.Machine
end

section
/-! SUPPORT. The start of a sending session and its frames (42_sender.md R205, R210): `TX_LOAD` by its operands, what
fixes the frames inside the session, and the five outcomes of `TX_NEXT`. -/

namespace Sys2Proof.Machine

/-! ## `TX_LOAD` -/

section
variable {s : State} {b : Bytes} {ps : Word}

theorem execTxLoad_of_illegal (hst : s.tx.txState ≠ .active)
    (h : ps.toNat = 0 ∨ s.cfg.maxPayload < ps.toNat ∨ s.cfg.txCap < b.length) :
    execTxLoad b ps s = .next (s.respond { status := .badParam }) := by
  have hillegal : (ps.toNat = 0 || decide (s.cfg.maxPayload < ps.toNat) || decide (s.cfg.txCap < b.length)) = true := by
    simpa [or_assoc] using h
  exact (if_neg hst).trans (if_pos hillegal)

/-- More frames than sequence numbers are refused with the status of illegal operands. -/
theorem execTxLoad_of_maxFrames_lt (hst : s.tx.txState ≠ .active)
    (htotal : s.cfg.maxFrames < totalFrames b.length ps.toNat) :
    execTxLoad b ps s = .next (s.respond { status := .badParam }) := by
  rw [execTxLoad, if_neg hst, if_pos htotal, ite_self, complete_eq]

theorem heldPacketSize_of_lt {len w : Nat} (h : w < 2 ^ 24) : heldPacketSize len w = w := if_pos (.inl h)

/-- Settles O27: the two refusals, and the session of legal operands, whose count is `totalFrames`. -/
theorem txLoadStartsTheSession : Obligations.TxLoadStartsTheSession := by
  intro s b ps
  refine ⟨fun hst => if_pos hst, fun hst h => execTxLoad_of_illegal hst h, fun n hst hpos hmax hcap hn => ?legal⟩
  have hcount : totalFrames b.length ps.toNat = 1 + n := by rw [totalFrames, ceilDiv_of_leastPieces hpos hn]
  refine ⟨fun htotal => execTxLoad_of_maxFrames_lt hst (hcount ▸ htotal), fun htotal hsmall => ?load⟩
  obtain ⟨m, hm, hload⟩ := execTxLoad_of_legal hst hpos hmax hcap (hcount.trans_le htotal)
  rw [heldPacketSize_of_lt hsmall, loadedUnit, hcount] at hload
  obtain ⟨_, _, hread⟩ := memWrite_ok hm
  exact ⟨m, fun k hk => by rw [hread, if_pos (by omega), Nat.sub_zero], hload⟩

end

/-! ## What fixes the frames stays inside the session (R211) -/

section
variable {s t : State}

theorem keepsFrames_of_sendFrame {u : TxUnit} {k : Nat} {st : Status} (hu : KeepsFrames s (s.withTx u))
    (h : sendFrame s u k st = .next t) : KeepsFrames s t := by
  rcases sendFrame_cases s u k st with ⟨d, _, e⟩ | ⟨f, _, e⟩ <;> rw [e] at h <;> cases h
  exact hu.trans ⟨rfl, rfl, rfl, rfl, rfl, rfl⟩

theorem keepsFrames_of_execTxNext (h : execTxNext s = .next t) : KeepsFrames s t := by
  rcases execTxNext_cases s with ⟨st, n, e, _⟩ | ⟨_, _, e⟩ | ⟨_, _, _, e⟩ <;> rw [e] at h
  case inl =>
    cases h
    exact ⟨rfl, rfl, rfl, rfl, rfl, rfl⟩
  all_goals
    refine keepsFrames_of_sendFrame ?_ h
    exact ⟨rfl, rfl, rfl, rfl, rfl, rfl⟩

theorem keepsFrames_of_advanceWindow {seq : Nat} (h : advanceWindow s seq = .next t) : KeepsFrames s t := by
  obtain ⟨r, e⟩ := advanceWindow_eq_advanced s seq
  rw [e] at h
  cases h
  exact ⟨rfl, rfl, rfl, rfl, rfl, rfl⟩

theorem keepsFrames_of_execTxAck {raw : Bytes} (h : execTxAck raw s = .next t) : KeepsFrames s t := by
  rcases execTxAck_cases raw s with ⟨st, n, e, _⟩ | ⟨_, _, e⟩ | ⟨_, seq, k, _, _, _, ⟨_, e⟩ | ⟨f, _, e⟩⟩ <;>
    rw [e] at h
  case inl =>
    cases h
    exact ⟨rfl, rfl, rfl, rfl, rfl, rfl⟩
  case inr.inl =>
    cases h
    exact ⟨rfl, rfl, rfl, rfl, rfl, rfl⟩
  case inr.inr.inl => exact keepsFrames_of_advanceWindow h
  case inr.inr.inr => cases h

theorem keepsFrames_of_execTxTimeout (h : execTxTimeout s = .next t) : KeepsFrames s t := by
  rcases execTxTimeout_cases s with ⟨_, e⟩ | ⟨_, _, e⟩ <;> rw [e] at h <;> cases h <;>
    exact ⟨rfl, rfl, rfl, rfl, rfl, rfl⟩

theorem keepsFrames_of_exec_tx {i : Instr} (htx : i.isTx = true) (hi : i.changesSession = false)
    (h : exec i s = .next t) : KeepsFrames s t := by
  rcases Instr.tx_cases_of_not_changesSession htx hi with rfl | ⟨raw, rfl⟩ | rfl
  · exact keepsFrames_of_execTxNext h
  · exact keepsFrames_of_execTxAck h
  · exact keepsFrames_of_execTxTimeout h

/-- The operations of the other units leave the TX unit as it was. -/
theorem tx_of_exec_of_not_isTx {i : Instr} (hi : i.isRx = true ∨ i.isCodec = true ∨ ∃ n, i = .rdReg n)
    (h : exec i s = .next t) : t.tx = s.tx := by
  rcases hi with hrx | hcodec | ⟨n, rfl⟩
  · exact tx_of_exec_rx hrx h
  · rw [exec_codec_frame hcodec h, State.withResponseOf_tx]
  · exact tx_of_execRdReg h

/-- Settles O31: the sender's operations of a session keep what fixes its frames, the others the whole unit. -/
theorem retransmissionIsTheSameFrame : Obligations.RetransmissionIsTheSameFrame := by
  intro i s t hi h k
  obtain ⟨hcfg, _⟩ := sameConnections_of_exec h
  have hkept (hother : i.isRx = true ∨ i.isCodec = true ∨ ∃ n, i = .rdReg n) : frameOf t k = frameOf s k :=
    frameOf_of_agree hcfg (tx_of_exec_of_not_isTx hother h) k
  rcases i.family_cases with hcodec | hrx | htx | hrd | rfl
  · exact hkept (.inr (.inl hcodec))
  · exact hkept (.inl hrx)
  · exact (keepsFrames_of_exec_tx htx hi h).frameOf_eq k
  · exact hkept (.inr (.inr hrd))
  · cases hi

end

/-! ## `TX_NEXT` -/

section
variable {s : State}

theorem TxInv.timerArmed_of_outstanding {c : Config} {u : TxUnit} (h : TxInv c u) (hst : u.txState = .active)
    (hout : u.windowBase < u.nextSeq) : u.timerArmed = true := by
  obtain ⟨_, hsession⟩ := h
  obtain ⟨_, _, _, _, harmed, _⟩ := hsession (by rw [hst]; decide)
  exact harmed.2 ⟨hst, hout⟩

/-- The cursors of an active session in their order, none past the send limit (R39, R41). -/
theorem cursors_of_active (hinv : Invariant s) (hst : s.tx.txState = .active) :
    s.tx.windowBase ≤ s.tx.sendPtr ∧ s.tx.sendPtr ≤ s.tx.nextSeq ∧ s.tx.nextSeq ≤ sendLimit s := by
  obtain ⟨_, _, _, hsession⟩ := hinv
  obtain ⟨⟨hbase, hptr, hnext, _⟩, hwindow, _⟩ := hsession (by rw [hst]; decide)
  unfold TxUnit.windowInv at hwindow
  unfold sendLimit
  omega

/-- In an active session the frames below the send limit exist. -/
theorem exists_frameOf {k : Nat} (hinv : Invariant s) (hst : s.tx.txState = .active) (hk : k < sendLimit s) :
    ∃ d, frameOf s k = .ok d := by
  have hlt : k < s.tx.txTotal := hk.trans_le (min_le_right _ _)
  obtain ⟨p, hframe, _⟩ := frameOfReadsItsChunk s k hinv (by rw [hst]; decide) hlt
  exact ⟨_, hframe⟩

theorem sendFrame_of_frameOf {u : TxUnit} {k : Nat} {st : Status} {d : Bytes} (hd : frameOf s k = .ok d) :
    sendFrame s u k st = .next ((s.withTx { u with timerArmed := true }).respond
      { status := st, rdata := k, wire := [d], timer := if s.tx.timerArmed then .none else .start }) := by
  rw [sendFrame, hd]
  rfl

/-- Behind the next sequence number `TX_NEXT` sends the frame at the cursor again; the timer is armed already. -/
theorem execTxNext_retransmits (hinv : Invariant s) (hst : s.tx.txState = .active)
    (hptr : s.tx.sendPtr < s.tx.nextSeq) :
    ∃ d, frameOf s s.tx.sendPtr = .ok d ∧
      execTxNext s = .next ((s.withTx { s.tx with sendPtr := s.tx.sendPtr + 1 }).respond
        { status := .retransmit, rdata := s.tx.sendPtr, wire := [d] }) := by
  obtain ⟨hbase, _, hlimit⟩ := cursors_of_active hinv hst
  obtain ⟨d, hd⟩ := exists_frameOf hinv hst (hptr.trans_le hlimit)
  have ⟨_, _, htx⟩ := hinv
  have harmed : s.tx.timerArmed = true := htx.timerArmed_of_outstanding hst (by omega)
  have hunit : { s.tx with sendPtr := s.tx.sendPtr + 1, timerArmed := true } =
      { s.tx with sendPtr := s.tx.sendPtr + 1 } := by rw [← harmed]
  refine ⟨d, hd, ?_⟩
  rw [execTxNext, if_neg (not_not_intro hst), if_pos hptr, sendFrame_of_frameOf hd, if_pos harmed, hunit]

/-- At the next sequence number it sends the next new frame, if the window has room for one. -/
theorem execTxNext_sendsNew (hinv : Invariant s) (hst : s.tx.txState = .active) (hptr : s.tx.sendPtr = s.tx.nextSeq)
    (hroom : s.tx.nextSeq < sendLimit s) :
    ∃ d, frameOf s s.tx.nextSeq = .ok d ∧
      execTxNext s = .next ((s.withTx s.tx.sentNext).respond
        { status := .ok, rdata := s.tx.nextSeq, wire := [d], timer := if s.tx.timerArmed then .none else .start }) := by
  obtain ⟨d, hd⟩ := exists_frameOf hinv hst hroom
  refine ⟨d, hd, ?_⟩
  rw [execTxNext, if_neg (not_not_intro hst), if_neg hptr.not_lt, if_pos hroom, sendFrame_of_frameOf hd]
  rfl

/-- With every frame below the send limit sent it says whether the window or the session has ended. -/
theorem execTxNext_emitsNothing (hst : s.tx.txState = .active) (hptr : s.tx.sendPtr = s.tx.nextSeq)
    (hlimit : sendLimit s ≤ s.tx.nextSeq) :
    execTxNext s = .next (s.respond
      { status := if s.tx.nextSeq < s.tx.txTotal then .windowFull else .allSent, rdata := s.tx.windowBase }) := by
  rw [execTxNext, if_neg (not_not_intro hst), if_neg hptr.not_lt, if_neg hlimit.not_gt]
  split <;> rfl

/-- Settles O30: with no session nothing is sent; in one, the cursor, the send limit and the total say which outcome it
is. -/
theorem txNextSendsOneFrame : Obligations.TxNextSendsOneFrame := by
  intro s hinv limit
  refine ⟨fun hst => if_pos hst, fun hst hptr => execTxNext_retransmits hinv hst hptr,
    fun hst hptr hroom => execTxNext_sendsNew hinv hst hptr hroom, fun hst hptr hlimit hmore => ?windowFull,
    fun hst hptr hall => ?allSent⟩
  case windowFull =>
    have hexec := execTxNext_emitsNothing hst hptr hlimit
    rwa [if_pos hmore] at hexec
  case allSent =>
    have hlimit : sendLimit s ≤ s.tx.nextSeq := hall ▸ min_le_right _ _
    have hexec := execTxNext_emitsNothing hst hptr hlimit
    rwa [if_neg hall.not_lt] at hexec

end

end Sys2Proof.Machine
end

section
/-! SUPPORT. `SEND_ALL` (30_encoding.md R115): each `TX_NEXT` that finds room below the send limit puts one frame on the
wire and moves the cursor by one, so the drain ends when the cursor is at the limit. -/

namespace Sys2Proof.Machine

section
variable {s t : State} {r : Response} {n : Nat}

theorem drain_succ_of_ends (h : execTxNext s = .next t) (hr : t.response = some r) (hends : endsDrain r.status = true) :
    drain (n + 1) s = some (r.wire, t) := by
  simp [drain, perform_of_response (i := .txNext) h hr, hends]

theorem drain_succ_of_goesOn (h : execTxNext s = .next t) (hr : t.response = some r)
    (hgoes : endsDrain r.status = false) : drain (n + 1) s = (drain n t).map fun x => (r.wire ++ x.1, x.2) := by
  simp [drain, perform_of_response (i := .txNext) h hr, hgoes]

/-- What one `TX_NEXT` of a drain has done: the frame at the cursor went out, and the cursor is past it. -/
structure SentAtCursor (s t : State) (d : Bytes) : Prop where
  frame : frameOf s s.tx.sendPtr = .ok d
  exec_eq : execTxNext s = .next t
  goesOn : ∃ r, t.response = some r ∧ r.wire = [d] ∧ endsDrain r.status = false
  txState : t.tx.txState = .active
  windowBase : t.tx.windowBase = s.tx.windowBase
  sendPtr : t.tx.sendPtr = s.tx.sendPtr + 1

/-- Below the send limit `TX_NEXT` sends the frame at the cursor, for the first time or again. -/
theorem exists_sentAtCursor (hinv : Invariant s) (hst : s.tx.txState = .active) (hroom : s.tx.sendPtr < sendLimit s) :
    ∃ t d, SentAtCursor s t d := by
  obtain ⟨_, hptr, _⟩ := cursors_of_active hinv hst
  rcases hptr.lt_or_eq with hptr | hptr
  · obtain ⟨d, hd, e⟩ := execTxNext_retransmits hinv hst hptr
    exact ⟨_, d, hd, e, ⟨_, rfl, rfl, rfl⟩, hst, rfl, rfl⟩
  · obtain ⟨d, hd, e⟩ := execTxNext_sendsNew hinv hst hptr (hptr ▸ hroom)
    exact ⟨_, d, hptr ▸ hd, e, ⟨_, rfl, rfl, rfl⟩, hst, rfl, congrArg (· + 1) hptr.symm⟩

theorem SentAtCursor.keepsFrames {d : Bytes} (h : SentAtCursor s t d) : KeepsFrames s t :=
  keepsFrames_of_execTxNext h.exec_eq

theorem SentAtCursor.sendLimit_eq {d : Bytes} (h : SentAtCursor s t d) : sendLimit t = sendLimit s := by
  rw [sendLimit, h.keepsFrames.cfg, h.keepsFrames.txTotal, h.windowBase, sendLimit]

theorem SentAtCursor.invariant {d : Bytes} (h : SentAtCursor s t d) (hinv : Invariant s) : Invariant t :=
  invariant_of_exec (i := .txNext) (by decide) hinv h.exec_eq

/-- The datagrams are the frames from the send cursor of `s` to its send limit, and `t` is `s` with both cursors at the
limit. -/
structure Drained (s : State) (ws : List Bytes) (t : State) : Prop where
  frames : ws.map .ok = (List.range' s.tx.sendPtr (sendLimit s - s.tx.sendPtr)).map (frameOf s)
  sendPtr : t.tx.sendPtr = sendLimit s
  nextSeq : t.tx.nextSeq = sendLimit s
  windowBase : t.tx.windowBase = s.tx.windowBase
  rx : t.rx = s.rx

/-- With the cursor at the send limit the first `TX_NEXT` ends the drain. -/
theorem exists_drained_of_spent (n : Nat) (hinv : Invariant s) (hst : s.tx.txState = .active)
    (hspent : sendLimit s ≤ s.tx.sendPtr) : ∃ ws t, drain (n + 1) s = some (ws, t) ∧ Drained s ws t := by
  obtain ⟨_, hptr, hlimit⟩ := cursors_of_active hinv hst
  have hptrSpent : s.tx.sendPtr = sendLimit s := by omega
  have hnextSpent : s.tx.nextSeq = sendLimit s := by omega
  have hexec := execTxNext_emitsNothing hst (hptrSpent.trans hnextSpent.symm) hnextSpent.ge
  have hends : endsDrain (if s.tx.nextSeq < s.tx.txTotal then .windowFull else .allSent) = true := by
    split <;> rfl
  refine ⟨_, _, drain_succ_of_ends hexec rfl hends, ?_, hptrSpent, hnextSpent, rfl, rfl⟩
  rw [Nat.sub_eq_zero_of_le hspent]
  rfl

/-- A frame sent and then the drain of what is left is the drain of the whole. -/
theorem SentAtCursor.drained {u : State} {d : Bytes} {ws : List Bytes} (h : SentAtCursor s t d)
    (hroom : s.tx.sendPtr < sendLimit s) (hrest : Drained t ws u) : Drained s (d :: ws) u := by
  obtain ⟨hframes, hptr, hnext, hbase, hrx⟩ := hrest
  rw [h.sendLimit_eq] at hframes hptr hnext
  refine ⟨?_, hptr, hnext, hbase.trans h.windowBase, hrx.trans h.keepsFrames.rx⟩
  have hcount : sendLimit s - s.tx.sendPtr = sendLimit s - (s.tx.sendPtr + 1) + 1 := by omega
  rw [hcount, List.range'_succ, List.map_cons, List.map_cons, h.frame, hframes, h.sendPtr,
    funext h.keepsFrames.frameOf_eq]

/-- One `TX_NEXT` more than there are frames up to the send limit drains them all. -/
theorem exists_drained (n : Nat) :
    ∀ {s : State}, Invariant s → s.tx.txState = .active → sendLimit s - s.tx.sendPtr ≤ n →
      ∃ ws t, drain (n + 1) s = some (ws, t) ∧ Drained s ws t := by
  induction n with
  | zero =>
    intro s hinv hst hn
    exact exists_drained_of_spent 0 hinv hst (by omega)
  | succ n ih =>
    intro s hinv hst hn
    by_cases hroom : s.tx.sendPtr < sendLimit s
    · obtain ⟨t, d, hsent⟩ := exists_sentAtCursor hinv hst hroom
      obtain ⟨r, hr, hwire, hgoes⟩ := hsent.goesOn
      obtain ⟨ws, u, hdrain, hdrained⟩ :=
        ih (hsent.invariant hinv) hsent.txState (by rw [hsent.sendLimit_eq, hsent.sendPtr]; omega)
      refine ⟨d :: ws, u, ?_, hsent.drained hroom hdrained⟩
      rw [drain_succ_of_goesOn hsent.exec_eq hr hgoes, hdrain, hwire]
      rfl
    · exact exists_drained_of_spent (n + 1) hinv hst (not_lt.1 hroom)

theorem Drained.length {ws : List Bytes} (h : Drained s ws t) : ws.length = sendLimit s - s.tx.sendPtr := by
  simpa using congrArg List.length h.frames

theorem Drained.getElem? {ws : List Bytes} (h : Drained s ws t) {j : Nat} (hj : j < ws.length) :
    ∃ d, ws[j]? = some d ∧ frameOf s (s.tx.sendPtr + j) = .ok d := by
  refine ⟨ws[j], List.getElem?_eq_getElem hj, ?_⟩
  have hframe := congrArg (·[j]?) h.frames
  simpa [hj, ← h.length] using hframe.symm

end

/-- Settles O32: the window bounds the frames up to the send limit, so the drain's bound is enough. -/
theorem sendAllEmitsTheWindowInOrder : Obligations.SendAllEmitsTheWindowInOrder := by
  intro s hinv hst limit
  obtain ⟨hbase, _, _⟩ := cursors_of_active hinv hst
  have hbound : sendLimit s - s.tx.sendPtr ≤ s.cfg.windowSize := by
    unfold sendLimit
    omega
  obtain ⟨ws, t, hdrain, hdrained⟩ := exists_drained s.cfg.windowSize hinv hst hbound
  exact ⟨ws, t, hdrain, hdrained.length, fun j hj => hdrained.getElem? hj, hdrained.sendPtr, hdrained.nextSeq,
    hdrained.windowBase, hdrained.rx⟩

end Sys2Proof.Machine
end

section
/-! SUPPORT. The sender's state (42_sender.md R226): what each operation answers in a state it does nothing in, and that
an acknowledgment ends the session exactly when the base has reached the total. -/

namespace Sys2Proof.Machine

section
variable {s t : State} {r : Response}

theorem ne_ok_of_writesNothing {st : Status} (h : st.writesNothing = true) : st ≠ .ok := by
  rintro rfl
  cases h

theorem txState_of_execTxLoad {b : Bytes} {ps : Word} (h : execTxLoad b ps s = .next t) (hr : t.response = some r) :
    (r.status ≠ .ok ∧ t.tx.txState = s.tx.txState ∧ (s.tx.txState = .active → r.status = .badState)) ∨
      (s.tx.txState ≠ .active ∧ r.status = .ok ∧ t.tx.txState = .active) := by
  rcases execTxLoad_cases b ps s with ⟨st, e, hst, hactive⟩ | ⟨hst, _, _, _, _, m, _, e⟩ <;> rw [e] at h <;> cases h <;>
    cases hr
  case inl => exact .inl ⟨ne_ok_of_writesNothing hst, rfl, hactive⟩
  case inr => exact .inr ⟨hst, rfl, rfl⟩

theorem txState_of_execTxNext (h : execTxNext s = .next t) (hr : t.response = some r) :
    t.tx.txState = s.tx.txState ∧ (s.tx.txState ≠ .active → r.status = .badState) := by
  rcases execTxNext_cases s with ⟨st, n, e, _, hst⟩ | ⟨hst, _, e⟩ | ⟨hst, _, _, e⟩ <;> rw [e] at h
  case inl =>
    cases h
    cases hr
    rcases hst with ⟨_, hbad, _⟩ | ⟨hst, _⟩
    · exact ⟨rfl, fun _ => hbad⟩
    · exact ⟨rfl, fun hne => absurd hst hne⟩
  all_goals
    rw [tx_of_sendFrame h]
    exact ⟨rfl, fun hne => absurd hst hne⟩

theorem txState_of_execTxTimeout (h : execTxTimeout s = .next t) (hr : t.response = some r) :
    t.tx.txState = s.tx.txState ∧ (s.tx.txState ≠ .active → r.status = .spuriousTimeout) := by
  rcases execTxTimeout_cases s with ⟨_, e⟩ | ⟨hst, _, e⟩ <;> rw [e] at h <;> cases h <;> cases hr
  case inl => exact ⟨rfl, fun _ => rfl⟩
  case inr => exact ⟨rfl, fun hne => absurd hst hne⟩

/-- With no session `TX_ACK` is refused. -/
theorem txState_of_execTxAck_idle {raw : Bytes} (hst : s.tx.txState = .idle) (h : execTxAck raw s = .next t)
    (hr : t.response = some r) : r.status = .badState ∧ t.tx.txState = .idle := by
  rw [execTxAck, if_pos hst] at h
  cases h
  cases hr
  exact ⟨rfl, hst⟩

/-- `TX_ACK` keeps a session one. -/
theorem execTxAck_ne_idle {raw : Bytes} (hst : s.tx.txState ≠ .idle) (h : execTxAck raw s = .next t) :
    t.tx.txState ≠ .idle := by
  rcases execTxAck_cases raw s with ⟨st, n, e, _⟩ | ⟨_, _, e⟩ | ⟨_, a, k, _, _, _, ⟨_, e⟩ | ⟨f, _, e⟩⟩ <;> rw [e] at h
  case inl =>
    cases h
    exact hst
  case inr.inl =>
    cases h
    exact hst
  case inr.inr.inl =>
    obtain ⟨r, e⟩ := advanceWindow_eq_advanced s a
    rw [e] at h
    cases h
    change (if a + 1 = s.tx.txTotal then TxState.done else s.tx.txState) ≠ .idle
    split
    · decide
    · exact hst
  case inr.inr.inr => cases h

/-- A session is done when its base has reached the total, and active before (R39 (d)). -/
theorem TxInv.txState_eq {c : Config} {u : TxUnit} (h : TxInv c u) (hst : u.txState ≠ .idle) :
    u.txState = if u.windowBase = u.txTotal then .done else .active := by
  obtain ⟨_, hsession⟩ := h
  obtain ⟨_, _, _, hdone, _⟩ := hsession hst
  split
  · rename_i hall
    exact hdone.2 hall
  · rename_i hmore
    cases hu : u.txState with
    | idle => exact absurd hu hst
    | active => rfl
    | done => exact absurd (hdone.1 hu) hmore

/-- The base of a session that is done stays at the total: it never goes back, and never passes the total. -/
theorem windowBase_of_execTxAck_done {raw : Bytes} (hinv : TxInv s.cfg s.tx) (hst : s.tx.txState = .done)
    (h : execTxAck raw s = .next t) : t.tx.windowBase = t.tx.txTotal := by
  have hne : s.tx.txState ≠ .idle := by
    rw [hst]
    decide
  have ⟨_, hsession⟩ := hinv
  obtain ⟨_, _, _, hdone, _⟩ := hsession hne
  obtain ⟨_, hsession'⟩ := txInv_of_execTxAck hinv h
  obtain ⟨⟨_, _, _, _⟩, _⟩ := hsession' (execTxAck_ne_idle hne h)
  have hall := hdone.1 hst
  have htotal := (keepsFrames_of_execTxAck h).txTotal
  obtain ⟨hforward, _⟩ := windowLe_of_execTxAck h
  omega

end

/-- Settles O53: each of the sender's operations by its outcomes, the two resets, and the other units' operations. -/
theorem txStateFollowsItsTable : Obligations.TxStateFollowsItsTable := by
  intro i s t r ⟨_, _, hinv⟩ h hr
  refine ⟨?load, ?ack, ?next, ?timeout, ?reset, ?other⟩
  case load =>
    rintro b ps rfl
    rcases txState_of_execTxLoad h hr with ⟨hne, hkept, hactive⟩ | ⟨hst, hok, hstarted⟩
    · exact ⟨fun _ hok => absurd hok hne, fun _ _ => hkept, fun hst => ⟨hactive hst, hkept.trans hst⟩⟩
    · exact ⟨fun _ _ => hstarted, fun _ hne => absurd hok hne, fun hactive => absurd hactive hst⟩
  case ack =>
    rintro raw rfl
    have hstate (hst : s.tx.txState ≠ .idle) := (txInv_of_execTxAck hinv h).txState_eq (execTxAck_ne_idle hst h)
    refine ⟨fun hst hall => ?_, fun hst hmore => ?_, fun hst => ?_, fun hst => txState_of_execTxAck_idle hst h hr⟩
    · exact (hstate (by rw [hst]; decide)).trans (if_pos hall)
    · exact (hstate (by rw [hst]; decide)).trans (if_neg hmore)
    · exact (hstate (by rw [hst]; decide)).trans (if_pos (windowBase_of_execTxAck_done hinv hst h))
  case next =>
    rintro rfl
    exact txState_of_execTxNext h hr
  case timeout =>
    rintro rfl
    exact txState_of_execTxTimeout h hr
  case reset =>
    rintro (rfl | rfl) <;> cases h <;> rfl
  case other => exact fun hother => congrArg TxUnit.txState (tx_of_exec_of_not_isTx hother h)

end Sys2Proof.Machine
end

section
/-! SUPPORT. The system operations (42_sender.md R230, R232): `RD_REG` of a number of the map answers what its register
holds where that fits the bits of R43, and `RESET` is the two units' resets. -/

namespace Sys2Proof.Machine

theorem execRdReg_number (s : State) (g : Register) :
    exec (.rdReg (BitVec.ofNat 24 g.number)) s = .next (s.respond { status := .ok, rdata := g.value s }) := by
  have hnumber : (BitVec.ofNat 24 g.number).toNat = g.number := by cases g <;> rfl
  simp only [exec, execRdReg, hnumber, registerOf_number, complete_eq]

/-- Settles O42: a register's value fits its width, whatever it holds. -/
theorem rdRegAlwaysAnswersWithinItsWidth : Obligations.RdRegAlwaysAnswersWithinItsWidth :=
  fun s g => ⟨g.value s, g.value_lt s, execRdReg_number s g⟩

/-! ## What the registers hold fits the map (R43) -/

section
variable {c : Config} {s : State}

theorem lt_two_pow_seqW_of_le_maxFrames {n : Nat} (h : n ≤ c.maxFrames) : n < 2 ^ c.seqW := by
  have hpos : 0 < 2 ^ c.seqW := Nat.two_pow_pos _
  unfold Config.maxFrames at h
  omega

/-- Two flags in bits 0 and 1. -/
theorem flags_lt (p q : Bool) : p.toNat + 2 * q.toNat < 2 ^ 2 := by
  have hp := p.toNat_le
  have hq := q.toNat_le
  omega

theorem rxCapShown_lt (cap : Option Nat) : rxCapShown cap < 2 ^ 32 := by
  unfold rxCapShown
  split
  · decide
  · split
    · assumption
    · decide

/-- The frame count, the length and the packet size are within their ranges, with or without a session (R31 to R35). -/
theorem TxInv.sizes_lt {u : TxUnit} (h : TxInv c u) (hc : c.wf) :
    u.txTotal ≤ c.maxFrames ∧ u.txLen < 2 ^ 32 ∧ u.packetSize < 2 ^ 32 := by
  obtain ⟨hidle, hsession⟩ := h
  by_cases hst : u.txState = .idle
  · rw [hidle hst]
    exact ⟨Nat.zero_le _, Nat.two_pow_pos _, Nat.two_pow_pos _⟩
  · obtain ⟨_, _, _, _, _, hcap24, _⟩ := hc
    obtain ⟨⟨_, _, _, htotal⟩, _, _, _, _, _, _, hps, hlen, _⟩ := hsession hst
    exact ⟨htotal, by omega, by omega⟩

/-- The checksum of the last acknowledgment as a number fits `CK_W` bits (R26). -/
theorem ube_lt_two_pow_ckW {b : Bytes} (h : b.length = c.ckBytes) : ube b < 2 ^ c.ckW := by
  have hbytes : 256 ^ c.ckBytes = 2 ^ c.ckW := by
    rw [Config.ckW, pow_mul]
    norm_num
  exact hbytes ▸ ube_lt_of_length h

/-- Under the invariant every register fits its bits, but for those whose range the parameters leave open. -/
theorem Register.content_lt (hinv : Invariant s) (hlen : s.rx.rxLen < 2 ^ 32) (hck : s.cfg.ckBytes < 2 ^ 8)
    (hpayload : s.cfg.maxPayload < 2 ^ 32) (hwindow : s.cfg.windowSize < 2 ^ 32) (g : Register) :
    g.content s < 2 ^ g.width s.cfg := by
  obtain ⟨hc, hrx, htx⟩ := hinv
  have hexpected := hrx.expectedSeq_le
  obtain ⟨_, _, _, _, _, _, hrxTotal, hackSeq, hackCk, _⟩ := hrx
  obtain ⟨hbase, hptr, hnext⟩ := htx.cursors_le
  obtain ⟨htxTotal, htxLen, hps⟩ := htx.sizes_lt hc
  obtain ⟨_, hseqBytes, _, _, _, hcap, _⟩ := hc
  cases g with
  | rxState => exact s.rx.rxState.code.isLt
  | rxExpectedSeq => exact lt_two_pow_seqW_of_le_maxFrames hexpected
  | rxTotal => exact lt_two_pow_seqW_of_le_maxFrames hrxTotal
  | rxLen => exact hlen
  | rxFlags | txFlags => exact flags_lt _ _
  | rxLastAckSeq => exact lt_two_pow_seqW_of_le_maxFrames hackSeq
  | rxLastAckCk => exact ube_lt_two_pow_ckW hackCk
  | txState => exact s.tx.txState.code.isLt
  | txTotal => exact lt_two_pow_seqW_of_le_maxFrames htxTotal
  | txWindowBase => exact lt_two_pow_seqW_of_le_maxFrames hbase
  | txNextSeq => exact lt_two_pow_seqW_of_le_maxFrames hnext
  | txSendPtr => exact lt_two_pow_seqW_of_le_maxFrames hptr
  | txLen => exact htxLen
  | txPacketSize => exact hps
  | cfgSeqBytes =>
    change s.cfg.seqBytes < 2 ^ 8
    omega
  | cfgCkBytes => exact hck
  | cfgMaxPayload => exact hpayload
  | cfgWindowSize => exact hwindow
  | cfgTxCap =>
    change s.cfg.txCap < 2 ^ 32
    omega
  | cfgRxCap => exact rxCapShown_lt _

end

/-! ## `RD_REG` of every number -/

theorem execRdReg_of_content_lt {s : State} {g : Register} (h : g.content s < 2 ^ g.width s.cfg) {v : Nat}
    (hv : g.content s = v) :
    exec (.rdReg (BitVec.ofNat 24 g.number)) s = .next (s.respond { status := .ok, rdata := v }) := by
  rw [execRdReg_number, Register.value, if_pos h, hv]

/-- A number that is not of the map names no register. -/
theorem registerOf_eq_none {n : Nat} (h : n ∉ Register.all.map Register.number) : registerOf n = none := by
  refine List.find?_eq_none.2 fun g hg hn => h ?_
  rw [← beq_iff_eq.1 hn]
  exact List.mem_map_of_mem hg

/-- Settles O41: each number of the map in the order of R43, and a number outside it. -/
theorem rdRegReadsTheMap : Obligations.RdRegReadsTheMap := by
  refine ⟨fun s hinv hlen hck hpayload hwindow => ?inside, fun s n hn => ?outside⟩
  case inside =>
    have answer (g : Register) {v : Nat} (hv : g.content s = v) :=
      execRdReg_of_content_lt (Register.content_lt hinv hlen hck hpayload hwindow g) hv
    have hbits (p q : Bool) : p.toNat + 2 * q.toNat = (if p then 1 else 0) + (if q then 2 else 0) := by
      cases p <;> cases q <;> rfl
    simp only [List.forall_mem_cons]
    refine ⟨answer .rxState ?rxState, answer .rxExpectedSeq rfl, answer .rxTotal rfl, answer .rxLen rfl,
      answer .rxFlags (hbits _ _), answer .rxLastAckSeq rfl, answer .rxLastAckCk rfl, answer .txState ?txState,
      answer .txTotal rfl, answer .txWindowBase rfl, answer .txNextSeq rfl, answer .txSendPtr rfl, answer .txLen rfl,
      answer .txPacketSize rfl, answer .txFlags (hbits _ _), answer .cfgSeqBytes rfl, answer .cfgCkBytes rfl,
      answer .cfgMaxPayload rfl, answer .cfgWindowSize rfl, answer .cfgTxCap rfl, answer .cfgRxCap rfl,
      List.forall_mem_nil _⟩
    case rxState =>
      rw [Register.content]
      cases s.rx.rxState <;> rfl
    case txState =>
      rw [Register.content]
      cases s.tx.txState <;> rfl
  case outside =>
    have hnone : registerOf n.toNat = none := registerOf_eq_none hn
    simp only [exec, execRdReg, hnone, complete_eq]

/-! ## `RESET` -/

/-- Settles O43: the receiver's reset leaves the sender's timer for `TX_ABORT` to stop. -/
theorem resetIsRxResetThenTxAbort : Obligations.ResetIsRxResetThenTxAbort :=
  fun s => ⟨_, _, rfl, rfl, rfl, RxUnit.reset_atReset s.cfg, TxUnit.reset_atReset, ⟨rfl, rfl, rfl⟩, rfl⟩

end Sys2Proof.Machine
end

section
/-! SUPPORT. A step with part of a command presented (log entry 3): the decoder finds nothing, or a first word whose
command is not yet complete. -/

namespace Sys2Proof

/-- With a word or a byte of its format still missing, a command whose first word selects `op` is incomplete. -/
theorem decodeOperands_of_missing {op : Opcode} {a : BitVec 24} {ws : List Word} {din : Bytes}
    (h : takeWord1 op.format ws = none ∨ takeDin (op.format.dinLen a) din = none) :
    decodeOperands op a ws din = .incomplete := by
  unfold decodeOperands
  split
  · rfl
  · rename_i hw
    rcases h with hnone | hnone
    · rw [hw] at hnone
      cases hnone
    · rw [hnone]

/-- An operation has at most one word after the first; where it is cut off, the format still asks for it. -/
theorem takeWord1_of_missing {i : Instr} {m : Nat} (h : m < i.word1.length) :
    takeWord1 i.op.format (i.word1.take m) = none := by
  obtain ⟨hwords, _⟩ := formatShape i
  rw [encode, List.length_cons] at hwords
  cases hf : i.op.format.hasWord1 with
  | false =>
    rw [hf, if_neg Bool.false_ne_true] at hwords
    omega
  | true =>
    rw [hf, if_pos rfl] at hwords
    obtain rfl : m = 0 := by omega
    exact if_pos hf

theorem takeDin_of_short {n : Nat} {din : Bytes} (h : din.length < n) : takeDin n din = none :=
  if_neg h.not_ge

/-- Fewer words or fewer bytes than an operation's encoding has decode to nothing, or to a command still being
presented. -/
theorem decode_of_part {i : Instr} {m n : Nat} (hi : i.wf)
    (h : m < (encode i).words.length ∨ n < (encode i).din.length) :
    decode ⟨(encode i).words.take m, (encode i).din.take n⟩ = .idle ∨
      decode ⟨(encode i).words.take m, (encode i).din.take n⟩ = .incomplete := by
  cases m with
  | zero => exact .inl rfl
  | succ m =>
    right
    obtain ⟨_, _, hdin, _⟩ := formatShape i
    have hlen : i.din.length = i.op.format.dinLen i.fieldA := hdin hi
    have hdecode : decode ⟨(encode i).words.take (m + 1), (encode i).din.take n⟩ =
        decodeOperands i.op i.fieldA (i.word1.take m) (i.din.take n) := by
      simp only [decode, encode, List.take_succ_cons, selectOp_word0, fieldA_word0]
    rw [hdecode]
    refine decodeOperands_of_missing (h.imp (fun hm => ?word) fun hn => ?bytes)
    case word => exact takeWord1_of_missing (Nat.lt_of_succ_lt_succ hm)
    case bytes =>
      refine takeDin_of_short ?_
      rw [← hlen, List.length_take]
      exact (min_le_left _ _).trans_lt hn

end Sys2Proof

namespace Sys2Proof.Machine

theorem step_of_decode_waiting {s : State} (hr : s.resetIn = false)
    (hd : decode s.port = .idle ∨ decode s.port = .incomplete) : step s = .next s := by
  rcases hd with hd | hd <;> simp [step, hr, hd]

/-- Settles O7: part of a command decodes to no operation, and the step waits. -/
theorem stepWaitsForAWholeCommand : Obligations.StepWaitsForAWholeCommand :=
  fun _ _ _ _ hi hr hpart hp => step_of_decode_waiting hr (hp ▸ decode_of_part hi hpart)

end Sys2Proof.Machine
end

section
/-! SUPPORT. How an operation ends (60_exceptions.md R251, R257, R262): what it leaves of the two units goes with its
status and its `TIMER` field, said once for all operations. -/

namespace Sys2Proof.Machine

/-- A session has frames sent and not acknowledged. -/
abbrev TxUnit.awaitsAck (u : TxUnit) : Prop := u.txState ≠ .idle ∧ u.windowBase ≠ u.nextSeq

/-- The statuses of the operations that do what they were asked to. -/
abbrev Status.succeeds (st : Status) : Prop := st = .ok ∨ st = .done ∨ st = .retransmit

/-- The ways an operation performed in state `s` can end: the two units it leaves, its status and its `TIMER` field. -/
inductive Ending (s : State) : RxUnit → TxUnit → Status → TimerCmd → Prop
  /-- Nothing is written. -/
  | unchanged {st : Status} (hst : st = .ok ∨ st = .termSeen ∨ st.writesNothing = true) : Ending s s.rx s.tx st .none
  /-- The receiver takes a frame in, or starts again (R168, R170, R175). -/
  | received {u : RxUnit} {st : Status} (hst : st.succeeds) : Ending s u s.tx st .none
  /-- A data frame finds no room (R169). -/
  | overflowed : Ending s { s.rx with overflow := true } s.tx .overflow .none
  /-- A sending session starts (R205). -/
  | loaded {v : TxUnit} (hst : s.tx.txState ≠ .active) (hv : v.timerArmed = false) : Ending s s.rx v .ok .none
  /-- A frame goes on the wire (R210). -/
  | sent {v : TxUnit} {st : Status} (hst : st.succeeds) (hv : v.timerArmed = true) :
      Ending s s.rx v st (if s.tx.timerArmed then .none else .start)
  /-- The terminating marker is noted (R213). -/
  | marked : Ending s s.rx { s.tx with termSeen := true } .termSeen .none
  /-- The window moves and frames are still outstanding (R215). -/
  | advanced {v : TxUnit} (hout : s.tx.awaitsAck) (hv : v.timerArmed = s.tx.timerArmed) : Ending s s.rx v .ok .restart
  /-- The window moves past the last outstanding frame (R215). -/
  | drained {v : TxUnit} {st : Status} (hst : st.succeeds) (hout : s.tx.awaitsAck) (hv : v.timerArmed = false) :
      Ending s s.rx v st .stop
  /-- The send cursor goes back to the window base (R220). -/
  | rewound (hout : s.tx.awaitsAck) : Ending s s.rx { s.tx with sendPtr := s.tx.windowBase } .timeout .restart
  /-- The sending session is given up, by `TX_ABORT` or `RESET` (R225, R232). -/
  | aborted {u : RxUnit} : Ending s u TxUnit.reset .ok (stopIfArmed s.tx)

/-- The state `t` holds a response that goes with the units it has. -/
abbrev EndsIn (s t : State) : Prop := ∃ r, t.response = some r ∧ Ending s t.rx t.tx r.status r.timer

/-! ## The ending of each operation -/

section
variable {s t : State}

theorem endsIn_of_exec_codec {i : Instr} (hi : i.isCodec = true) (h : exec i s = .next t) : EndsIn s t := by
  obtain ⟨st, n, dout, wire, e, hst, _⟩ := exec_codec_cases i s hi
  rw [e] at h
  cases h
  exact ⟨_, rfl, .unchanged hst⟩

theorem endsIn_of_execRxFrame {raw : Bytes} (h : exec (.rxFrame raw) s = .next t) : EndsIn s t := by
  cases rxOutcome_of_exec h with
  | rejected hst => exact ⟨_, rfl, .unchanged (.inr (.inr hst))⟩
  | overflowed => exact ⟨_, rfl, .overflowed⟩
  | @acknowledged u =>
    refine ⟨_, rfl, ?_⟩
    have htimer : (acceptResponse s.cfg u (ckField s.cfg raw)).timer = .none := by
      unfold acceptResponse
      split <;> rfl
    rw [htimer]
    exact .received ((acceptResponse_accepted _ _ _).imp_right .inl)

theorem endsIn_of_execRxRead {offset : Word} {n : BitVec 24} (h : execRxRead offset n s = .next t) : EndsIn s t := by
  rcases execRxRead_cases offset n s with ⟨st, e, hst⟩ | ⟨_, _, ⟨bs, _, e⟩ | ⟨f, _, e⟩⟩ <;> rw [e] at h <;> cases h
  · exact ⟨_, rfl, .unchanged (.inr (.inr hst))⟩
  · exact ⟨_, rfl, .unchanged (.inl rfl)⟩

theorem endsIn_of_execTxLoad {b : Bytes} {ps : Word} (h : execTxLoad b ps s = .next t) : EndsIn s t := by
  rcases execTxLoad_cases b ps s with ⟨st, e, hst, _⟩ | ⟨hst, _, _, _, _, m, _, e⟩ <;> rw [e] at h <;> cases h
  · exact ⟨_, rfl, .unchanged (.inr (.inr hst))⟩
  · exact ⟨_, rfl, .loaded hst rfl⟩

theorem endsIn_of_sendFrame {v : TxUnit} {k : Nat} {st : Status} (hst : st.succeeds)
    (h : sendFrame s v k st = .next t) : EndsIn s t := by
  rcases sendFrame_cases s v k st with ⟨d, _, e⟩ | ⟨f, _, e⟩ <;> rw [e] at h <;> cases h
  exact ⟨_, rfl, .sent hst rfl⟩

theorem endsIn_of_execTxNext (h : execTxNext s = .next t) : EndsIn s t := by
  rcases execTxNext_cases s with ⟨st, n, e, hst, _⟩ | ⟨_, _, e⟩ | ⟨_, _, _, e⟩ <;> rw [e] at h
  · cases h
    exact ⟨_, rfl, .unchanged (.inr (.inr hst))⟩
  · exact endsIn_of_sendFrame (.inr (.inr rfl)) h
  · exact endsIn_of_sendFrame (.inl rfl) h

theorem endsIn_of_advanceWindow {seq : Nat} (hout : s.tx.awaitsAck) (h : advanceWindow s seq = .next t) :
    EndsIn s t := by
  rcases advanceWindow_cases s seq with ⟨_, e⟩ | ⟨_, _, e⟩ | ⟨_, _, e⟩ <;> rw [e] at h <;> cases h
  · exact ⟨_, rfl, .drained (.inr (.inl rfl)) hout rfl⟩
  · exact ⟨_, rfl, .advanced hout rfl⟩
  · exact ⟨_, rfl, .drained (.inl rfl) hout rfl⟩

theorem endsIn_of_execTxAck {raw : Bytes} (h : execTxAck raw s = .next t) : EndsIn s t := by
  rcases execTxAck_cases raw s with ⟨st, n, e, hst, _⟩ | ⟨_, _, e⟩ |
    ⟨hst, seq, k, _, hbase, hseq, ⟨_, e⟩ | ⟨f, _, e⟩⟩ <;> rw [e] at h
  case inl =>
    cases h
    exact ⟨_, rfl, .unchanged (.inr (.inr hst))⟩
  case inr.inl =>
    cases h
    exact ⟨_, rfl, .marked⟩
  case inr.inr.inl => exact endsIn_of_advanceWindow ⟨hst, by omega⟩ h
  case inr.inr.inr => cases h

theorem endsIn_of_execTxTimeout (h : execTxTimeout s = .next t) : EndsIn s t := by
  rcases execTxTimeout_cases s with ⟨_, e⟩ | ⟨hst, hout, e⟩ <;> rw [e] at h <;> cases h
  · exact ⟨_, rfl, .unchanged (.inr (.inr rfl))⟩
  · exact ⟨_, rfl, .rewound ⟨by rw [hst]; decide, hout⟩⟩

theorem endsIn_of_execRdReg {n : BitVec 24} (h : execRdReg n s = .next t) : EndsIn s t := by
  rcases execRdReg_cases n s with ⟨_, e⟩ | ⟨g, _, e⟩ <;> rw [e] at h <;> cases h
  · exact ⟨_, rfl, .unchanged (.inr (.inr rfl))⟩
  · exact ⟨_, rfl, .unchanged (.inl rfl)⟩

/-- Every operation that completes ends in one of the ways `Ending` lists. -/
theorem endsIn_of_exec {i : Instr} (h : exec i s = .next t) : EndsIn s t := by
  cases i
  case rxFrame raw => exact endsIn_of_execRxFrame h
  case rxRead offset n => exact endsIn_of_execRxRead h
  case rxReset =>
    cases h
    exact ⟨_, rfl, .received (.inl rfl)⟩
  case txLoad b ps => exact endsIn_of_execTxLoad h
  case txNext => exact endsIn_of_execTxNext h
  case txAck raw => exact endsIn_of_execTxAck h
  case txTimeout => exact endsIn_of_execTxTimeout h
  case txAbort | reset =>
    cases h
    exact ⟨_, rfl, .aborted⟩
  case rdReg n => exact endsIn_of_execRdReg h
  all_goals exact endsIn_of_exec_codec rfl h

theorem ending_of_exec {i : Instr} {r : Response} (h : exec i s = .next t) (hr : t.response = some r) :
    Ending s t.rx t.tx r.status r.timer := by
  obtain ⟨r', hr', hend⟩ := endsIn_of_exec h
  obtain rfl : r' = r := Option.some.inj (hr'.symm.trans hr)
  exact hend

end

/-! ## What an ending tells -/

section
variable {s : State} {u : RxUnit} {v : TxUnit} {st : Status} {timer : TimerCmd}

/-- What the units `u` and `v` left with status `st` may differ in from those of `s` (R251, column "writes state"). -/
abbrev WritesByStatus (s : State) (u : RxUnit) (v : TxUnit) (st : Status) : Prop :=
  (st.writesNothing = true → u = s.rx ∧ v = s.tx) ∧
  (st = .timeout → u = s.rx ∧ v = { s.tx with sendPtr := v.sendPtr }) ∧
  (st = .termSeen → u = s.rx ∧ v = { s.tx with termSeen := v.termSeen }) ∧
  (st = .overflow → v = s.tx ∧ u = { s.rx with overflow := true })

/-- An operation that succeeds has a status that does not restrict what it writes. -/
theorem writesByStatus_of_succeeds (h : st.succeeds) : WritesByStatus s u v st := by
  rcases h with rfl | rfl | rfl <;> exact ⟨nofun, nofun, nofun, nofun⟩

theorem Ending.writesByStatus (h : Ending s u v st timer) : WritesByStatus s u v st := by
  cases h with
  | unchanged hst =>
    refine ⟨fun _ => ⟨rfl, rfl⟩, fun _ => ⟨rfl, rfl⟩, fun _ => ⟨rfl, rfl⟩, ?_⟩
    rintro rfl
    rcases hst with h | h | h <;> cases h
  | received hst => exact writesByStatus_of_succeeds hst
  | overflowed => exact ⟨nofun, nofun, nofun, fun _ => ⟨rfl, rfl⟩⟩
  | loaded => exact writesByStatus_of_succeeds (.inl rfl)
  | sent hst => exact writesByStatus_of_succeeds hst
  | marked => exact ⟨nofun, nofun, fun _ => ⟨rfl, rfl⟩, nofun⟩
  | advanced => exact writesByStatus_of_succeeds (.inl rfl)
  | drained hst => exact writesByStatus_of_succeeds hst
  | rewound => exact ⟨nofun, fun _ => ⟨rfl, rfl⟩, nofun, nofun⟩
  | aborted => exact writesByStatus_of_succeeds (.inl rfl)

/-- An operation succeeds, writes nothing, or answers one of the three statuses that mark one register. -/
theorem Ending.status_cases (h : Ending s u v st timer) :
    st.succeeds ∨ st.writesNothing = true ∨ st = .timeout ∨ st = .termSeen ∨ st = .overflow := by
  cases h with
  | unchanged hst =>
    rcases hst with rfl | rfl | hst
    · exact .inl (.inl rfl)
    · exact .inr (.inr (.inr (.inl rfl)))
    · exact .inr (.inl hst)
  | received hst => exact .inl hst
  | overflowed => exact .inr (.inr (.inr (.inr rfl)))
  | loaded => exact .inl (.inl rfl)
  | sent hst => exact .inl hst
  | marked => exact .inr (.inr (.inr (.inl rfl)))
  | advanced => exact .inl (.inl rfl)
  | drained hst => exact .inl hst
  | rewound => exact .inr (.inr (.inl rfl))
  | aborted => exact .inl (.inl rfl)

/-- What the `TIMER` field says of the bit `timer_armed` before and after (R262). -/
abbrev TimerTracks (before : Bool) (timer : TimerCmd) (after : Bool) : Prop :=
  (timer = .start → before = false ∧ after = true) ∧
  (timer = .restart → before = true ∧ after = true) ∧
  (timer = .stop → before = true ∧ after = false) ∧
  (timer = .none → after = before)

theorem timerTracks_none (b : Bool) : TimerTracks b .none b := ⟨nofun, nofun, nofun, fun _ => rfl⟩

theorem timerTracks_restart : TimerTracks true .restart true := ⟨nofun, fun _ => ⟨rfl, rfl⟩, nofun, nofun⟩

theorem timerTracks_stop : TimerTracks true .stop false := ⟨nofun, nofun, fun _ => ⟨rfl, rfl⟩, nofun⟩

/-- Arming starts the timer where it was not armed. -/
theorem timerTracks_armed (b : Bool) : TimerTracks b (if b then .none else .start) true := by
  cases b
  · exact ⟨fun _ => ⟨rfl, rfl⟩, nofun, nofun, nofun⟩
  · exact timerTracks_none true

/-- Disarming stops the timer where it was armed. -/
theorem timerTracks_stopIfArmed (w : TxUnit) : TimerTracks w.timerArmed (stopIfArmed w) false := by
  unfold stopIfArmed
  cases w.timerArmed
  · exact timerTracks_none false
  · exact timerTracks_stop

/-- The timer is armed only in an active session (R39 (e)). -/
theorem TxInv.timerArmed_eq_false {c : Config} {w : TxUnit} (h : TxInv c w) (hst : w.txState ≠ .active) :
    w.timerArmed = false := by
  obtain ⟨hidle, hsession⟩ := h
  by_cases hw : w.txState = .idle
  · rw [hidle hw]
    rfl
  · obtain ⟨_, _, _, _, harmed, _⟩ := hsession hw
    exact Bool.eq_false_iff.2 fun h => hst (harmed.1 h).1

/-- While a frame awaits its acknowledgment the timer is armed (R39 (a), (d), (e)). -/
theorem TxInv.timerArmed_of_awaitsAck {c : Config} {w : TxUnit} (h : TxInv c w) (hout : w.awaitsAck) :
    w.timerArmed = true := by
  obtain ⟨hst, hne⟩ := hout
  have ⟨_, hsession⟩ := h
  obtain ⟨⟨_, _, _, _⟩, _⟩ := hsession hst
  have hlt : w.windowBase < w.nextSeq := by omega
  exact h.timerArmed_of_outstanding (h.active_of_outstanding hst hlt) hlt

theorem Ending.timerTracks (h : Ending s u v st timer) (hinv : TxInv s.cfg s.tx) :
    TimerTracks s.tx.timerArmed timer v.timerArmed := by
  cases h with
  | unchanged | received | overflowed | marked => exact timerTracks_none _
  | loaded hst hv =>
    rw [hv, hinv.timerArmed_eq_false hst]
    exact timerTracks_none false
  | sent _ hv =>
    rw [hv]
    exact timerTracks_armed _
  | advanced hout hv =>
    rw [hv, hinv.timerArmed_of_awaitsAck hout]
    exact timerTracks_restart
  | drained _ hout hv =>
    rw [hv, hinv.timerArmed_of_awaitsAck hout]
    exact timerTracks_stop
  | rewound hout =>
    simp only [hinv.timerArmed_of_awaitsAck hout]
    exact timerTracks_restart
  | aborted => exact timerTracks_stopIfArmed s.tx

end

/-! ## The rules of the status and of the timer -/

/-- Settles O48: each way an operation can end has a status that allows what it writes. -/
theorem failingOperationsWriteNothing : Obligations.FailingOperationsWriteNothing :=
  fun _ _ _ _ h hr => (ending_of_exec h hr).writesByStatus

/-- Settles O49: the statuses operations end with are listed, and the reserved ones are not among them. -/
theorem reservedStatusesAreNeverReturned : Obligations.ReservedStatusesAreNeverReturned := by
  intro i s t r h hr
  have hst := (ending_of_exec h hr).status_cases
  constructor <;> intro hreserved <;> rw [hreserved] at hst <;> revert hst <;> decide

/-- Settles O51: each way an operation can end has the `TIMER` field that goes with what it does to `timer_armed`. -/
theorem timerFieldTracksTimerArmed : Obligations.TimerFieldTracksTimerArmed :=
  fun _ _ _ _ ⟨_, _, hinv⟩ h hr => (ending_of_exec h hr).timerTracks hinv

end Sys2Proof.Machine
end

section
/-! SUPPORT. The three level outputs (60_exceptions.md R260) as functions of the register map's contents (R43). -/

namespace Sys2Proof.Machine

theorem RxState.beq_complete_iff (x : RxState) : (x == .complete) = true ↔ x.code.toNat = 2 := by
  cases x <;> decide

theorem TxState.beq_done_iff (x : TxState) : (x == .done) = true ↔ x.code.toNat = 2 := by
  cases x <;> decide

theorem rxCompleteOut_iff (s : State) : s.rxCompleteOut = true ↔ Register.rxState.content s = 2 :=
  s.rx.rxState.beq_complete_iff

theorem txDoneOut_iff (s : State) : s.txDoneOut = true ↔ Register.txState.content s = 2 :=
  s.tx.txState.beq_done_iff

/-- `timer_armed` is bit 0 of `TX_FLAGS`. -/
theorem txTimerArmedOut_iff (s : State) : s.txTimerArmedOut = true ↔ Register.txFlags.content s % 2 = 1 := by
  rw [State.txTimerArmedOut, Register.content, TxUnit.flags, Nat.add_mul_mod_self_left]
  cases s.tx.timerArmed <;> decide

/-- Settles O60: the three registers fit their two bits in every state, so they read as their contents. -/
theorem levelOutputsAgreeWithTheRegisters : Obligations.LevelOutputsAgreeWithTheRegisters := by
  intro s
  have hrx : Register.rxState.content s < 2 ^ Register.rxState.width s.cfg := s.rx.rxState.code.isLt
  have htx : Register.txState.content s < 2 ^ Register.txState.width s.cfg := s.tx.txState.code.isLt
  have hflags : Register.txFlags.content s < 2 ^ Register.txFlags.width s.cfg := flags_lt _ _
  exact ⟨_, _, _, execRdReg_of_content_lt hrx rfl, execRdReg_of_content_lt htx rfl, execRdReg_of_content_lt hflags rfl,
    rxCompleteOut_iff s, txDoneOut_iff s, txTimerArmedOut_iff s⟩

end Sys2Proof.Machine
end

section
/-! SUPPORT. Progress (93_implementation_defined.md, part 2): what one step is, and that under the invariant every
operation goes on. An operation can stop only where it reads a memory, and the invariant says that the bytes it reads
are there. -/

namespace Sys2Proof.Machine

/-- A step is a hardware reset, or waits, or answers an illegal command, or executes the operation presented. -/
theorem step_cases (s : State) :
    (s.resetIn = true ∧ step s = .next (State.resetWith s.cfg)) ∨
    (s.resetIn = false ∧ step s = .next s) ∨
    (∃ word0 rest, step s = illegalCommand (s.withPort rest) word0) ∨
    (∃ i rest, decode s.port = .instr i rest ∧ step s = exec i (s.withPort rest)) := by
  cases hreset : s.resetIn with
  | true => exact .inl ⟨rfl, step_of_resetIn hreset⟩
  | false =>
    cases hd : decode s.port with
    | idle => exact .inr (.inl ⟨rfl, step_of_decode_waiting hreset (.inl hd)⟩)
    | incomplete => exact .inr (.inl ⟨rfl, step_of_decode_waiting hreset (.inr hd)⟩)
    | illegal word0 rest => exact .inr (.inr (.inl ⟨word0, rest, step_of_decode_illegal hreset hd⟩))
    | instr i rest => exact .inr (.inr (.inr ⟨i, rest, rfl, step_of_decode_instr hreset hd⟩))

section
variable {s : State}

/-- The bytes of a read that is not refused lie below `rx_len`, where RBUF holds every byte (R29 (e)). -/
theorem exists_next_of_execRxRead (hinv : Invariant s) (offset : Word) (n : BitVec 24) :
    ∃ t, execRxRead offset n s = .next t := by
  obtain ⟨hnotComplete, hpast, hinside⟩ := rxReadReturnsTheAssembledBytes s offset n
  by_cases hst : s.rx.rxState = .complete
  · by_cases hin : offset.toNat + n.toNat ≤ s.rx.rxLen
    · obtain ⟨bs, _, _, e⟩ := hinside hinv hst hin
      exact ⟨_, e⟩
    · exact ⟨_, hpast hst (not_le.1 hin)⟩
  · exact ⟨_, hnotComplete hst⟩

theorem exists_next_of_execTxLoad (b : Bytes) (ps : Word) : ∃ t, execTxLoad b ps s = .next t := by
  rcases execTxLoad_cases b ps s with ⟨_, e, _⟩ | ⟨_, _, _, _, _, _, _, e⟩
  · exact ⟨_, e⟩
  · exact ⟨_, e⟩

/-- The frame that is sent, again or for the first time, is below the send limit, so it exists. -/
theorem exists_next_of_execTxNext (hinv : Invariant s) : ∃ t, execTxNext s = .next t := by
  rcases execTxNext_cases s with ⟨_, _, e, _⟩ | ⟨hst, hptr, e⟩ | ⟨hst, _, hlimit, e⟩ <;> rw [e]
  case inl => exact ⟨_, rfl⟩
  case inr.inl =>
    obtain ⟨_, _, hnext⟩ := cursors_of_active hinv hst
    obtain ⟨d, hd⟩ := exists_frameOf hinv hst (hptr.trans_le hnext)
    exact ⟨_, sendFrame_of_frameOf hd⟩
  case inr.inr =>
    obtain ⟨d, hd⟩ := exists_frameOf hinv hst hlimit
    exact ⟨_, sendFrame_of_frameOf hd⟩

/-- The checksum compared is that of a frame in flight, which is one of the session's. -/
theorem exists_next_of_execTxAck (hinv : Invariant s) (raw : Bytes) : ∃ t, execTxAck raw s = .next t := by
  rcases execTxAck_cases raw s with ⟨_, _, e, _⟩ | ⟨_, _, e⟩ | ⟨hst, seq, k, _, _, hseq, ⟨_, e⟩ | ⟨f, hf, _⟩⟩
  case inl => exact ⟨_, e⟩
  case inr.inl => exact ⟨_, e⟩
  case inr.inr.inl =>
    obtain ⟨r, hadvance⟩ := advanceWindow_eq_advanced s seq
    exact ⟨_, e.trans hadvance⟩
  case inr.inr.inr =>
    have ⟨_, _, _, hsession⟩ := hinv
    obtain ⟨⟨_, _, hnext, _⟩, _⟩ := hsession hst
    obtain ⟨p, _, hck, _⟩ := frameOfReadsItsChunk s seq hinv hst (hseq.trans_le hnext)
    rw [hf] at hck
    cases hck

theorem exists_next_of_execTxTimeout : ∃ t, execTxTimeout s = .next t := by
  rcases execTxTimeout_cases s with ⟨_, e⟩ | ⟨_, _, e⟩
  · exact ⟨_, e⟩
  · exact ⟨_, e⟩

theorem exists_next_of_execRdReg (n : BitVec 24) : ∃ t, execRdReg n s = .next t := by
  rcases execRdReg_cases n s with ⟨_, e⟩ | ⟨_, _, e⟩
  · exact ⟨_, e⟩
  · exact ⟨_, e⟩

theorem exists_next_of_exec_codec {i : Instr} (hi : i.isCodec = true) : ∃ t, exec i s = .next t := by
  obtain ⟨_, _, _, _, e, _⟩ := exec_codec_cases i s hi
  exact ⟨_, e⟩

theorem exists_next_of_exec_rx {i : Instr} (hi : i.isRx = true) (hinv : Invariant s) : ∃ t, exec i s = .next t := by
  cases i <;> simp only [Instr.isRx, Bool.false_eq_true] at hi
  case rxFrame raw =>
    obtain ⟨t, e, _⟩ := exists_rxOutcome raw s
    exact ⟨t, e⟩
  case rxRead offset n => exact exists_next_of_execRxRead hinv offset n
  case rxReset => exact ⟨_, rfl⟩

theorem exists_next_of_exec_tx {i : Instr} (hi : i.isTx = true) (hinv : Invariant s) : ∃ t, exec i s = .next t := by
  cases i <;> simp only [Instr.isTx, Bool.false_eq_true] at hi
  case txLoad b ps => exact exists_next_of_execTxLoad b ps
  case txNext => exact exists_next_of_execTxNext hinv
  case txAck raw => exact exists_next_of_execTxAck hinv raw
  case txTimeout => exact exists_next_of_execTxTimeout
  case txAbort => exact ⟨_, rfl⟩

/-- Under the invariant every operation goes on, whatever its operands. -/
theorem exists_next_of_exec (i : Instr) (hinv : Invariant s) : ∃ t, exec i s = .next t := by
  rcases i.family_cases with hcodec | hrx | htx | ⟨n, rfl⟩ | rfl
  · exact exists_next_of_exec_codec hcodec
  · exact exists_next_of_exec_rx hrx hinv
  · exact exists_next_of_exec_tx htx hinv
  · exact exists_next_of_execRdReg n
  · exact ⟨_, rfl⟩

end

/-- Settles O58: every kind of step goes on; taking a command off the port leaves the invariant as it is. -/
theorem stepAlwaysGoesOn : Obligations.StepAlwaysGoesOn := by
  intro s hinv
  unfold Goes
  rcases step_cases s with ⟨_, e⟩ | ⟨_, e⟩ | ⟨_, _, e⟩ | ⟨i, rest, _, e⟩ <;> rw [e]
  case inl => exact ⟨_, rfl⟩
  case inr.inl => exact ⟨_, rfl⟩
  case inr.inr.inl => exact ⟨_, rfl⟩
  case inr.inr.inr => exact exists_next_of_exec (s := s.withPort rest) i hinv

end Sys2Proof.Machine
end

section
/-! SUPPORT. The canonical form of the two byte memories (20_memory.md; log entry 8): an operation that stores leaves a
memory empty or with one `memWrite` performed on it, and every other one leaves both as they were. -/

namespace Sys2Proof.Machine

theorem Memory.nil_wf : Memory.wf [] := List.Pairwise.nil

theorem memWrite_wf {c : Config} {space : Space} {m m' : Memory} {addr : Nat} {v : Bytes} (hm : m.wf)
    (h : memWrite c space m addr v = .ok m') : m'.wf := by
  obtain ⟨_, hwf, _⟩ := memWrite_ok h
  exact hwf hm

section
variable {s t : State}

theorem TakesIn.rbuf_wf {raw : Bytes} {u : RxUnit} (h : TakesIn s raw u) (hrbuf : s.rx.rbuf.wf) : u.rbuf.wf := by
  cases h with
  | metadata => exact hrbuf
  | data _ _ hm => exact memWrite_wf hrbuf hm

theorem RxOutcome.rbuf_wf {raw : Bytes} (h : RxOutcome s raw t) (hrbuf : s.rx.rbuf.wf) : t.rx.rbuf.wf := by
  cases h with
  | rejected => exact hrbuf
  | overflowed => exact hrbuf
  | acknowledged _ hu => exact hu.rbuf_wf hrbuf

/-- `TX_LOAD` loads its buffer into an empty memory, or leaves TBUF as it was. -/
theorem tbuf_wf_of_execTxLoad {b : Bytes} {ps : Word} (htbuf : s.tx.tbuf.wf) (h : execTxLoad b ps s = .next t) :
    t.tx.tbuf.wf := by
  rcases execTxLoad_cases b ps s with ⟨_, e, _⟩ | ⟨_, _, _, _, _, m, hm, e⟩ <;> rw [e] at h <;> cases h
  case inl => exact htbuf
  case inr => exact memWrite_wf Memory.nil_wf hm

/-- An operation that stores keeps the form. -/
theorem memories_wf_of_exec_of_mayStore {i : Instr} (hi : i.mayStore = true) (htbuf : s.tx.tbuf.wf)
    (hrbuf : s.rx.rbuf.wf) (h : exec i s = .next t) : t.tx.tbuf.wf ∧ t.rx.rbuf.wf := by
  cases i <;> simp only [Instr.mayStore, Bool.false_eq_true] at hi
  case rxFrame raw =>
    rw [tx_of_exec_rx rfl h]
    exact ⟨htbuf, (rxOutcome_of_exec h).rbuf_wf hrbuf⟩
  case rxReset =>
    cases h
    exact ⟨htbuf, Memory.nil_wf⟩
  case txLoad b ps =>
    rw [rx_of_exec_tx rfl h]
    exact ⟨tbuf_wf_of_execTxLoad htbuf h, hrbuf⟩
  case txAbort =>
    cases h
    exact ⟨Memory.nil_wf, hrbuf⟩
  case reset =>
    cases h
    exact ⟨Memory.nil_wf, Memory.nil_wf⟩

theorem memories_wf_of_exec {i : Instr} (htbuf : s.tx.tbuf.wf) (hrbuf : s.rx.rbuf.wf) (h : exec i s = .next t) :
    t.tx.tbuf.wf ∧ t.rx.rbuf.wf := by
  cases hi : i.mayStore with
  | true => exact memories_wf_of_exec_of_mayStore hi htbuf hrbuf h
  | false =>
    obtain ⟨htx, hrx⟩ := memories_of_exec_of_not_mayStore hi h
    rw [htx, hrx]
    exact ⟨htbuf, hrbuf⟩

end

/-- Settles O59: hardware reset empties both memories, an operation keeps their form, and any other step keeps them. -/
theorem stepKeepsMemoriesCanonical : Obligations.StepKeepsMemoriesCanonical := by
  intro s t htbuf hrbuf h
  rcases step_cases s with ⟨_, e⟩ | ⟨_, e⟩ | ⟨_, _, e⟩ | ⟨i, rest, _, e⟩ <;> rw [e] at h
  case inl =>
    cases h
    exact ⟨Memory.nil_wf, Memory.nil_wf⟩
  case inr.inl =>
    cases h
    exact ⟨htbuf, hrbuf⟩
  case inr.inr.inl =>
    cases h
    exact ⟨htbuf, hrbuf⟩
  case inr.inr.inr => exact memories_wf_of_exec (s := s.withPort rest) htbuf hrbuf h

end Sys2Proof.Machine
end

section
/-! SUPPORT. `CK_REF` (40_codec.md R131): its step loses nothing of the value so far, because the multiplier 257 is odd
and so has an inverse modulo `2^128`, and nothing of the byte, so that payloads that differ in one byte have values that
differ from there on. -/

namespace Sys2Proof.Machine

/-- Two values so far that one byte takes to the same value are the same. -/
theorem ckRefStep_inj_hash {g h : Nat} (hg : g < 2 ^ 128) (hh : h < 2 ^ 128) {b : Byte}
    (heq : ckRefStep g b = ckRefStep h b) : g = h := by
  have hsum : g * 257 + b.toNat + 1 ≡ h * 257 + b.toNat + 1 [MOD 2 ^ 128] := heq
  have hmul : g * 257 ≡ h * 257 [MOD 2 ^ 128] := (hsum.add_right_cancel' 1).add_right_cancel' b.toNat
  have hcoprime : Nat.Coprime (2 ^ 128) 257 := Nat.Coprime.pow_left 128 (by decide)
  exact (hmul.cancel_right_of_coprime hcoprime).eq_of_lt_of_lt hg hh

/-- Two bytes that take a value so far to the same value are the same. -/
theorem ckRefStep_inj_byte {h : Nat} {x y : Byte} (heq : ckRefStep h x = ckRefStep h y) : x = y := by
  have hsum : h * 257 + x.toNat + 1 ≡ h * 257 + y.toNat + 1 [MOD 2 ^ 128] := heq
  have hbyte : x.toNat ≡ y.toNat [MOD 2 ^ 128] := (hsum.add_right_cancel' 1).add_left_cancel' (h * 257)
  exact BitVec.eq_of_toNat_eq (hbyte.eq_of_lt_of_lt (by omega) (by omega))

theorem ckRefStep_lt (h : Nat) (b : Byte) : ckRefStep h b < 2 ^ 128 := Nat.mod_lt _ (by positivity)

theorem foldl_ckRefStep_inj {p : Bytes} {g h : Nat} (hg : g < 2 ^ 128) (hh : h < 2 ^ 128)
    (heq : p.foldl ckRefStep g = p.foldl ckRefStep h) : g = h := by
  induction p generalizing g h with
  | nil => exact heq
  | cons b p ih => exact ckRefStep_inj_hash hg hh (ih (ckRefStep_lt g b) (ckRefStep_lt h b) heq)

theorem foldl_ckRefStep_lt (p : Bytes) {h : Nat} (hh : h < 2 ^ 128) : p.foldl ckRefStep h < 2 ^ 128 := by
  induction p generalizing h with
  | nil => exact hh
  | cons b p ih => exact ih (ckRefStep_lt h b)

theorem ckRefHash_lt (p : Bytes) : ckRefHash p < 2 ^ 128 := foldl_ckRefStep_lt p (by positivity)

/-- The value of a payload by the byte at one place. -/
theorem ckRefHash_set {p : Bytes} {i : Nat} (hi : i < p.length) (x : Byte) :
    ckRefHash (p.set i x) = (p.drop (i + 1)).foldl ckRefStep (ckRefStep (ckRefHash (p.take i)) x) := by
  rw [List.set_eq_take_append_cons_drop, if_pos hi, ckRefHash, List.foldl_append, List.foldl_cons, ckRefHash]

theorem ckRefHash_set_inj {p : Bytes} {i : Nat} (hi : i < p.length) {x y : Byte}
    (heq : ckRefHash (p.set i x) = ckRefHash (p.set i y)) : x = y := by
  rw [ckRefHash_set hi, ckRefHash_set hi] at heq
  exact ckRefStep_inj_byte (foldl_ckRefStep_inj (ckRefStep_lt _ x) (ckRefStep_lt _ y) heq)

/-- The 16 bytes of the checksum determine the value they are made of. -/
theorem ube_ck_of_reference {c : Config} (href : c.ckFunction = .reference) (hbytes : c.ckBytes = 16) (p : Bytes) :
    ube (ck c p) = ckRefHash p := by
  have hck : ck c p = be 16 (ckRefHash p) := by simp [ck, href, hbytes]
  rw [hck, ube_be ((ckRefHash_lt p).trans_eq (by norm_num))]

/-- Settles O10: the payload with its own byte put back is itself, so equal checksums make the two bytes equal. -/
theorem referenceChecksumSeesEveryByteChange : Obligations.ReferenceChecksumSeesEveryByteChange := by
  intro c p i x y href hbytes hy hne heq
  obtain ⟨hi, rfl⟩ := List.getElem?_eq_some_iff.1 hy
  have hhash : ckRefHash (p.set i x) = ckRefHash (p.set i p[i]) := by
    rw [List.set_getElem_self, ← ube_ck_of_reference href hbytes, ← ube_ck_of_reference href hbytes, heq]
  exact hne (ckRefHash_set_inj hi hhash)

end Sys2Proof.Machine
end
